-- ==== Sys2Proof/Word.lean ====
section
/-! DEFINITION. The widths of the machine: the three variants, the word that holds a register, the register number. -/

namespace Sys2Proof

/-- The variant of the architecture, XLEN in {32, 64, 128} (R2, R6). -/
inductive Variant where
  | x32
  | x64
  | x128
  deriving DecidableEq, Repr

/-- XLEN in bits (R6). -/
def Variant.bits : Variant → Nat
  | .x32 => 32
  | .x64 => 64
  | .x128 => 128

/-- XLEN / 8, the bytes of a whole register (R204). -/
def Variant.bytes : Variant → Nat
  | .x32 => 4
  | .x64 => 8
  | .x128 => 16

/-- A byte, 8 bits (R8). -/
abbrev Byte := BitVec 8

/-- The container of an XLEN-bit value: the value stands in the low XLEN bits and the bits above are zero.
128 is the widest XLEN (R6); log 14. -/
abbrev Word := BitVec 128

/-- The number of a general purpose register; every value of the 5-bit field names one (R21, R90). -/
abbrev Reg := Fin 32

end Sys2Proof
end

