-- ==== Sys2Proof/Syntax.lean ====
section
/-! DEFINITION. The instructions: one constructor of Instr per row of spec/opcode_table.json (82), and their mnemonics.
Operand names follow the pseudocode of the spec's rules: `a`, `b` sources, `d` destination, `base`, `off`, `data` of the loads and
stores, `t` the branch target register, `imm` the immediate field as it is encoded, `rest` the 25 uninterpreted bits of the X-format. -/

namespace Sys2Proof

/-- The 82 instructions the manual names (R4), by name only, in the order of the table of R92. -/
inductive Mnemonic where
  | addi | addic | addr | addrc | subi | subib | subr | subrb | mult | div | mov | addipc | addrpc | andr | andi
  | notr | noti | orr | ori | xorr | xori | lls | lrs | ars | lwr | swr | ldr | sdr | lhr | shr | lbr | sbr | lwrro
  | swrro | ldrro | sdrro | lhrro | shrro | lbrro | sbrro | lwpro | swpro | ldpro | sdpro | lhpro | shpro | lbpro
  | sbpro | lwpio | swpio | ldpio | sdpio | lhpio | shpio | lbpio | sbpio | lwp | swp | lhp | shp | lbp | sbp | swap
  | cas | jalr | jwlr | jali | be | bne | bgt | bgte | blt | blte | bz | bnz | bc | bo | nop | wfi | wfe | se | sle
  deriving DecidableEq, Repr

/-- All mnemonics, in the order of the table of R92. -/
def Mnemonic.all : List Mnemonic :=
  [.addi, .addic, .addr, .addrc, .subi, .subib, .subr, .subrb, .mult, .div, .mov, .addipc, .addrpc, .andr,
   .andi, .notr, .noti, .orr, .ori, .xorr, .xori, .lls, .lrs, .ars, .lwr, .swr, .ldr, .sdr,
   .lhr, .shr, .lbr, .sbr, .lwrro, .swrro, .ldrro, .sdrro, .lhrro, .shrro, .lbrro, .sbrro, .lwpro, .swpro,
   .ldpro, .sdpro, .lhpro, .shpro, .lbpro, .sbpro, .lwpio, .swpio, .ldpio, .sdpio, .lhpio, .shpio, .lbpio, .sbpio,
   .lwp, .swp, .lhp, .shp, .lbp, .sbp, .swap, .cas, .jalr, .jwlr, .jali, .be, .bne, .bgt,
   .bgte, .blt, .blte, .bz, .bnz, .bc, .bo, .nop, .wfi, .wfe, .se, .sle]

/-- An instruction with its operands as fields of the instruction word. -/
inductive Instr where
  /-- ADDI, Add Immediate (R112). -/
  | addi (a d : Reg) (imm : BitVec 12)
  /-- ADDIC, Add Immediate With Carry (R114). -/
  | addic (a d : Reg) (imm : BitVec 12)
  /-- ADDR, Add Register (R111). -/
  | addr (a b d : Reg)
  /-- ADDRC, Add Register With Carry (R113). -/
  | addrc (a b d : Reg)
  /-- SUBI, Subtract Immediate (R116). -/
  | subi (a d : Reg) (imm : BitVec 12)
  /-- SUBIB, Subtract Immediate with Borrow (R118). -/
  | subib (a d : Reg) (imm : BitVec 12)
  /-- SUBR, Subtract Register (R115). -/
  | subr (a b d : Reg)
  /-- SUBRB, Subtract Register with Borrow (R117). -/
  | subrb (a b d : Reg)
  /-- MULT, Multiply (R119). -/
  | mult (a b d : Reg)
  /-- DIV, Divide (R120). -/
  | div (a b d : Reg)
  /-- MOV, Move (R121). -/
  | mov (a d : Reg)
  /-- ADDIPC, Add Immediate to Program Counter (R130). -/
  | addipc (d : Reg) (imm : BitVec 12)
  /-- ADDRPC, Add register to Program Counter (R131). -/
  | addrpc (a d : Reg)
  /-- ANDR, AND Register (R136). -/
  | andr (a b d : Reg)
  /-- ANDI, AND Immediate (R137). -/
  | andi (a d : Reg) (imm : BitVec 12)
  /-- NOTR, NOT Register (R138). -/
  | notr (a d : Reg)
  /-- NOTI, NOT Immediate (R139). -/
  | noti (d : Reg) (imm : BitVec 12)
  /-- ORR, OR Register (R140). -/
  | orr (a b d : Reg)
  /-- ORI, OR Immediate (R141). -/
  | ori (a d : Reg) (imm : BitVec 12)
  /-- XORR, XOR Register (R142). -/
  | xorr (a b d : Reg)
  /-- XORI, XOR Immediate (R143). -/
  | xori (a d : Reg) (imm : BitVec 12)
  /-- LLS, Logical Left Shift (R144). -/
  | lls (a d : Reg) (imm : BitVec 12)
  /-- LRS, Logical Right Shift (R145). -/
  | lrs (a d : Reg) (imm : BitVec 12)
  /-- ARS, Arithmetic Right Shift (R146). -/
  | ars (a d : Reg) (imm : BitVec 12)
  /-- LWR, Load Word Register (R160). -/
  | lwr (base d : Reg) (imm : BitVec 12)
  /-- SWR, Store Word Register (R161). -/
  | swr (data base : Reg) (imm : BitVec 12)
  /-- LDR, Load Doubleword Register (R162). -/
  | ldr (base d : Reg) (imm : BitVec 12)
  /-- SDR, Store Doubleword Register (R163). -/
  | sdr (data base : Reg) (imm : BitVec 12)
  /-- LHR, Load Halfword Register (R164). -/
  | lhr (base d : Reg) (imm : BitVec 12)
  /-- SHR, Store Halfword Register (R165). -/
  | shr (data base : Reg) (imm : BitVec 12)
  /-- LBR, Load Byte Register (R166). -/
  | lbr (base d : Reg) (imm : BitVec 12)
  /-- SBR, Store Byte Register (R167). -/
  | sbr (data base : Reg) (imm : BitVec 12)
  /-- LWRRO, Load Word Register with Register Offset (R168). -/
  | lwrro (base off d : Reg)
  /-- SWRRO, Store Word Register with Register Offset (R169). -/
  | swrro (data base off : Reg)
  /-- LDRRO, Load Doubleword Register with Register Offset (R170). -/
  | ldrro (base off d : Reg)
  /-- SDRRO, Store Doubleword Register with Register Offset (R171). -/
  | sdrro (data base off : Reg)
  /-- LHRRO, Load Halfword Register with Register Offset (R172). -/
  | lhrro (base off d : Reg)
  /-- SHRRO, Store Halfword Register with Register Offset (R173). -/
  | shrro (data base off : Reg)
  /-- LBRRO, Load Byte Register with Register Offset (R174). -/
  | lbrro (base off d : Reg)
  /-- SBRRO, Store Byte Register with Register Offset (R175). -/
  | sbrro (data base off : Reg)
  /-- LWPRO, Load Word PC with Register Offset (R176). -/
  | lwpro (off d : Reg)
  /-- SWPRO, Store Word PC with Register Offset (R177). -/
  | swpro (data off : Reg)
  /-- LDPRO, Load Doubleword PC with Register Offset (R178). -/
  | ldpro (off d : Reg)
  /-- SDPRO, Store Doubleword PC with Register Offset (R179). -/
  | sdpro (data off : Reg)
  /-- LHPRO, Load Halfword PC with Register Offset (R180). -/
  | lhpro (off d : Reg)
  /-- SHPRO, Store Halfword PC with Register Offset (R181). -/
  | shpro (data off : Reg)
  /-- LBPRO, Load Byte PC with Register Offset (R182). -/
  | lbpro (off d : Reg)
  /-- SBPRO, Store Byte PC with Register Offset (R183). -/
  | sbpro (data off : Reg)
  /-- LWPIO, Load Word PC with Immediate Offset (R184). -/
  | lwpio (d : Reg) (imm : BitVec 12)
  /-- SWPIO, Store Word PC with Immediate Offset (R185). -/
  | swpio (data : Reg) (imm : BitVec 12)
  /-- LDPIO, Load Doubleword PC with Immediate Offset (R186). -/
  | ldpio (d : Reg) (imm : BitVec 12)
  /-- SDPIO, Store Doubleword PC with Immediate Offset (R187). -/
  | sdpio (data : Reg) (imm : BitVec 12)
  /-- LHPIO, Load Halfword PC with Immediate Offset (R188). -/
  | lhpio (d : Reg) (imm : BitVec 12)
  /-- SHPIO, Store Halfword PC with Immediate Offset (R189). -/
  | shpio (data : Reg) (imm : BitVec 12)
  /-- LBPIO, Load Byte PC with Immediate Offset (R190). -/
  | lbpio (d : Reg) (imm : BitVec 12)
  /-- SBPIO, Store Byte PC with Immediate Offset (R191). -/
  | sbpio (data : Reg) (imm : BitVec 12)
  /-- LWP, Load Word Pair (R197). -/
  | lwp (rest : BitVec 25)
  /-- SWP, Store Word Pair (R198). -/
  | swp (rest : BitVec 25)
  /-- LHP, Load Halfword Pair (R199). -/
  | lhp (rest : BitVec 25)
  /-- SHP, Store Halfword Pair (R200). -/
  | shp (rest : BitVec 25)
  /-- LBP, Load Byte Pair (R201). -/
  | lbp (rest : BitVec 25)
  /-- SBP, Store Byte Pair (R202). -/
  | sbp (rest : BitVec 25)
  /-- SWAP, Swap (R204). -/
  | swap (a d : Reg)
  /-- CAS, Compare and Swap (R203). -/
  | cas (rest : BitVec 25)
  /-- JALR, Jump and link Register (R213). -/
  | jalr (a d : Reg)
  /-- JWLR, Jump Without Link Register (R214). -/
  | jwlr (a : Reg)
  /-- JALI, Jump and Link Immediate (R215). -/
  | jali (d : Reg) (imm : BitVec 15)
  /-- BE, Branch if Equal (R217). -/
  | be (a b t : Reg)
  /-- BNE, Branch if Not Equal (R218). -/
  | bne (a b t : Reg)
  /-- BGT, Branch if Greater Than (R219). -/
  | bgt (a b t : Reg)
  /-- BGTE, Branch if Greater Than or Equal (R220). -/
  | bgte (a b t : Reg)
  /-- BLT, Branch if Less Than (R221). -/
  | blt (a b t : Reg)
  /-- BLTE, Branch if Less Than or Equal (R222). -/
  | blte (a b t : Reg)
  /-- BZ, Branch if Zero (R223). -/
  | bz (t : Reg)
  /-- BNZ, Branch if Nonzero (R224). -/
  | bnz (t : Reg)
  /-- BC, Branch on Carry (R225). -/
  | bc (t : Reg)
  /-- BO, Branch on Overflow (R226). -/
  | bo (t : Reg)
  /-- NOP, No Operation (R237). -/
  | nop
  /-- WFI, Wait for Interrupt (R238). -/
  | wfi
  /-- WFE, Wait for Event (R239). -/
  | wfe
  /-- SE, Send Event (R240). -/
  | se
  /-- SLE, Send Local Event (R241). -/
  | sle
  deriving DecidableEq, Repr

/-- The name of an instruction. -/
def Instr.mnemonic : Instr → Mnemonic
  | .addi _ _ _ => .addi
  | .addic _ _ _ => .addic
  | .addr _ _ _ => .addr
  | .addrc _ _ _ => .addrc
  | .subi _ _ _ => .subi
  | .subib _ _ _ => .subib
  | .subr _ _ _ => .subr
  | .subrb _ _ _ => .subrb
  | .mult _ _ _ => .mult
  | .div _ _ _ => .div
  | .mov _ _ => .mov
  | .addipc _ _ => .addipc
  | .addrpc _ _ => .addrpc
  | .andr _ _ _ => .andr
  | .andi _ _ _ => .andi
  | .notr _ _ => .notr
  | .noti _ _ => .noti
  | .orr _ _ _ => .orr
  | .ori _ _ _ => .ori
  | .xorr _ _ _ => .xorr
  | .xori _ _ _ => .xori
  | .lls _ _ _ => .lls
  | .lrs _ _ _ => .lrs
  | .ars _ _ _ => .ars
  | .lwr _ _ _ => .lwr
  | .swr _ _ _ => .swr
  | .ldr _ _ _ => .ldr
  | .sdr _ _ _ => .sdr
  | .lhr _ _ _ => .lhr
  | .shr _ _ _ => .shr
  | .lbr _ _ _ => .lbr
  | .sbr _ _ _ => .sbr
  | .lwrro _ _ _ => .lwrro
  | .swrro _ _ _ => .swrro
  | .ldrro _ _ _ => .ldrro
  | .sdrro _ _ _ => .sdrro
  | .lhrro _ _ _ => .lhrro
  | .shrro _ _ _ => .shrro
  | .lbrro _ _ _ => .lbrro
  | .sbrro _ _ _ => .sbrro
  | .lwpro _ _ => .lwpro
  | .swpro _ _ => .swpro
  | .ldpro _ _ => .ldpro
  | .sdpro _ _ => .sdpro
  | .lhpro _ _ => .lhpro
  | .shpro _ _ => .shpro
  | .lbpro _ _ => .lbpro
  | .sbpro _ _ => .sbpro
  | .lwpio _ _ => .lwpio
  | .swpio _ _ => .swpio
  | .ldpio _ _ => .ldpio
  | .sdpio _ _ => .sdpio
  | .lhpio _ _ => .lhpio
  | .shpio _ _ => .shpio
  | .lbpio _ _ => .lbpio
  | .sbpio _ _ => .sbpio
  | .lwp _ => .lwp
  | .swp _ => .swp
  | .lhp _ => .lhp
  | .shp _ => .shp
  | .lbp _ => .lbp
  | .sbp _ => .sbp
  | .swap _ _ => .swap
  | .cas _ => .cas
  | .jalr _ _ => .jalr
  | .jwlr _ => .jwlr
  | .jali _ _ => .jali
  | .be _ _ _ => .be
  | .bne _ _ _ => .bne
  | .bgt _ _ _ => .bgt
  | .bgte _ _ _ => .bgte
  | .blt _ _ _ => .blt
  | .blte _ _ _ => .blte
  | .bz _ => .bz
  | .bnz _ => .bnz
  | .bc _ => .bc
  | .bo _ => .bo
  | .nop => .nop
  | .wfi => .wfi
  | .wfe => .wfe
  | .se => .se
  | .sle => .sle

/-- The least XLEN on which an instruction exists: 64 for the word-sized loads and stores, 128 for the doubleword-sized ones,
32 for all others (R92, R98). -/
def Mnemonic.minXlen : Mnemonic → Nat
  | .lwr | .swr | .lwrro | .swrro | .lwpro | .swpro | .lwpio | .swpio => 64
  | .ldr | .sdr | .ldrro | .sdrro | .ldpro | .sdpro | .ldpio | .sdpio => 128
  | .addi | .addic | .addr | .addrc | .subi | .subib | .subr | .subrb | .mult | .div | .mov | .addipc
  | .addrpc | .andr | .andi | .notr | .noti | .orr | .ori | .xorr | .xori | .lls | .lrs | .ars
  | .lhr | .shr | .lbr | .sbr | .lhrro | .shrro | .lbrro | .sbrro | .lhpro | .shpro | .lbpro | .sbpro
  | .lhpio | .shpio | .lbpio | .sbpio | .lwp | .swp | .lhp | .shp | .lbp | .sbp | .swap | .cas
  | .jalr | .jwlr | .jali | .be | .bne | .bgt | .bgte | .blt | .blte | .bz | .bnz | .bc
  | .bo | .nop | .wfi | .wfe | .se | .sle => 32

end Sys2Proof
end

