-- ==== Sys2Proof/Config.lean ====
section
/-! DEFINITION. The configuration of a run (R7), the launch description (R291), and the free values: constants without a body
for what the spec leaves open at run time. -/

namespace Sys2Proof

/-- BIT_ORDER (R7, R9, D3): whether the manual's bit 0 is the least or the most significant bit of the instruction word. -/
inductive BitOrder where
  | lsb0
  | msb0
  deriving DecidableEq, Repr

/-- How a narrow value is widened: IMM_ARITH_EXT, IMM_OFFSET_EXT, LOAD_EXT (R7, R10, R58). -/
inductive Extension where
  | zero
  | sign
  deriving DecidableEq, Repr

/-- BRANCH_CMP (R7, R216): how BGT, BGTE, BLT, BLTE read their operands. -/
inductive Comparison where
  | signed
  | unsigned
  deriving DecidableEq, Repr

/-- What a region of MEM_MAP holds: data, or the program text (R66, R68). -/
inductive RegionKind where
  | data
  | text
  deriving DecidableEq, Repr

/-- The byte addresses `base .. base + size - 1`, which exist (R66). -/
structure Region where
  base : Nat
  size : Nat
  kind : RegionKind
  deriving DecidableEq, Repr

/-- The parameters of a run (R7, R291 a, b, c, e). ILEN is 32 (R80); NUM_CORES is the number of cores the state holds. -/
structure Config where
  /-- XLEN (R6). -/
  variant : Variant
  /-- BIT_ORDER (D3). -/
  bitOrder : BitOrder
  /-- OPCODE_MAP (R92, D5). -/
  opcodeMap : List (Mnemonic × BitVec 7)
  /-- IMM_ARITH_EXT (R88, D8). -/
  immArithExt : Extension
  /-- IMM_OFFSET_EXT (R88, R89, D8). -/
  immOffsetExt : Extension
  /-- LOAD_EXT (R58, D15). -/
  loadExt : Extension
  /-- DIV_SIGNED (R120, D12). -/
  divSigned : Bool
  /-- BRANCH_CMP (R216, D21). -/
  branchCmp : Comparison
  /-- MEM_MAP: the regions that exist, those of the program text among them (R66, R68). -/
  memMap : List Region
  /-- HALT_PC (R296, D34). -/
  haltPc : Word
  deriving DecidableEq, Repr

/-- The four named flags of FLAGS (R28, R29). -/
inductive FlagName where
  | carry
  | overflow
  | zero
  | condition
  deriving DecidableEq, Repr

/-- What a launch gives one core: its RESET_PC and, optionally, first values of registers and flags (R291 d, f); and, the model's own,
the environment's inputs `irq` and `event` at the core's first WFI and first WFE step (R238, R239, U8; log 5). -/
structure CoreLaunch where
  resetPc : Word
  registers : List (Reg × Word)
  flags : List (FlagName × Bool)
  irq : Bool
  event : Bool
  deriving DecidableEq, Repr

/-- The launch description (R291): the configuration, the initial byte values of mapped addresses, and the cores, NUM_CORES of
them, in a list (R283); and, the model's own, the number that decides which of them takes the first step (R298; log 13). -/
structure Launch where
  cfg : Config
  image : List Host.Cell
  first : CoreLaunch
  others : List CoreLaunch
  turn : Nat
  deriving DecidableEq, Repr

/-- Free value: the quotient of a division to which R120 gives no result (U4, "any value"), at its `draw`-th draw, for its dividend
and divisor. Log 4. -/
opaque Config.freeQuotient (draw : Nat) (dividend divisor : Word) : Word

/-- Free value: the environment's input `irq` at the first WFI step after reset (R238, U8). Log 5. -/
opaque Config.firstIrq : Bool

/-- Free value: the environment's input `event` at the first WFE step after reset (R239, U8). Log 5. -/
opaque Config.firstEvent : Bool

/-- Free value: the environment's input `irq` at a core's next WFI step, once an earlier one is used (R238, U8). Log 5. -/
opaque Config.freeIrq (draw : Nat) : Bool

/-- Free value: the environment's input `event` at a core's next WFE step, once an earlier one is used (R239, U8). Log 5. -/
opaque Config.freeEvent (draw : Nat) : Bool

/-- Free value: which core takes the next step when there are several (R298). Log 13. -/
opaque Config.freeTurn (draw : Nat) : Nat

end Sys2Proof
end

