-- ==== Sys2Proof/Machine/Bits.lean ====
section
/-! DEFINITION. The readings and narrowings of R10: `u(v)` is `v.toNat`; `trunc` and `truncInt` are `trunc_XLEN`; `signed` is `s(v)`.
A value of XLEN bits is held in the low bits of a Word (log 14). -/

namespace Sys2Proof.Machine

/-- `trunc_XLEN(k)` of a natural number (R10). -/
def trunc (x : Variant) (k : Nat) : Word :=
  BitVec.ofNat 128 (k % 2 ^ x.bits)

/-- `trunc_XLEN(k)` of an integer, the modulus being non-negative (R10). -/
def truncInt (x : Variant) (k : Int) : Word :=
  BitVec.ofNat 128 (k % 2 ^ x.bits).toNat

/-- The low XLEN bits of a word. -/
def fit (x : Variant) (v : Word) : Word :=
  trunc x v.toNat

/-- The two's-complement reading of a number of `bits` bits (R10). -/
def signedOf (bits k : Nat) : Int :=
  if k < 2 ^ (bits - 1) then k else (k : Int) - 2 ^ bits

/-- `s(v)` of an XLEN-bit value (R10). -/
def signed (x : Variant) (v : Word) : Int :=
  signedOf x.bits v.toNat

/-- A value of `bits` bits widened, or cut, to XLEN bits by `zext_XLEN` or `sext_XLEN` (R10). -/
def extend (e : Extension) (x : Variant) (bits k : Nat) : Word :=
  match e with
  | .zero => trunc x k
  | .sign => truncInt x (signedOf bits k)

/-- `ext_arith(imm)` (R10, R88). -/
def extArith (c : Config) (imm : BitVec 12) : Word :=
  extend c.immArithExt c.variant 12 imm.toNat

/-- `ext_off(imm)` of the 12-bit immediate (R10, R88). -/
def extOff (c : Config) (imm : BitVec 12) : Word :=
  extend c.immOffsetExt c.variant 12 imm.toNat

/-- `ext_off_15(imm)` of the 15-bit immediate (R89, R215). -/
def extOffJump (c : Config) (imm : BitVec 15) : Word :=
  extend c.immOffsetExt c.variant 15 imm.toNat

/-- What a load of `n` bytes that read `v` writes to its destination (R58, R156). For `8n = XLEN` both extensions give `v`. -/
def extLoad (c : Config) (n : Nat) (v : Word) : Word :=
  extend c.loadExt c.variant (8 * n) v.toNat

end Sys2Proof.Machine
end

