-- ==== Sys2Proof/Machine/Flags.lean ====
section
/-! DEFINITION. The arithmetic of the add, subtract, divide, shift and compare instructions, with the flags the first two write. -/

namespace Sys2Proof.Machine

/-- A result with the three flags written beside it (R110). -/
structure Sum where
  value : Word
  c : Bool
  v : Bool
  z : Bool
  deriving DecidableEq, Repr

/-- An integer lies outside `[-2^(XLEN-1), 2^(XLEN-1))`: signed overflow (R31, R110). -/
def signedOverflow (x : Variant) (k : Int) : Bool :=
  decide (k < -2 ^ (x.bits - 1)) || decide (2 ^ (x.bits - 1) ≤ k)

/-- `AddFlags(a, b, cin)` (R110). -/
def addFlags (x : Variant) (a b : Word) (cin : Bool) : Sum :=
  let exact := a.toNat + b.toNat + cin.toNat
  let sexact := signed x a + signed x b + cin.toNat
  let result := trunc x exact
  { value := result
    c := decide (2 ^ x.bits ≤ exact)
    v := signedOverflow x sexact
    z := decide (result.toNat = 0) }

/-- `SubFlags(a, b, bin)` (R110): C is the borrow. -/
def subFlags (x : Variant) (a b : Word) (bin : Bool) : Sum :=
  let exact : Int := a.toNat - b.toNat - bin.toNat
  let sexact := signed x a - signed x b - bin.toNat
  let result := truncInt x exact
  { value := result
    c := decide (exact < 0)
    v := signedOverflow x sexact
    z := decide (result.toNat = 0) }

/-- The quotient of R120 under DIV_SIGNED, rounded toward zero; `none` where the spec gives no result: a zero divisor, and the signed
overflow `-2^(XLEN-1) / -1`. -/
def quotient (c : Config) (a b : Word) : Option Word :=
  if b.toNat = 0 then none
  else if c.divSigned then
    if signed c.variant a = -2 ^ (c.variant.bits - 1) ∧ signed c.variant b = -1 then none
    else some (truncInt c.variant ((signed c.variant a).tdiv (signed c.variant b)))
  else some (trunc c.variant (a.toNat / b.toNat))

/-- Logical left shift by `n` one-bit steps, in R144's closed form. -/
def shiftLeft (x : Variant) (v : Word) (n : Nat) : Word :=
  trunc x (v.toNat * 2 ^ n)

/-- Logical right shift by `n` one-bit steps, in R145's closed form. -/
def shiftRight (x : Variant) (v : Word) (n : Nat) : Word :=
  trunc x (v.toNat / 2 ^ n)

/-- Arithmetic right shift by `n` one-bit steps, in R146's closed form: floor toward minus infinity. -/
def shiftRightSigned (x : Variant) (v : Word) (n : Nat) : Word :=
  truncInt x (signed x v / 2 ^ n)

/-- `p < q` under BRANCH_CMP (R216). -/
def less (c : Config) (p q : Word) : Bool :=
  match c.branchCmp with
  | .signed => decide (signed c.variant p < signed c.variant q)
  | .unsigned => decide (p.toNat < q.toNat)

end Sys2Proof.Machine
end

