-- ==== Sys2Proof/WellFormed.lean ====
section
/-! DEFINITION. What the spec requires of an instruction on a variant (R98), of a configuration (R7, R68, R291) and of a launch
description (R291), each as a check that computes. -/

namespace Sys2Proof

/-- An instruction exists on a variant when XLEN is at least the table's "min XLEN" (R95, R98). -/
def Instr.wellFormed (x : Variant) (i : Instr) : Bool :=
  decide (i.mnemonic.minXlen ≤ x.bits)

/-- OPCODE_MAP is an injective map from the 82 mnemonics that sends ADDR to 2 and ADDI to 0 (R7, D5). -/
def Config.opcodeMapOk (c : Config) : Bool :=
  decide (c.opcodeMap.map Prod.fst = Mnemonic.all)
    && decide ((c.opcodeMap.map Prod.snd).Nodup)
    && decide ((Mnemonic.addr, 2#7) ∈ c.opcodeMap)
    && decide ((Mnemonic.addi, 0#7) ∈ c.opcodeMap)

/-- A region lies inside the `2^XLEN` addresses (R50), and a region of program text is a union of aligned 4-byte blocks (R291 c). -/
def Region.wellFormed (x : Variant) (r : Region) : Bool :=
  decide (r.base + r.size ≤ 2 ^ x.bits)
    && (r.kind == .data || (r.base % 4 == 0 && r.size % 4 == 0))

/-- The conditions the spec puts on the parameters: the opcode map (D5), the address map (R291 b, c), HALT_PC an XLEN-bit
address (R7; it need not be aligned or mapped, R296). -/
def Config.wellFormed (c : Config) : Bool :=
  c.opcodeMapOk
    && c.memMap.all (Region.wellFormed c.variant)
    && decide (c.haltPc.toNat < 2 ^ c.variant.bits)

/-- An address lies in a region. -/
def Region.contains (r : Region) (a : Nat) : Bool :=
  decide (r.base ≤ a) && decide (a < r.base + r.size)

/-- RESET_PC is an XLEN-bit multiple of 4 and first register values have XLEN bits (R7, R291 d, f). -/
def CoreLaunch.wellFormed (x : Variant) (l : CoreLaunch) : Bool :=
  decide (l.resetPc.toNat < 2 ^ x.bits)
    && decide (l.resetPc.toNat % 4 = 0)
    && l.registers.all (fun p => decide (p.2.toNat < 2 ^ x.bits))

/-- A launch description as R291 asks: a well-formed configuration and cores, initial values at mapped addresses only, and an
initial value at every byte of the program text. -/
def Launch.wellFormed (l : Launch) : Bool :=
  l.cfg.wellFormed
    && l.image.all (fun p => l.cfg.memMap.any (fun r => r.contains p.1))
    && l.cfg.memMap.all (fun r => r.kind == .data
        || (List.range r.size).all (fun k => l.image.any (fun p => p.1 == r.base + k)))
    && (l.first :: l.others).all (CoreLaunch.wellFormed l.cfg.variant)

end Sys2Proof
end

