-- ==== Sys2Proof/Decode.lean ====
section
/-! DEFINITION. Decoding (R80 to R98) and, after it, encoding. Decoding is total on all 32-bit words; a word it does not decode is
rejected under the name of the reason R96 gives. -/

namespace Sys2Proof

/-- OPCODE_MAP's default, the table of R92; the numbers of ADDR and ADDI are the manual's. -/
def defaultOpcodeMap : List (Mnemonic × BitVec 7) :=
  [(.addi, 0x00), (.addic, 0x01), (.addr, 0x02), (.addrc, 0x03), (.subi, 0x04), (.subib, 0x05), (.subr, 0x06),
   (.subrb, 0x07), (.mult, 0x08), (.div, 0x09), (.mov, 0x0A), (.addipc, 0x0B), (.addrpc, 0x0C), (.andr, 0x10),
   (.andi, 0x11), (.notr, 0x12), (.noti, 0x13), (.orr, 0x14), (.ori, 0x15), (.xorr, 0x16), (.xori, 0x17),
   (.lls, 0x18), (.lrs, 0x19), (.ars, 0x1A), (.lwr, 0x20), (.swr, 0x21), (.ldr, 0x22), (.sdr, 0x23),
   (.lhr, 0x24), (.shr, 0x25), (.lbr, 0x26), (.sbr, 0x27), (.lwrro, 0x28), (.swrro, 0x29), (.ldrro, 0x2A),
   (.sdrro, 0x2B), (.lhrro, 0x2C), (.shrro, 0x2D), (.lbrro, 0x2E), (.sbrro, 0x2F), (.lwpro, 0x30), (.swpro, 0x31),
   (.ldpro, 0x32), (.sdpro, 0x33), (.lhpro, 0x34), (.shpro, 0x35), (.lbpro, 0x36), (.sbpro, 0x37), (.lwpio, 0x38),
   (.swpio, 0x39), (.ldpio, 0x3A), (.sdpio, 0x3B), (.lhpio, 0x3C), (.shpio, 0x3D), (.lbpio, 0x3E), (.sbpio, 0x3F),
   (.lwp, 0x40), (.swp, 0x41), (.lhp, 0x42), (.shp, 0x43), (.lbp, 0x44), (.sbp, 0x45), (.swap, 0x46),
   (.cas, 0x47), (.jalr, 0x48), (.jwlr, 0x49), (.jali, 0x4A), (.be, 0x50), (.bne, 0x51), (.bgt, 0x52),
   (.bgte, 0x53), (.blt, 0x54), (.blte, 0x55), (.bz, 0x56), (.bnz, 0x57), (.bc, 0x58), (.bo, 0x59),
   (.nop, 0x60), (.wfi, 0x61), (.wfe, 0x62), (.se, 0x63), (.sle, 0x64)]

/-- The configuration of R7's defaults on the variant `x`, with the address map and HALT_PC its launch gives. -/
def Config.default (x : Variant) (memMap : List Region) (haltPc : Word) : Config :=
  { variant := x, bitOrder := .lsb0, opcodeMap := defaultOpcodeMap, immArithExt := .zero, immOffsetExt := .sign,
    loadExt := .zero, divSigned := true, branchCmp := .signed, memMap := memMap, haltPc := haltPc }

/-- The mnemonic an OPCODE stands for, if OPCODE_MAP assigns it (R92). -/
def Config.mnemonicOf (c : Config) (op : BitVec 7) : Option Mnemonic :=
  (c.opcodeMap.find? (fun p => p.2 == op)).map Prod.fst

/-- The OPCODE of a mnemonic (R92). -/
def Config.opcodeOf (c : Config) (m : Mnemonic) : BitVec 7 :=
  ((c.opcodeMap.find? (fun p => p.1 == m)).map Prod.snd).getD 0

/-! ## Byte order (R52, R53) -/

/-- The number a list of bytes stands for, the byte at the lowest address first and least significant (R52). -/
def littleEndian : List Byte → Nat
  | [] => 0
  | b :: bs => b.toNat + 256 * littleEndian bs

/-- The `n` low-order bytes of a number, least significant first (R52). -/
def bytesOf : Nat → Nat → List Byte
  | 0, _ => []
  | n + 1, v => BitVec.ofNat 8 v :: bytesOf n (v / 256)

/-! ## Fields -/

/-- The field of `width` bits the manual draws as `[lo : lo + width - 1]` (R82 to R85). Under `msb0` the manual's bit `k` is
`insn[31 - k]` and only the positions move (R82, D3); log 24. -/
def getField (o : BitOrder) (w : BitVec 32) (lo width : Nat) : BitVec width :=
  match o with
  | .lsb0 => w.extractLsb' lo width
  | .msb0 => w.extractLsb' (32 - lo - width) width

/-- A register field (R90). -/
def getReg (o : BitOrder) (w : BitVec 32) (lo : Nat) : Reg :=
  (getField o w lo 5).toFin

/-- A word that is zero but for one field. -/
def putField (o : BitOrder) (lo : Nat) {width : Nat} (v : BitVec width) : BitVec 32 :=
  match o with
  | .lsb0 => v.setWidth 32 <<< lo
  | .msb0 => v.setWidth 32 <<< (32 - lo - width)

/-- A word that is zero but for one register field. -/
def putReg (o : BitOrder) (lo : Nat) (r : Reg) : BitVec 32 :=
  putField o lo (BitVec.ofFin (w := 5) r)

/-! ## Decoding -/

/-- Why a word is illegal (R96). -/
inductive Illegal where
  /-- Its OPCODE is unassigned. -/
  | unassignedOpcode
  /-- Its SUB is not the row's. -/
  | wrongSub
  /-- A must-be-zero field is not zero (R93). -/
  | nonzeroField
  /-- The instruction is wider than the variant (R98). -/
  | widerThanVariant
  deriving DecidableEq, Repr

/-- R-format with GP_1, GP_2 and GP_DEST (R82); SUB = 0 (R91). -/
def decodeR3 (o : BitOrder) (w : BitVec 32) (k : Reg → Reg → Reg → Instr) : Except Illegal Instr :=
  if getField o w 22 10 ≠ 0 then .error .wrongSub
  else .ok (k (getReg o w 7) (getReg o w 12) (getReg o w 17))

/-- R-format with GP_1 and GP_DEST; GP_2 = 0 (R93). -/
def decodeR2 (o : BitOrder) (w : BitVec 32) (k : Reg → Reg → Instr) : Except Illegal Instr :=
  if getField o w 22 10 ≠ 0 then .error .wrongSub
  else if getField o w 12 5 ≠ 0 then .error .nonzeroField
  else .ok (k (getReg o w 7) (getReg o w 17))

/-- R-format with GP_1 and GP_2, the stores of the form PRO; GP_DEST = 0 (R93). -/
def decodeRStore (o : BitOrder) (w : BitVec 32) (k : Reg → Reg → Instr) : Except Illegal Instr :=
  if getField o w 22 10 ≠ 0 then .error .wrongSub
  else if getField o w 17 5 ≠ 0 then .error .nonzeroField
  else .ok (k (getReg o w 7) (getReg o w 12))

/-- I-format with the fields at 7 and 12 and the immediate (R83); SUB as the row has it (R91, R92). -/
def decodeI (o : BitOrder) (w : BitVec 32) (sub : BitVec 3) (k : Reg → Reg → BitVec 12 → Instr) : Except Illegal Instr :=
  if getField o w 29 3 ≠ sub then .error .wrongSub
  else .ok (k (getReg o w 7) (getReg o w 12) (getField o w 17 12))

/-- I-format with GP_DEST and the immediate; GP_1 = 0 (R93). -/
def decodeIDest (o : BitOrder) (w : BitVec 32) (k : Reg → BitVec 12 → Instr) : Except Illegal Instr :=
  if getField o w 29 3 ≠ 0 then .error .wrongSub
  else if getField o w 7 5 ≠ 0 then .error .nonzeroField
  else .ok (k (getReg o w 12) (getField o w 17 12))

/-- I-format with the data register at 7 and the immediate, the stores of the form PIO; `[12:16]` = 0 (R93). -/
def decodeISource (o : BitOrder) (w : BitVec 32) (k : Reg → BitVec 12 → Instr) : Except Illegal Instr :=
  if getField o w 29 3 ≠ 0 then .error .wrongSub
  else if getField o w 12 5 ≠ 0 then .error .nonzeroField
  else .ok (k (getReg o w 7) (getField o w 17 12))

/-- J-format of JALR: IMMEDIATE = 0 (R84, R93). -/
def decodeJalr (o : BitOrder) (w : BitVec 32) (k : Reg → Reg → Instr) : Except Illegal Instr :=
  if getField o w 17 15 ≠ 0 then .error .nonzeroField
  else .ok (k (getReg o w 7) (getReg o w 12))

/-- J-format of JWLR: GP_DEST = 0 and IMMEDIATE = 0 (R84, R93). -/
def decodeJwlr (o : BitOrder) (w : BitVec 32) (k : Reg → Instr) : Except Illegal Instr :=
  if getField o w 12 5 ≠ 0 ∨ getField o w 17 15 ≠ 0 then .error .nonzeroField
  else .ok (k (getReg o w 7))

/-- J-format of JALI: GP_1 = 0 (R84, R93). -/
def decodeJali (o : BitOrder) (w : BitVec 32) (k : Reg → BitVec 15 → Instr) : Except Illegal Instr :=
  if getField o w 7 5 ≠ 0 then .error .nonzeroField
  else .ok (k (getReg o w 12) (getField o w 17 15))

/-- B-format of the compare-and-branch instructions: SUB = 0 and the unnamed `[7:10]` = 0 (R85, R93). -/
def decodeB (o : BitOrder) (w : BitVec 32) (k : Reg → Reg → Reg → Instr) : Except Illegal Instr :=
  if getField o w 26 6 ≠ 0 then .error .wrongSub
  else if getField o w 7 4 ≠ 0 then .error .nonzeroField
  else .ok (k (getReg o w 11) (getReg o w 16) (getReg o w 21))

/-- B-format of the flag branches: GP_1 = GP_2 = 0 besides (R93). -/
def decodeBFlag (o : BitOrder) (w : BitVec 32) (k : Reg → Instr) : Except Illegal Instr :=
  if getField o w 26 6 ≠ 0 then .error .wrongSub
  else if getField o w 7 4 ≠ 0 ∨ getField o w 11 5 ≠ 0 ∨ getField o w 16 5 ≠ 0 then .error .nonzeroField
  else .ok (k (getReg o w 21))

/-- N-format: every bit above the OPCODE is zero (R86, R93). -/
def decodeN (o : BitOrder) (w : BitVec 32) (i : Instr) : Except Illegal Instr :=
  if getField o w 7 25 ≠ 0 then .error .nonzeroField else .ok i

/-- X-format: the bits above the OPCODE are not interpreted (R86). -/
def decodeX (o : BitOrder) (w : BitVec 32) (k : BitVec 25 → Instr) : Except Illegal Instr :=
  .ok (k (getField o w 7 25))

/-- The fields of a row, by its format and must-be-zero fields (R87, R91, R93). -/
def decodeRow (o : BitOrder) (w : BitVec 32) : Mnemonic → Except Illegal Instr
  | .addi => decodeI o w 0 .addi
  | .addic => decodeI o w 0 .addic
  | .addr => decodeR3 o w .addr
  | .addrc => decodeR3 o w .addrc
  | .subi => decodeI o w 0 .subi
  | .subib => decodeI o w 0 .subib
  | .subr => decodeR3 o w .subr
  | .subrb => decodeR3 o w .subrb
  | .mult => decodeR3 o w .mult
  | .div => decodeR3 o w .div
  | .mov => decodeR2 o w .mov
  | .addipc => decodeIDest o w .addipc
  | .addrpc => decodeR2 o w .addrpc
  | .andr => decodeR3 o w .andr
  | .andi => decodeI o w 0 .andi
  | .notr => decodeR2 o w .notr
  | .noti => decodeIDest o w .noti
  | .orr => decodeR3 o w .orr
  | .ori => decodeI o w 0 .ori
  | .xorr => decodeR3 o w .xorr
  | .xori => decodeI o w 0 .xori
  | .lls => decodeI o w 0 .lls
  | .lrs => decodeI o w 0 .lrs
  | .ars => decodeI o w 0 .ars
  | .lwr => decodeI o w 1 .lwr
  | .swr => decodeI o w 1 .swr
  | .ldr => decodeI o w 1 .ldr
  | .sdr => decodeI o w 1 .sdr
  | .lhr => decodeI o w 2 .lhr
  | .shr => decodeI o w 2 .shr
  | .lbr => decodeI o w 0 .lbr
  | .sbr => decodeI o w 0 .sbr
  | .lwrro => decodeR3 o w .lwrro
  | .swrro => decodeR3 o w .swrro
  | .ldrro => decodeR3 o w .ldrro
  | .sdrro => decodeR3 o w .sdrro
  | .lhrro => decodeR3 o w .lhrro
  | .shrro => decodeR3 o w .shrro
  | .lbrro => decodeR3 o w .lbrro
  | .sbrro => decodeR3 o w .sbrro
  | .lwpro => decodeR2 o w .lwpro
  | .swpro => decodeRStore o w .swpro
  | .ldpro => decodeR2 o w .ldpro
  | .sdpro => decodeRStore o w .sdpro
  | .lhpro => decodeR2 o w .lhpro
  | .shpro => decodeRStore o w .shpro
  | .lbpro => decodeR2 o w .lbpro
  | .sbpro => decodeRStore o w .sbpro
  | .lwpio => decodeIDest o w .lwpio
  | .swpio => decodeISource o w .swpio
  | .ldpio => decodeIDest o w .ldpio
  | .sdpio => decodeISource o w .sdpio
  | .lhpio => decodeIDest o w .lhpio
  | .shpio => decodeISource o w .shpio
  | .lbpio => decodeIDest o w .lbpio
  | .sbpio => decodeISource o w .sbpio
  | .lwp => decodeX o w .lwp
  | .swp => decodeX o w .swp
  | .lhp => decodeX o w .lhp
  | .shp => decodeX o w .shp
  | .lbp => decodeX o w .lbp
  | .sbp => decodeX o w .sbp
  | .swap => decodeR2 o w .swap
  | .cas => decodeX o w .cas
  | .jalr => decodeJalr o w .jalr
  | .jwlr => decodeJwlr o w .jwlr
  | .jali => decodeJali o w .jali
  | .be => decodeB o w .be
  | .bne => decodeB o w .bne
  | .bgt => decodeB o w .bgt
  | .bgte => decodeB o w .bgte
  | .blt => decodeB o w .blt
  | .blte => decodeB o w .blte
  | .bz => decodeBFlag o w .bz
  | .bnz => decodeBFlag o w .bnz
  | .bc => decodeBFlag o w .bc
  | .bo => decodeBFlag o w .bo
  | .nop => decodeN o w .nop
  | .wfi => decodeN o w .wfi
  | .wfe => decodeN o w .wfe
  | .se => decodeN o w .se
  | .sle => decodeN o w .sle

/-- Decoding (R95): the row whose OPCODE, SUB and must-be-zero fields the word has, if the instruction exists on the variant. -/
def decode (c : Config) (w : BitVec 32) : Except Illegal Instr :=
  match c.mnemonicOf (getField c.bitOrder w 0 7) with
  | none => .error .unassignedOpcode
  | some m =>
    if m.minXlen ≤ c.variant.bits then decodeRow c.bitOrder w m else .error .widerThanVariant

/-! ## Encoding -/

/-- A word of the R-format with SUB = 0 (R82). -/
def wordR (o : BitOrder) (op : BitVec 7) (gp1 gp2 dest : Reg) : BitVec 32 :=
  putField o 0 op ||| putReg o 7 gp1 ||| putReg o 12 gp2 ||| putReg o 17 dest

/-- A word of the I-format (R83). -/
def wordI (o : BitOrder) (op : BitVec 7) (gp1 dest : Reg) (imm : BitVec 12) (sub : BitVec 3) : BitVec 32 :=
  putField o 0 op ||| putReg o 7 gp1 ||| putReg o 12 dest ||| putField o 17 imm ||| putField o 29 sub

/-- A word of the J-format (R84). -/
def wordJ (o : BitOrder) (op : BitVec 7) (gp1 dest : Reg) (imm : BitVec 15) : BitVec 32 :=
  putField o 0 op ||| putReg o 7 gp1 ||| putReg o 12 dest ||| putField o 17 imm

/-- A word of the B-format with SUB = 0 (R85). -/
def wordB (o : BitOrder) (op : BitVec 7) (gp1 gp2 gp3 : Reg) : BitVec 32 :=
  putField o 0 op ||| putReg o 11 gp1 ||| putReg o 16 gp2 ||| putReg o 21 gp3

/-- A word of the X-format, or of the N-format when `rest` is 0 (R86). -/
def wordX (o : BitOrder) (op : BitVec 7) (rest : BitVec 25) : BitVec 32 :=
  putField o 0 op ||| putField o 7 rest

/-- The fields of an instruction in its format, under the OPCODE `op` (R82 to R87). -/
def encodeRow (o : BitOrder) (op : BitVec 7) : Instr → BitVec 32
  | .addi a d imm => wordI o op a d imm 0
  | .addic a d imm => wordI o op a d imm 0
  | .addr a b d => wordR o op a b d
  | .addrc a b d => wordR o op a b d
  | .subi a d imm => wordI o op a d imm 0
  | .subib a d imm => wordI o op a d imm 0
  | .subr a b d => wordR o op a b d
  | .subrb a b d => wordR o op a b d
  | .mult a b d => wordR o op a b d
  | .div a b d => wordR o op a b d
  | .mov a d => wordR o op a 0 d
  | .addipc d imm => wordI o op 0 d imm 0
  | .addrpc a d => wordR o op a 0 d
  | .andr a b d => wordR o op a b d
  | .andi a d imm => wordI o op a d imm 0
  | .notr a d => wordR o op a 0 d
  | .noti d imm => wordI o op 0 d imm 0
  | .orr a b d => wordR o op a b d
  | .ori a d imm => wordI o op a d imm 0
  | .xorr a b d => wordR o op a b d
  | .xori a d imm => wordI o op a d imm 0
  | .lls a d imm => wordI o op a d imm 0
  | .lrs a d imm => wordI o op a d imm 0
  | .ars a d imm => wordI o op a d imm 0
  | .lwr base d imm => wordI o op base d imm 1
  | .swr data base imm => wordI o op data base imm 1
  | .ldr base d imm => wordI o op base d imm 1
  | .sdr data base imm => wordI o op data base imm 1
  | .lhr base d imm => wordI o op base d imm 2
  | .shr data base imm => wordI o op data base imm 2
  | .lbr base d imm => wordI o op base d imm 0
  | .sbr data base imm => wordI o op data base imm 0
  | .lwrro base off d => wordR o op base off d
  | .swrro data base off => wordR o op data base off
  | .ldrro base off d => wordR o op base off d
  | .sdrro data base off => wordR o op data base off
  | .lhrro base off d => wordR o op base off d
  | .shrro data base off => wordR o op data base off
  | .lbrro base off d => wordR o op base off d
  | .sbrro data base off => wordR o op data base off
  | .lwpro off d => wordR o op off 0 d
  | .swpro data off => wordR o op data off 0
  | .ldpro off d => wordR o op off 0 d
  | .sdpro data off => wordR o op data off 0
  | .lhpro off d => wordR o op off 0 d
  | .shpro data off => wordR o op data off 0
  | .lbpro off d => wordR o op off 0 d
  | .sbpro data off => wordR o op data off 0
  | .lwpio d imm => wordI o op 0 d imm 0
  | .swpio data imm => wordI o op data 0 imm 0
  | .ldpio d imm => wordI o op 0 d imm 0
  | .sdpio data imm => wordI o op data 0 imm 0
  | .lhpio d imm => wordI o op 0 d imm 0
  | .shpio data imm => wordI o op data 0 imm 0
  | .lbpio d imm => wordI o op 0 d imm 0
  | .sbpio data imm => wordI o op data 0 imm 0
  | .lwp rest => wordX o op rest
  | .swp rest => wordX o op rest
  | .lhp rest => wordX o op rest
  | .shp rest => wordX o op rest
  | .lbp rest => wordX o op rest
  | .sbp rest => wordX o op rest
  | .swap a d => wordR o op a 0 d
  | .cas rest => wordX o op rest
  | .jalr a d => wordJ o op a d 0
  | .jwlr a => wordJ o op a 0 0
  | .jali d imm => wordJ o op 0 d imm
  | .be a b t => wordB o op a b t
  | .bne a b t => wordB o op a b t
  | .bgt a b t => wordB o op a b t
  | .bgte a b t => wordB o op a b t
  | .blt a b t => wordB o op a b t
  | .blte a b t => wordB o op a b t
  | .bz t => wordB o op 0 0 t
  | .bnz t => wordB o op 0 0 t
  | .bc t => wordB o op 0 0 t
  | .bo t => wordB o op 0 0 t
  | .nop => wordX o op 0
  | .wfi => wordX o op 0
  | .wfe => wordX o op 0
  | .se => wordX o op 0
  | .sle => wordX o op 0

/-- The instruction word of an instruction under a configuration (R82 to R94). -/
def encode (c : Config) (i : Instr) : BitVec 32 :=
  encodeRow c.bitOrder (c.opcodeOf i.mnemonic) i

/-! ## One word of the opcode table -/

/-- The configuration whose decoder `decodeTableWord` asks: R7's defaults, on the widest variant, on which every row exists. -/
def tableConfig : Config :=
  Config.default .x128 [] 0

/-- The instruction the decoder reads from the bits `w` of a row to which the table gives `nbits` bits: the four bytes as memory
holds them (R52, R53), assembled and decoded. -/
def decodeTableWord (nbits w : Nat) : Option Instr :=
  (decode tableConfig (BitVec.ofNat 32 (littleEndian (bytesOf 4 (w % 2 ^ nbits))))).toOption

end Sys2Proof
end

