-- ==== Sys2Proof/Machine/Memory.lean ====
section
/-! DEFINITION. The memory as a list of (address, byte) pairs in one canonical form (R50, R66). -/

namespace Sys2Proof.Machine

/-- The bytes that hold a value, addresses strictly rising. -/
abbrev Memory := List Host.Cell

/-- What an unlisted address reads as: no value (R66: "each with an initial byte value or no value"); log 3. -/
def Memory.unlisted : Option Byte := none

/-- The byte at an address, if it holds a value. -/
def Memory.read : Memory → Nat → Option Byte
  | [], _ => Memory.unlisted
  | (k, v) :: rest, a =>
    if a = k then some v else if a < k then Memory.unlisted else Memory.read rest a

/-- A byte stored at an address, in its place. -/
def Memory.write : Memory → Nat → Byte → Memory
  | [], a, b => [(a, b)]
  | (k, v) :: rest, a, b =>
    if a < k then (a, b) :: (k, v) :: rest
    else if a = k then (a, b) :: rest
    else (k, v) :: Memory.write rest a b

/-- The canonical form: addresses strictly rising. No entry can equal what an unlisted address reads as, an entry being a byte. -/
def Memory.wf : Memory → Bool
  | [] => true
  | [_] => true
  | (a, _) :: (b, v) :: rest => decide (a < b) && Memory.wf ((b, v) :: rest)

/-- Bytes stored one by one at a list of addresses. -/
def Memory.writeAll (m : Memory) (cells : List Host.Cell) : Memory :=
  cells.foldl (fun m p => Memory.write m p.1 p.2) m

end Sys2Proof.Machine
end

