-- ==== Sys2Proof/Machine/Schedule.lean ====
section
/-! DEFINITION. The choice of the core that takes the next step (R70, R298). -/

namespace Sys2Proof.Machine

/-- The list in the order that begins with its `k`-th element and ends with the one before it. -/
def rotate {α : Type} (cores : List α) (k : Nat) : List α :=
  cores.drop k ++ cores.take k

/-- The core that moves next and the others, among `c :: cs`, as the number `k` decides: every core is some number's choice (R298). -/
def chooseNext {α : Type} (c : α) (cs : List α) (k : Nat) : α × List α :=
  match rotate (c :: cs) (k % (cs.length + 1)) with
  | [] => (c, cs)
  | d :: ds => (d, ds)

end Sys2Proof.Machine
end

