-- ==== Sys2Proof/Machine/State.lean ====
section
/-! DEFINITION. State as plain data, the reasons a step can stop, and the state after reset. -/

namespace Sys2Proof.Machine

/-- The FLAGS register: Carry, Overflow, Zero, Condition (R28, R29). The manual gives no layout and no instruction that reads or
writes FLAGS as a whole, so there is no FLAGS word (R28). -/
structure Flags where
  /-- Carry (R30). -/
  c : Bool
  /-- Overflow (R31). -/
  v : Bool
  /-- Zero (R32). -/
  z : Bool
  /-- Condition: no instruction reads or writes it (R33). -/
  k : Bool
  deriving DecidableEq, Repr

/-- One processing core (R20). -/
structure Core where
  /-- The program counter (R25). -/
  pc : Word
  /-- The general purpose registers GP[0] to GP[31] (R21). -/
  gp : Vector Word 32
  /-- FLAGS (R28). -/
  flags : Flags
  /-- The model's own: the input `irq` the environment gives at this core's next WFI step (R238). -/
  irqIn : Bool
  /-- The model's own: the input `event` the environment gives at this core's next WFE step (R239, R240). -/
  eventIn : Bool
  deriving DecidableEq, Repr

/-- The machine: the launch parameters, which no step changes (R291), the cores, and the one memory they share (R20, R50). -/
structure State where
  /-- The parameters of the run (R7). -/
  cfg : Config
  /-- The core whose turn it is. -/
  core : Core
  /-- The other cores; none when NUM_CORES is 1 (R283). -/
  others : List Core
  /-- The bytes of memory that hold a value, by address, addresses strictly rising; an address not listed holds no value (R66). -/
  mem : Memory
  /-- The model's own: how many free values have been drawn. -/
  draws : Nat
  deriving DecidableEq, Repr

/-- The five exceptions the manual names, in the order of R261, with the information R260 says they carry. -/
inductive Exception where
  /-- Raised by the fetch when `pc` is not a multiple of 4 (R262). -/
  | instructionMisaligned (pc : Word)
  /-- Raised by the decode of a word that is no instruction of this variant (R263). -/
  | illegalInstruction (insn : BitVec 32) (pc : Word)
  /-- Raised by a load, store or SWAP whose effective address is not a multiple of the access size (R264). -/
  | misalignedAddress (ea : Word)
  /-- Raised by a taken conditional branch whose target is not a multiple of 4 (R265). -/
  | branchAddressMisaligned (target : Word)
  /-- Named by the manual under BE without a condition; no rule raises it (R266). -/
  | higherPrivelegeNeeded
  deriving DecidableEq, Repr

/-- The terminal faults of R267 and R270. -/
inductive Fault where
  /-- An exception of the manual: raised by the instruction or fetch its constructor names. The spec makes it terminal (R270); safe:
  nothing is said of what a chip does next. -/
  | raised (e : Exception)
  /-- Raised by a fetch, load, store or SWAP of `n` bytes that touches an address outside MEM_MAP (R66, R267). Safe: the manual
  gives such an access no meaning. -/
  | accessFault (addr : Word) (n : Nat)
  /-- Raised by a fetch, load or SWAP that reads the mapped byte at `addr`, which holds no value (R66, R267). Safe. -/
  | readOfUnwritten (addr : Nat)
  deriving DecidableEq, Repr

/-- The refusals of R267 and R272: the model gives the step no meaning and no claim is made about the run. -/
inductive Refusal where
  /-- An arm of `exec` that has no meaning yet. Safe. -/
  | notModelled (mnemonic : String)
  /-- Raised by a store or SWAP into the program text (R56, R68). Safe. -/
  | storeToProgramText
  /-- Raised by a fetch from mapped addresses outside the program text (R68). Safe. -/
  | fetchOutsideProgramText
  /-- Raised by the instructions the manual names and does not describe (R196 to R203). Safe. -/
  | noSemantics (m : Mnemonic)
  deriving DecidableEq, Repr

/-- The outcome of a step of this machine. -/
abbrev Out := Host.Outcome State Fault Refusal

/-- A step that stops without a next state. -/
inductive Stop where
  | fault (f : Fault)
  | refuse (r : Refusal)
  deriving DecidableEq, Repr

/-- A stop as an outcome. -/
def Stop.outcome : Stop → Out
  | .fault f => .fault f
  | .refuse r => .refused r

/-! ## Launch and reset -/

/-- FLAGS with one flag given a first value. -/
def Flags.assign (f : Flags) : FlagName × Bool → Flags
  | (.carry, b) => { f with c := b }
  | (.overflow, b) => { f with v := b }
  | (.zero, b) => { f with z := b }
  | (.condition, b) => { f with k := b }

/-- A core at launch (R290, R291): `pc` at RESET_PC, the registers and flags it is given, zero in the others (log 1, log 2), and the
inputs the environment gives it first (log 5). -/
def Core.launch (l : CoreLaunch) : Core :=
  { pc := l.resetPc
    gp := l.registers.foldl (fun g p => g.set p.1 p.2) (Vector.replicate 32 0)
    flags := l.flags.foldl Flags.assign { c := false, v := false, z := false, k := false }
    irqIn := l.irq
    eventIn := l.event }

/-- The first state of a run (R290, R291); any of the cores may be the one that takes the first step (R298, log 13). -/
def State.launch (l : Launch) : State :=
  { cfg := l.cfg
    core := Core.launch (chooseNext l.first l.others l.turn).1
    others := (chooseNext l.first l.others l.turn).2.map Core.launch
    mem := Memory.writeAll [] l.image
    draws := 0 }

/-- The launch of `State.reset`: one core on the 128-bit variant (log 7) under R7's defaults, RESET_PC 0x1000 (log 8), HALT_PC
`2^128 - 1` (log 9), the whole address space existing as data with no value and no program text (log 10); the first inputs `irq` and
`event` are free values (log 5). -/
def defaultLaunch : Launch :=
  { cfg := Config.default .x128 [{ base := 0, size := 2 ^ 128, kind := .data }] (BitVec.allOnes 128)
    image := []
    first := { resetPc := 0x1000, registers := [], flags := [], irq := Config.firstIrq, event := Config.firstEvent }
    others := []
    turn := 0 }

/-- The machine after reset (R39, R290). -/
def State.reset : State :=
  State.launch defaultLaunch

end Sys2Proof.Machine
end

