-- ==== Sys2Proof/Machine/Operands.lean ====
section
/-! DEFINITION. What an instruction reads: registers, the program counter, and the four effective addresses. -/

namespace Sys2Proof.Machine

/-- `x[i]`: the value of GP[i], XLEN bits (R11, R21). -/
def State.x (s : State) (i : Reg) : Word :=
  fit s.cfg.variant s.core.gp[i]

/-- `pc`: the address of the instruction being executed (R11, R25). -/
def State.pc (s : State) : Word :=
  fit s.cfg.variant s.core.pc

/-- `trunc_XLEN(u(a) + u(b))`, address arithmetic (R63). -/
def addWrap (x : Variant) (a b : Word) : Word :=
  trunc x (a.toNat + b.toNat)

/-- EA of the tail R: base register plus immediate offset (R155). -/
def State.eaBaseImm (s : State) (base : Reg) (imm : BitVec 12) : Word :=
  addWrap s.cfg.variant (s.x base) (extOff s.cfg imm)

/-- EA of the tail RRO: base register plus register offset (R155). -/
def State.eaBaseReg (s : State) (base off : Reg) : Word :=
  addWrap s.cfg.variant (s.x base) (s.x off)

/-- EA of the tail PRO: program counter plus register offset (R155). -/
def State.eaPcReg (s : State) (off : Reg) : Word :=
  addWrap s.cfg.variant s.pc (s.x off)

/-- EA of the tail PIO: program counter plus immediate offset (R155). -/
def State.eaPcImm (s : State) (imm : BitVec 12) : Word :=
  addWrap s.cfg.variant s.pc (extOff s.cfg imm)

/-- `pc + 4`: the next instruction in sequence, and the link value of JALR and JALI (R27, R213, R215). -/
def State.pcNext (s : State) : Word :=
  trunc s.cfg.variant (s.pc.toNat + 4)

/-- The addresses `a_i = trunc_XLEN(u(addr) + i)`, `i = 0 .. n-1`, of an access (R55). -/
def byteAddresses (x : Variant) (addr : Word) (n : Nat) : List Nat :=
  (List.range n).map (fun i => (addr.toNat + i) % 2 ^ x.bits)

end Sys2Proof.Machine
end

