-- ==== Sys2Proof/Machine/Ops.lean ====
section
/-! DEFINITION. The named operations over registers, memory and cores that the meanings share. -/

namespace Sys2Proof.Machine

/-! ## Stopping -/

/-- Taking an exception, `raise E(info)`: the instruction makes none of its writes and the core takes no further step; no state is
saved, no mode changes and control goes nowhere (R270, D25). There is no return from an exception (R273). -/
def raise (e : Exception) : Out :=
  .fault (.raised e)

/-- `refuse(reason)` (R272). -/
def refuse (r : Refusal) : Out :=
  .refused r

/-- The outcome of an operation that stops or gives a value. -/
def andThen {α : Type} (r : Except Stop α) (k : α → Out) : Out :=
  match r with
  | .error stop => stop.outcome
  | .ok v => k v

/-- A change made to the next state, if there is one. -/
def onNext (o : Out) (f : State → State) : Out :=
  match o with
  | .next s => .next (f s)
  | .fault r => .fault r
  | .refused r => .refused r

/-! ## Writing registers, flags and the program counter -/

/-- `x[i] <- v` (R11). -/
def State.setX (s : State) (i : Reg) (v : Word) : State :=
  { s with core := { s.core with gp := s.core.gp.set i v } }

/-- `pc <- t` (R11). -/
def State.setPc (s : State) (t : Word) : State :=
  { s with core := { s.core with pc := t } }

/-- The implicit `pc <- trunc_XLEN(u(pc) + 4)` of an instruction that does not assign `pc` (R27). -/
def State.advance (s : State) : State :=
  s.setPc s.pcNext

/-- The destination and the flags C, V, Z of an add or subtract, written together; K is not touched (R110). -/
def State.writeSum (s : State) (d : Reg) (r : Sum) : State :=
  { s with core := { s.core with
      gp := s.core.gp.set d r.value
      flags := { s.core.flags with c := r.c, v := r.v, z := r.z } } }

/-- One more free value drawn. -/
def State.draw (s : State) : State :=
  { s with draws := s.draws + 1 }

/-! ## Memory -/

/-- The address is in MEM_MAP (R66). -/
def State.mapped (s : State) (a : Nat) : Bool :=
  s.cfg.memMap.any (fun r => r.contains a)

/-- The address is in the program text (R68). -/
def State.inText (s : State) (a : Nat) : Bool :=
  s.cfg.memMap.any (fun r => r.kind == .text && r.contains a)

/-- The byte at an address, if it holds a value. -/
def State.byte (s : State) (a : Nat) : Option Byte :=
  Memory.read s.mem a

/-- The bytes of an access, in address order. -/
def State.addresses (s : State) (addr : Word) (n : Nat) : List Nat :=
  byteAddresses s.cfg.variant addr n

/-- `MemRead(addr, n)` (R55, R66): AccessFault before ReadOfUnwritten (R158); the fault names the lowest byte without a value. -/
def State.memRead (s : State) (addr : Word) (n : Nat) : Except Stop Word :=
  if (s.addresses addr n).all s.mapped then
    match (s.addresses addr n).find? (fun a => (s.byte a).isNone) with
    | some a => .error (.fault (.readOfUnwritten a))
    | none => .ok (BitVec.ofNat 128 (littleEndian ((s.addresses addr n).map (fun a => (s.byte a).getD 0))))
  else .error (.fault (.accessFault addr n))

/-- The memory with the `n` low-order bytes of `v` stored little-endian from `addr` on (R52, R56). -/
def State.storeBytes (s : State) (addr : Word) (n : Nat) (v : Word) : State :=
  { s with mem := Memory.writeAll s.mem ((s.addresses addr n).zip (bytesOf n v.toNat)) }

/-- `MemWrite(addr, n, v)` (R56): AccessFault before StoreToProgramText (R158), and no byte written in either case. -/
def State.memWrite (s : State) (addr : Word) (n : Nat) (v : Word) : Except Stop State :=
  if (s.addresses addr n).all s.mapped then
    if (s.addresses addr n).any s.inText then .error (.refuse .storeToProgramText)
    else .ok (s.storeBytes addr n v)
  else .error (.fault (.accessFault addr n))

/-- `Load(dest, EA, n)` (R156). -/
def load (s : State) (d : Reg) (ea : Word) (n : Nat) : Out :=
  if ea.toNat % n ≠ 0 then raise (.misalignedAddress ea)
  else andThen (s.memRead ea n) (fun v => .next (s.setX d (extLoad s.cfg n v)).advance)

/-- `Store(data, EA, n)` (R157). -/
def store (s : State) (data : Reg) (ea : Word) (n : Nat) : Out :=
  if ea.toNat % n ≠ 0 then raise (.misalignedAddress ea)
  else andThen (s.memWrite ea n (s.x data)) (fun t => .next t.advance)

/-- The exchange of SWAP (R204): alignment, the read, the write, then the register, as one step. -/
def exchange (s : State) (d : Reg) (ea : Word) (n : Nat) : Out :=
  if ea.toNat % n ≠ 0 then raise (.misalignedAddress ea)
  else andThen (s.memRead ea n) (fun old =>
    andThen (s.memWrite ea n (s.x d)) (fun t => .next (t.setX d old).advance))

/-! ## Control transfer -/

/-- The ending of a conditional branch (R211, R216): the target register is examined only when the branch is taken. -/
def branch (s : State) (taken : Bool) (t : Reg) : Out :=
  if taken then
    if (s.x t).toNat % 4 ≠ 0 then raise (.branchAddressMisaligned (s.x t))
    else .next (s.setPc (s.x t))
  else .next s.advance

/-! ## Fetch (R75) -/

/-- A core has ended: its `pc` is HALT_PC (R296). -/
def State.ended (s : State) (c : Core) : Bool :=
  fit s.cfg.variant c.pc == fit s.cfg.variant s.cfg.haltPc

/-- Steps (2) to (4) of R75 at an address: alignment, the program text, the read of the instruction word. DESIGN CHOICE (log 26): where
one of the four bytes is not in MEM_MAP and another is mapped outside the program text, R75 (3) and R269 (2) name AccessFault and
FetchOutsideProgramText in no order; the model puts AccessFault first. -/
def State.fetchAt (s : State) (pc : Word) : Except Stop (BitVec 32) :=
  if pc.toNat % 4 ≠ 0 then .error (.fault (.raised (.instructionMisaligned pc)))
  else if (s.addresses pc 4).all s.mapped then
    if (s.addresses pc 4).all s.inText then (s.memRead pc 4).map (fun v => v.setWidth 32)
    else .error (.refuse .fetchOutsideProgramText)
  else .error (.fault (.accessFault pc 4))

/-- The fetch of the core whose turn it is. -/
def State.fetch (s : State) : Except Stop (BitVec 32) :=
  s.fetchAt s.pc

/-! ## Several cores -/

/-- A core that has not ended stands at a WFE: the word at its `pc` is fetched and decodes to WFE (R239, R240). -/
def State.atWfe (s : State) (c : Core) : Bool :=
  !s.ended c &&
    (match s.fetchAt (fit s.cfg.variant c.pc) with
      | .ok w => match decode s.cfg w with
        | .ok .wfe => true
        | _ => false
      | .error _ => false)

/-- SE's effect on every other core whose `pc` is at a WFE: its next step has `event = true` (R240). -/
def State.sendEvent (s : State) : State :=
  { s with others := s.others.map (fun c => if s.atWfe c then { c with eventIn := true } else c) }

/-- Which core moves next (R70, R298): with one core, that core; with several, a free choice among them (log 13). -/
def State.handOver (s : State) : State :=
  match s.others with
  | [] => s
  | _ :: _ =>
    { s with
      core := (chooseNext s.core s.others (Config.freeTurn s.draws)).1
      others := (chooseNext s.core s.others (Config.freeTurn s.draws)).2
      draws := s.draws + 1 }

/-! ## Placing program text -/

/-- Four bytes placed at an address as program text: the part of a launch that `State.withFetchWord` stands for (R291, log 11). -/
def State.placeText (s : State) (addr : Word) (word : Nat) : State :=
  { s with
    cfg := { s.cfg with memMap := { base := addr.toNat, size := 4, kind := .text } :: s.cfg.memMap }
    mem := Memory.writeAll s.mem ((s.addresses addr 4).zip (bytesOf 4 word)) }

end Sys2Proof.Machine
end

