-- ==== Sys2Proof/Machine/AddressCalc.lean ====
section
/-! DEFINITION. The meanings of the address calculation instructions (41_address_calculation.md). -/

namespace Sys2Proof.Machine

/-- ADDIPC (R130): the instruction's own address plus the immediate offset. -/
def execAddipc (d : Reg) (imm : BitVec 12) (s : State) : Out :=
  .next (s.setX d (addWrap s.cfg.variant s.pc (extOff s.cfg imm))).advance

/-- ADDRPC (R131): the instruction's own address plus a register. -/
def execAddrpc (a d : Reg) (s : State) : Out :=
  .next (s.setX d (addWrap s.cfg.variant s.pc (s.x a))).advance

end Sys2Proof.Machine
end

