-- ==== Sys2Proof/Machine/Arithmetic.lean ====
section
/-! DEFINITION. The meanings of the integer arithmetic instructions (40_integer_arithmetic.md). -/

namespace Sys2Proof.Machine

/-- ADDR (R111). -/
def execAddr (a b d : Reg) (s : State) : Out :=
  .next (s.writeSum d (addFlags s.cfg.variant (s.x a) (s.x b) false)).advance

/-- ADDI (R112). -/
def execAddi (a d : Reg) (imm : BitVec 12) (s : State) : Out :=
  .next (s.writeSum d (addFlags s.cfg.variant (s.x a) (extArith s.cfg imm) false)).advance

/-- ADDRC (R113): the Carry flag is added, read before it is written. -/
def execAddrc (a b d : Reg) (s : State) : Out :=
  .next (s.writeSum d (addFlags s.cfg.variant (s.x a) (s.x b) s.core.flags.c)).advance

/-- ADDIC (R114). -/
def execAddic (a d : Reg) (imm : BitVec 12) (s : State) : Out :=
  .next (s.writeSum d (addFlags s.cfg.variant (s.x a) (extArith s.cfg imm) s.core.flags.c)).advance

/-- SUBR (R115): GP_1 minus GP_2. -/
def execSubr (a b d : Reg) (s : State) : Out :=
  .next (s.writeSum d (subFlags s.cfg.variant (s.x a) (s.x b) false)).advance

/-- SUBI (R116). -/
def execSubi (a d : Reg) (imm : BitVec 12) (s : State) : Out :=
  .next (s.writeSum d (subFlags s.cfg.variant (s.x a) (extArith s.cfg imm) false)).advance

/-- SUBRB (R117): the Carry flag is the borrow in. -/
def execSubrb (a b d : Reg) (s : State) : Out :=
  .next (s.writeSum d (subFlags s.cfg.variant (s.x a) (s.x b) s.core.flags.c)).advance

/-- SUBIB (R118). -/
def execSubib (a d : Reg) (imm : BitVec 12) (s : State) : Out :=
  .next (s.writeSum d (subFlags s.cfg.variant (s.x a) (extArith s.cfg imm) s.core.flags.c)).advance

/-- MULT (R119): the low XLEN bits of the product; no flag. -/
def execMult (a b d : Reg) (s : State) : Out :=
  .next (s.setX d (trunc s.cfg.variant ((s.x a).toNat * (s.x b).toNat))).advance

/-- DIV (R120): no flag. Where the spec gives no result the destination receives a free value and the instruction completes, which
is the alternative of U4 (log 4). -/
def execDiv (a b d : Reg) (s : State) : Out :=
  match quotient s.cfg (s.x a) (s.x b) with
  | some q => .next (s.setX d q).advance
  | none => .next (s.setX d (fit s.cfg.variant (Config.freeQuotient s.draws (s.x a) (s.x b)))).draw.advance

/-- MOV (R121): no flag. -/
def execMov (a d : Reg) (s : State) : Out :=
  .next (s.setX d (s.x a)).advance

end Sys2Proof.Machine
end

