-- ==== Sys2Proof/Machine/Branches.lean ====
section
/-! DEFINITION. The meanings of the jumps and conditional branches (44_jumps_branches.md). None reads or writes a flag but the four
that test one, and none writes one (R210). -/

namespace Sys2Proof.Machine

/-! ## Jumps: the target is not checked (R212) -/

/-- JALR (R213): the target is read before the link is written. -/
def execJalr (a d : Reg) (s : State) : Out :=
  .next ((s.setX d s.pcNext).setPc (s.x a))

/-- JWLR (R214). -/
def execJwlr (a : Reg) (s : State) : Out :=
  .next (s.setPc (s.x a))

/-- JALI (R215): relative to the JALI's own address, the offset in bytes. -/
def execJali (d : Reg) (imm : BitVec 15) (s : State) : Out :=
  .next ((s.setX d s.pcNext).setPc (addWrap s.cfg.variant s.pc (extOffJump s.cfg imm)))

/-! ## Compare and branch (R216) -/

/-- BE (R217). -/
def execBe (a b t : Reg) (s : State) : Out :=
  branch s (s.x a == s.x b) t

/-- BNE (R218). -/
def execBne (a b t : Reg) (s : State) : Out :=
  branch s (!(s.x a == s.x b)) t

/-- BGT (R219). -/
def execBgt (a b t : Reg) (s : State) : Out :=
  branch s (less s.cfg (s.x b) (s.x a)) t

/-- BGTE (R220). -/
def execBgte (a b t : Reg) (s : State) : Out :=
  branch s (!less s.cfg (s.x a) (s.x b)) t

/-- BLT (R221). -/
def execBlt (a b t : Reg) (s : State) : Out :=
  branch s (less s.cfg (s.x a) (s.x b)) t

/-- BLTE (R222). -/
def execBlte (a b t : Reg) (s : State) : Out :=
  branch s (!less s.cfg (s.x b) (s.x a)) t

/-! ## Branch on a flag -/

/-- BZ (R223). -/
def execBz (t : Reg) (s : State) : Out :=
  branch s s.core.flags.z t

/-- BNZ (R224). -/
def execBnz (t : Reg) (s : State) : Out :=
  branch s (!s.core.flags.z) t

/-- BC (R225). -/
def execBc (t : Reg) (s : State) : Out :=
  branch s s.core.flags.c t

/-- BO (R226). -/
def execBo (t : Reg) (s : State) : Out :=
  branch s s.core.flags.v t

end Sys2Proof.Machine
end

