-- ==== Sys2Proof/Machine/Hints.lean ====
section
/-! DEFINITION. The meanings of the hints (45_hints_system.md). None touches a register, a flag or memory (R235). -/

namespace Sys2Proof.Machine

/-- NOP (R237). -/
def execNop (s : State) : Out :=
  .next s.advance

/-- The input `irq` of this core is consumed, and the environment's next one, a free value, takes its place (R238, log 5). -/
def State.takeIrq (s : State) : State :=
  { s with core := { s.core with irqIn := Config.freeIrq s.draws }, draws := s.draws + 1 }

/-- The input `event` of this core is consumed, and the environment's next one, a free value, takes its place (R239, log 5). -/
def State.takeEvent (s : State) : State :=
  { s with core := { s.core with eventIn := Config.freeEvent s.draws }, draws := s.draws + 1 }

/-- WFI (R238): with the input `irq` it retires, without it the core waits, `pc` staying at the WFI. -/
def execWfi (s : State) : Out :=
  .next (if s.core.irqIn then s.takeIrq.advance else s.takeIrq)

/-- WFE (R239): with the input `event` it retires, without it the core waits. -/
def execWfe (s : State) : Out :=
  .next (if s.core.eventIn then s.takeEvent.advance else s.takeEvent)

/-- SE (R240): every other core at a WFE has `event = true` at its next step. -/
def execSe (s : State) : Out :=
  .next s.sendEvent.advance

/-- SLE (R241): the executing core is not waiting and no event is latched, so only `pc` advances. -/
def execSle (s : State) : Out :=
  .next s.advance

end Sys2Proof.Machine
end

