-- ==== Sys2Proof/Machine/LoadStore.lean ====
section
/-! DEFINITION. The meanings of the load and store instructions, of the pair instructions, of SWAP and of CAS (43_load_store.md). -/

namespace Sys2Proof.Machine

/-! ## Base register plus immediate offset (R160 to R167) -/

/-- LWR (R160): loads a word. -/
def execLwr (base d : Reg) (imm : BitVec 12) (s : State) : Out :=
  load s d (s.eaBaseImm base imm) 8

/-- SWR (R161): stores a word. -/
def execSwr (data base : Reg) (imm : BitVec 12) (s : State) : Out :=
  store s data (s.eaBaseImm base imm) 8

/-- LDR (R162): loads a doubleword. -/
def execLdr (base d : Reg) (imm : BitVec 12) (s : State) : Out :=
  load s d (s.eaBaseImm base imm) 16

/-- SDR (R163): stores a doubleword. -/
def execSdr (data base : Reg) (imm : BitVec 12) (s : State) : Out :=
  store s data (s.eaBaseImm base imm) 16

/-- LHR (R164): loads a halfword. -/
def execLhr (base d : Reg) (imm : BitVec 12) (s : State) : Out :=
  load s d (s.eaBaseImm base imm) 4

/-- SHR (R165): stores a halfword. -/
def execShr (data base : Reg) (imm : BitVec 12) (s : State) : Out :=
  store s data (s.eaBaseImm base imm) 4

/-- LBR (R166): loads a byte. -/
def execLbr (base d : Reg) (imm : BitVec 12) (s : State) : Out :=
  load s d (s.eaBaseImm base imm) 1

/-- SBR (R167): stores a byte. -/
def execSbr (data base : Reg) (imm : BitVec 12) (s : State) : Out :=
  store s data (s.eaBaseImm base imm) 1

/-! ## Base register plus register offset (R168 to R175) -/

/-- LWRRO (R168): loads a word. -/
def execLwrro (base off d : Reg) (s : State) : Out :=
  load s d (s.eaBaseReg base off) 8

/-- SWRRO (R169): stores a word. -/
def execSwrro (data base off : Reg) (s : State) : Out :=
  store s data (s.eaBaseReg base off) 8

/-- LDRRO (R170): loads a doubleword. -/
def execLdrro (base off d : Reg) (s : State) : Out :=
  load s d (s.eaBaseReg base off) 16

/-- SDRRO (R171): stores a doubleword. -/
def execSdrro (data base off : Reg) (s : State) : Out :=
  store s data (s.eaBaseReg base off) 16

/-- LHRRO (R172): loads a halfword. -/
def execLhrro (base off d : Reg) (s : State) : Out :=
  load s d (s.eaBaseReg base off) 4

/-- SHRRO (R173): stores a halfword. -/
def execShrro (data base off : Reg) (s : State) : Out :=
  store s data (s.eaBaseReg base off) 4

/-- LBRRO (R174): loads a byte. -/
def execLbrro (base off d : Reg) (s : State) : Out :=
  load s d (s.eaBaseReg base off) 1

/-- SBRRO (R175): stores a byte. -/
def execSbrro (data base off : Reg) (s : State) : Out :=
  store s data (s.eaBaseReg base off) 1

/-! ## Program counter plus register offset (R176 to R183) -/

/-- LWPRO (R176): loads a word. -/
def execLwpro (off d : Reg) (s : State) : Out :=
  load s d (s.eaPcReg off) 8

/-- SWPRO (R177): stores a word. -/
def execSwpro (data off : Reg) (s : State) : Out :=
  store s data (s.eaPcReg off) 8

/-- LDPRO (R178): loads a doubleword. -/
def execLdpro (off d : Reg) (s : State) : Out :=
  load s d (s.eaPcReg off) 16

/-- SDPRO (R179): stores a doubleword. -/
def execSdpro (data off : Reg) (s : State) : Out :=
  store s data (s.eaPcReg off) 16

/-- LHPRO (R180): loads a halfword. -/
def execLhpro (off d : Reg) (s : State) : Out :=
  load s d (s.eaPcReg off) 4

/-- SHPRO (R181): stores a halfword. -/
def execShpro (data off : Reg) (s : State) : Out :=
  store s data (s.eaPcReg off) 4

/-- LBPRO (R182): loads a byte. -/
def execLbpro (off d : Reg) (s : State) : Out :=
  load s d (s.eaPcReg off) 1

/-- SBPRO (R183): stores a byte. -/
def execSbpro (data off : Reg) (s : State) : Out :=
  store s data (s.eaPcReg off) 1

/-! ## Program counter plus immediate offset (R184 to R191) -/

/-- LWPIO (R184): loads a word. -/
def execLwpio (d : Reg) (imm : BitVec 12) (s : State) : Out :=
  load s d (s.eaPcImm imm) 8

/-- SWPIO (R185): stores a word. -/
def execSwpio (data : Reg) (imm : BitVec 12) (s : State) : Out :=
  store s data (s.eaPcImm imm) 8

/-- LDPIO (R186): loads a doubleword. -/
def execLdpio (d : Reg) (imm : BitVec 12) (s : State) : Out :=
  load s d (s.eaPcImm imm) 16

/-- SDPIO (R187): stores a doubleword. -/
def execSdpio (data : Reg) (imm : BitVec 12) (s : State) : Out :=
  store s data (s.eaPcImm imm) 16

/-- LHPIO (R188): loads a halfword. -/
def execLhpio (d : Reg) (imm : BitVec 12) (s : State) : Out :=
  load s d (s.eaPcImm imm) 4

/-- SHPIO (R189): stores a halfword. -/
def execShpio (data : Reg) (imm : BitVec 12) (s : State) : Out :=
  store s data (s.eaPcImm imm) 4

/-- LBPIO (R190): loads a byte. -/
def execLbpio (d : Reg) (imm : BitVec 12) (s : State) : Out :=
  load s d (s.eaPcImm imm) 1

/-- SBPIO (R191): stores a byte. -/
def execSbpio (data : Reg) (imm : BitVec 12) (s : State) : Out :=
  store s data (s.eaPcImm imm) 1

/-! ## Pair instructions and CAS: named, not defined (R196 to R203) -/

/-- LWP (R197): the manual gives it no meaning; refused whatever its other bits and the state hold. -/
def execLwp (_rest : BitVec 25) (_s : State) : Out :=
  refuse (.noSemantics .lwp)

/-- SWP (R198): the manual gives it no meaning; refused whatever its other bits and the state hold. -/
def execSwp (_rest : BitVec 25) (_s : State) : Out :=
  refuse (.noSemantics .swp)

/-- LHP (R199): the manual gives it no meaning; refused whatever its other bits and the state hold. -/
def execLhp (_rest : BitVec 25) (_s : State) : Out :=
  refuse (.noSemantics .lhp)

/-- SHP (R200): the manual gives it no meaning; refused whatever its other bits and the state hold. -/
def execShp (_rest : BitVec 25) (_s : State) : Out :=
  refuse (.noSemantics .shp)

/-- LBP (R201): the manual gives it no meaning; refused whatever its other bits and the state hold. -/
def execLbp (_rest : BitVec 25) (_s : State) : Out :=
  refuse (.noSemantics .lbp)

/-- SBP (R202): the manual gives it no meaning; refused whatever its other bits and the state hold. -/
def execSbp (_rest : BitVec 25) (_s : State) : Out :=
  refuse (.noSemantics .sbp)

/-- CAS (R203): the manual gives it no meaning; refused whatever its other bits and the state hold. -/
def execCas (_rest : BitVec 25) (_s : State) : Out :=
  refuse (.noSemantics .cas)

/-! ## SWAP -/

/-- SWAP (R204): GP_DEST and the XLEN/8 bytes at the address in GP_1 are exchanged, as one step. -/
def execSwap (a d : Reg) (s : State) : Out :=
  exchange s d (s.x a) s.cfg.variant.bytes

end Sys2Proof.Machine
end

