-- ==== Sys2Proof/Machine/Logical.lean ====
section
/-! DEFINITION. The meanings of the logical and shift instructions (42_logical.md). None reads or writes a flag (R135). -/

namespace Sys2Proof.Machine

/-- ANDR (R136). -/
def execAndr (a b d : Reg) (s : State) : Out :=
  .next (s.setX d (s.x a &&& s.x b)).advance

/-- ANDI (R137). -/
def execAndi (a d : Reg) (imm : BitVec 12) (s : State) : Out :=
  .next (s.setX d (s.x a &&& extArith s.cfg imm)).advance

/-- NOTR (R138): every one of the XLEN bits inverted. -/
def execNotr (a d : Reg) (s : State) : Out :=
  .next (s.setX d (fit s.cfg.variant (~~~(s.x a)))).advance

/-- NOTI (R139): the NOT of the extended immediate. -/
def execNoti (d : Reg) (imm : BitVec 12) (s : State) : Out :=
  .next (s.setX d (fit s.cfg.variant (~~~(extArith s.cfg imm)))).advance

/-- ORR (R140). -/
def execOrr (a b d : Reg) (s : State) : Out :=
  .next (s.setX d (s.x a ||| s.x b)).advance

/-- ORI (R141). -/
def execOri (a d : Reg) (imm : BitVec 12) (s : State) : Out :=
  .next (s.setX d (s.x a ||| extArith s.cfg imm)).advance

/-- XORR (R142). -/
def execXorr (a b d : Reg) (s : State) : Out :=
  .next (s.setX d (s.x a ^^^ s.x b)).advance

/-- XORI (R143). -/
def execXori (a d : Reg) (imm : BitVec 12) (s : State) : Out :=
  .next (s.setX d (s.x a ^^^ extArith s.cfg imm)).advance

/-- LLS (R144, R147): the amount is the whole immediate, unsigned. -/
def execLls (a d : Reg) (imm : BitVec 12) (s : State) : Out :=
  .next (s.setX d (shiftLeft s.cfg.variant (s.x a) imm.toNat)).advance

/-- LRS (R145, R147). -/
def execLrs (a d : Reg) (imm : BitVec 12) (s : State) : Out :=
  .next (s.setX d (shiftRight s.cfg.variant (s.x a) imm.toNat)).advance

/-- ARS (R146, R147). -/
def execArs (a d : Reg) (imm : BitVec 12) (s : State) : Out :=
  .next (s.setX d (shiftRightSigned s.cfg.variant (s.x a) imm.toNat)).advance

end Sys2Proof.Machine
end

