-- ==== Sys2Proof/Machine/Dispatch.lean ====
section
/-! DEFINITION. One arm per instruction. -/

namespace Sys2Proof.Machine

def exec (i : Instr) (s : State) : Host.Outcome State Fault Refusal :=
  match i with
  | .addi a d imm => Sys2Proof.Machine.execAddi a d imm s
  | .addic a d imm => Sys2Proof.Machine.execAddic a d imm s
  | .addr a b d => Sys2Proof.Machine.execAddr a b d s
  | .addrc a b d => Sys2Proof.Machine.execAddrc a b d s
  | .subi a d imm => Sys2Proof.Machine.execSubi a d imm s
  | .subib a d imm => Sys2Proof.Machine.execSubib a d imm s
  | .subr a b d => Sys2Proof.Machine.execSubr a b d s
  | .subrb a b d => Sys2Proof.Machine.execSubrb a b d s
  | .mult a b d => Sys2Proof.Machine.execMult a b d s
  | .div a b d => Sys2Proof.Machine.execDiv a b d s
  | .mov a d => Sys2Proof.Machine.execMov a d s
  | .addipc d imm => Sys2Proof.Machine.execAddipc d imm s
  | .addrpc a d => Sys2Proof.Machine.execAddrpc a d s
  | .andr a b d => Sys2Proof.Machine.execAndr a b d s
  | .andi a d imm => Sys2Proof.Machine.execAndi a d imm s
  | .notr a d => Sys2Proof.Machine.execNotr a d s
  | .noti d imm => Sys2Proof.Machine.execNoti d imm s
  | .orr a b d => Sys2Proof.Machine.execOrr a b d s
  | .ori a d imm => Sys2Proof.Machine.execOri a d imm s
  | .xorr a b d => Sys2Proof.Machine.execXorr a b d s
  | .xori a d imm => Sys2Proof.Machine.execXori a d imm s
  | .lls a d imm => Sys2Proof.Machine.execLls a d imm s
  | .lrs a d imm => Sys2Proof.Machine.execLrs a d imm s
  | .ars a d imm => Sys2Proof.Machine.execArs a d imm s
  | .lwr base d imm => Sys2Proof.Machine.execLwr base d imm s
  | .swr data base imm => Sys2Proof.Machine.execSwr data base imm s
  | .ldr base d imm => Sys2Proof.Machine.execLdr base d imm s
  | .sdr data base imm => Sys2Proof.Machine.execSdr data base imm s
  | .lhr base d imm => Sys2Proof.Machine.execLhr base d imm s
  | .shr data base imm => Sys2Proof.Machine.execShr data base imm s
  | .lbr base d imm => Sys2Proof.Machine.execLbr base d imm s
  | .sbr data base imm => Sys2Proof.Machine.execSbr data base imm s
  | .lwrro base off d => Sys2Proof.Machine.execLwrro base off d s
  | .swrro data base off => Sys2Proof.Machine.execSwrro data base off s
  | .ldrro base off d => Sys2Proof.Machine.execLdrro base off d s
  | .sdrro data base off => Sys2Proof.Machine.execSdrro data base off s
  | .lhrro base off d => Sys2Proof.Machine.execLhrro base off d s
  | .shrro data base off => Sys2Proof.Machine.execShrro data base off s
  | .lbrro base off d => Sys2Proof.Machine.execLbrro base off d s
  | .sbrro data base off => Sys2Proof.Machine.execSbrro data base off s
  | .lwpro off d => Sys2Proof.Machine.execLwpro off d s
  | .swpro data off => Sys2Proof.Machine.execSwpro data off s
  | .ldpro off d => Sys2Proof.Machine.execLdpro off d s
  | .sdpro data off => Sys2Proof.Machine.execSdpro data off s
  | .lhpro off d => Sys2Proof.Machine.execLhpro off d s
  | .shpro data off => Sys2Proof.Machine.execShpro data off s
  | .lbpro off d => Sys2Proof.Machine.execLbpro off d s
  | .sbpro data off => Sys2Proof.Machine.execSbpro data off s
  | .lwpio d imm => Sys2Proof.Machine.execLwpio d imm s
  | .swpio data imm => Sys2Proof.Machine.execSwpio data imm s
  | .ldpio d imm => Sys2Proof.Machine.execLdpio d imm s
  | .sdpio data imm => Sys2Proof.Machine.execSdpio data imm s
  | .lhpio d imm => Sys2Proof.Machine.execLhpio d imm s
  | .shpio data imm => Sys2Proof.Machine.execShpio data imm s
  | .lbpio d imm => Sys2Proof.Machine.execLbpio d imm s
  | .sbpio data imm => Sys2Proof.Machine.execSbpio data imm s
  | .lwp rest => Sys2Proof.Machine.execLwp rest s
  | .swp rest => Sys2Proof.Machine.execSwp rest s
  | .lhp rest => Sys2Proof.Machine.execLhp rest s
  | .shp rest => Sys2Proof.Machine.execShp rest s
  | .lbp rest => Sys2Proof.Machine.execLbp rest s
  | .sbp rest => Sys2Proof.Machine.execSbp rest s
  | .swap a d => Sys2Proof.Machine.execSwap a d s
  | .cas rest => Sys2Proof.Machine.execCas rest s
  | .jalr a d => Sys2Proof.Machine.execJalr a d s
  | .jwlr a => Sys2Proof.Machine.execJwlr a s
  | .jali d imm => Sys2Proof.Machine.execJali d imm s
  | .be a b t => Sys2Proof.Machine.execBe a b t s
  | .bne a b t => Sys2Proof.Machine.execBne a b t s
  | .bgt a b t => Sys2Proof.Machine.execBgt a b t s
  | .bgte a b t => Sys2Proof.Machine.execBgte a b t s
  | .blt a b t => Sys2Proof.Machine.execBlt a b t s
  | .blte a b t => Sys2Proof.Machine.execBlte a b t s
  | .bz t => Sys2Proof.Machine.execBz t s
  | .bnz t => Sys2Proof.Machine.execBnz t s
  | .bc t => Sys2Proof.Machine.execBc t s
  | .bo t => Sys2Proof.Machine.execBo t s
  | .nop => Sys2Proof.Machine.execNop s
  | .wfi => Sys2Proof.Machine.execWfi s
  | .wfe => Sys2Proof.Machine.execWfe s
  | .se => Sys2Proof.Machine.execSe s
  | .sle => Sys2Proof.Machine.execSle s

end Sys2Proof.Machine
end

