-- ==== Sys2Proof/Machine/Step.lean ====
section
/-! DEFINITION. One step of the machine (R75), and a word placed where the next step fetches it. -/

namespace Sys2Proof.Machine

/-- One step (R75). A core at HALT_PC has ended and nothing of it changes (R296; log 12). Otherwise: fetch, decode, execute; then,
with several cores, the next one to move is chosen (R298). -/
def step (s : State) : Host.Outcome State Fault Refusal :=
  if s.ended s.core then .next s.handOver
  else andThen s.fetch (fun w =>
    match decode s.cfg w with
    | .error _ => raise (.illegalInstruction w s.pc)
    | .ok i => onNext (exec i s) State.handOver)

/-- The state with the instruction of the bits `w` as program text at `pc`. -/
def State.withFetchWord (s : State) (nbits w : Nat) : State :=
  s.placeText s.pc (w % 2 ^ nbits)

end Sys2Proof.Machine
end

