-- ==== Sys2Proof/Safety.lean ====
section
/-! DEFINITION. The terms statements about the machine use: frames, which instructions write what, invariants, the end of a run, and
the match and mask columns of the opcode table. No definition of the machine uses them. -/

namespace Sys2Proof

/-! ## Which instructions write what -/

/-- The eight instructions that write C, V and Z (R30, R31, R32). -/
def Instr.writesFlags (i : Instr) : Bool :=
  [Mnemonic.addr, .addi, .addrc, .addic, .subr, .subi, .subrb, .subib].contains i.mnemonic

/-- The destination register of an instruction that has one (R23). -/
def Instr.dests : Instr → List Reg
  | .addr _ _ d | .addrc _ _ d | .subr _ _ d | .subrb _ _ d | .mult _ _ d | .div _ _ d => [d]
  | .addi _ d _ | .addic _ d _ | .subi _ d _ | .subib _ d _ | .mov _ d | .addipc d _ | .addrpc _ d => [d]
  | .andr _ _ d | .orr _ _ d | .xorr _ _ d | .notr _ d | .andi _ d _ | .ori _ d _ | .xori _ d _ | .noti d _ => [d]
  | .lls _ d _ | .lrs _ d _ | .ars _ d _ => [d]
  | .lwr _ d _ | .ldr _ d _ | .lhr _ d _ | .lbr _ d _ | .lwrro _ _ d | .ldrro _ _ d | .lhrro _ _ d | .lbrro _ _ d => [d]
  | .lwpro _ d | .ldpro _ d | .lhpro _ d | .lbpro _ d | .lwpio d _ | .ldpio d _ | .lhpio d _ | .lbpio d _ => [d]
  | .swap _ d | .jalr _ d | .jali d _ => [d]
  | _ => []

/-- The jumps and the conditional branches, which assign `pc` (R27). -/
def Instr.assignsPc (i : Instr) : Bool :=
  [Mnemonic.jalr, .jwlr, .jali, .be, .bne, .bgt, .bgte, .blt, .blte, .bz, .bnz, .bc, .bo].contains i.mnemonic

/-- The three jumps, which do not check their target (R212). -/
def Instr.jumps (i : Instr) : Bool :=
  [Mnemonic.jalr, .jwlr, .jali].contains i.mnemonic

/-- The two waiting instructions (R242). -/
def Instr.waits (i : Instr) : Bool :=
  [Mnemonic.wfi, .wfe].contains i.mnemonic

/-- The seven instructions the manual names and does not describe (R196, R203). -/
def Instr.undescribed (i : Instr) : Bool :=
  [Mnemonic.lwp, .swp, .lhp, .shp, .lbp, .sbp, .cas].contains i.mnemonic

/-! ## The match and mask columns of R92 -/

/-- `match` and `mask` of a row, under the default OPCODE_MAP and `lsb0` (R92, R94). -/
def Mnemonic.matchMask : Mnemonic → BitVec 32 × BitVec 32
  | .addi => (0x00000000, 0xE000007F)
  | .addic => (0x00000001, 0xE000007F)
  | .addr => (0x00000002, 0xFFC0007F)
  | .addrc => (0x00000003, 0xFFC0007F)
  | .subi => (0x00000004, 0xE000007F)
  | .subib => (0x00000005, 0xE000007F)
  | .subr => (0x00000006, 0xFFC0007F)
  | .subrb => (0x00000007, 0xFFC0007F)
  | .mult => (0x00000008, 0xFFC0007F)
  | .div => (0x00000009, 0xFFC0007F)
  | .mov => (0x0000000A, 0xFFC1F07F)
  | .addipc => (0x0000000B, 0xE0000FFF)
  | .addrpc => (0x0000000C, 0xFFC1F07F)
  | .andr => (0x00000010, 0xFFC0007F)
  | .andi => (0x00000011, 0xE000007F)
  | .notr => (0x00000012, 0xFFC1F07F)
  | .noti => (0x00000013, 0xE0000FFF)
  | .orr => (0x00000014, 0xFFC0007F)
  | .ori => (0x00000015, 0xE000007F)
  | .xorr => (0x00000016, 0xFFC0007F)
  | .xori => (0x00000017, 0xE000007F)
  | .lls => (0x00000018, 0xE000007F)
  | .lrs => (0x00000019, 0xE000007F)
  | .ars => (0x0000001A, 0xE000007F)
  | .lwr => (0x20000020, 0xE000007F)
  | .swr => (0x20000021, 0xE000007F)
  | .ldr => (0x20000022, 0xE000007F)
  | .sdr => (0x20000023, 0xE000007F)
  | .lhr => (0x40000024, 0xE000007F)
  | .shr => (0x40000025, 0xE000007F)
  | .lbr => (0x00000026, 0xE000007F)
  | .sbr => (0x00000027, 0xE000007F)
  | .lwrro => (0x00000028, 0xFFC0007F)
  | .swrro => (0x00000029, 0xFFC0007F)
  | .ldrro => (0x0000002A, 0xFFC0007F)
  | .sdrro => (0x0000002B, 0xFFC0007F)
  | .lhrro => (0x0000002C, 0xFFC0007F)
  | .shrro => (0x0000002D, 0xFFC0007F)
  | .lbrro => (0x0000002E, 0xFFC0007F)
  | .sbrro => (0x0000002F, 0xFFC0007F)
  | .lwpro => (0x00000030, 0xFFC1F07F)
  | .swpro => (0x00000031, 0xFFFE007F)
  | .ldpro => (0x00000032, 0xFFC1F07F)
  | .sdpro => (0x00000033, 0xFFFE007F)
  | .lhpro => (0x00000034, 0xFFC1F07F)
  | .shpro => (0x00000035, 0xFFFE007F)
  | .lbpro => (0x00000036, 0xFFC1F07F)
  | .sbpro => (0x00000037, 0xFFFE007F)
  | .lwpio => (0x00000038, 0xE0000FFF)
  | .swpio => (0x00000039, 0xE001F07F)
  | .ldpio => (0x0000003A, 0xE0000FFF)
  | .sdpio => (0x0000003B, 0xE001F07F)
  | .lhpio => (0x0000003C, 0xE0000FFF)
  | .shpio => (0x0000003D, 0xE001F07F)
  | .lbpio => (0x0000003E, 0xE0000FFF)
  | .sbpio => (0x0000003F, 0xE001F07F)
  | .lwp => (0x00000040, 0x0000007F)
  | .swp => (0x00000041, 0x0000007F)
  | .lhp => (0x00000042, 0x0000007F)
  | .shp => (0x00000043, 0x0000007F)
  | .lbp => (0x00000044, 0x0000007F)
  | .sbp => (0x00000045, 0x0000007F)
  | .swap => (0x00000046, 0xFFC1F07F)
  | .cas => (0x00000047, 0x0000007F)
  | .jalr => (0x00000048, 0xFFFE007F)
  | .jwlr => (0x00000049, 0xFFFFF07F)
  | .jali => (0x0000004A, 0x00000FFF)
  | .be => (0x00000050, 0xFC0007FF)
  | .bne => (0x00000051, 0xFC0007FF)
  | .bgt => (0x00000052, 0xFC0007FF)
  | .bgte => (0x00000053, 0xFC0007FF)
  | .blt => (0x00000054, 0xFC0007FF)
  | .blte => (0x00000055, 0xFC0007FF)
  | .bz => (0x00000056, 0xFC1FFFFF)
  | .bnz => (0x00000057, 0xFC1FFFFF)
  | .bc => (0x00000058, 0xFC1FFFFF)
  | .bo => (0x00000059, 0xFC1FFFFF)
  | .nop => (0x00000060, 0xFFFFFFFF)
  | .wfi => (0x00000061, 0xFFFFFFFF)
  | .wfe => (0x00000062, 0xFFFFFFFF)
  | .se => (0x00000063, 0xFFFFFFFF)
  | .sle => (0x00000064, 0xFFFFFFFF)

end Sys2Proof

namespace Sys2Proof.Machine

/-! ## Runs -/

/-- XLEN of a state. -/
def State.xlen (s : State) : Nat :=
  s.cfg.variant.bits

/-- A run has ended normally when every core's `pc` is HALT_PC (R296, R297 a). -/
def State.runEnded (s : State) : Bool :=
  (s.core :: s.others).all s.ended

/-- A safe step: it neither faults nor is refused (R297). -/
def Safe (o : Out) : Prop :=
  ∃ t, o = .next t

/-! ## Frames -/

/-- Every register outside `ds` reads as before. -/
def KeepsRegs (s t : State) (ds : List Reg) : Prop :=
  ∀ r, r ∉ ds → t.x r = s.x r

/-- All four flags are as before. -/
def KeepsFlags (s t : State) : Prop :=
  t.core.flags = s.core.flags

/-- Every byte of memory reads as before. -/
def KeepsMemory (s t : State) : Prop :=
  ∀ a, t.byte a = s.byte a

/-- The parameters, the other cores, the environment's inputs and the count of free values are as before. -/
def KeepsRest (s t : State) : Prop :=
  t.cfg = s.cfg ∧ t.others = s.others ∧ t.core.irqIn = s.core.irqIn ∧ t.core.eventIn = s.core.eventIn ∧ t.draws = s.draws

/-- `pc` moved to the next instruction in sequence (R27). -/
def FallsThrough (s t : State) : Prop :=
  t.pc.toNat = (s.pc.toNat + 4) % 2 ^ s.xlen

/-- Nothing but the register `d` changed, and `pc` moved on. -/
def WritesOnly (s t : State) (d : Reg) : Prop :=
  KeepsRegs s t [d] ∧ KeepsFlags s t ∧ KeepsMemory s t ∧ KeepsRest s t ∧ FallsThrough s t

/-- Nothing but the register `d` and the flags C, V, Z changed, and `pc` moved on. -/
def WritesSum (s t : State) (d : Reg) : Prop :=
  KeepsRegs s t [d] ∧ t.core.flags.k = s.core.flags.k ∧ KeepsMemory s t ∧ KeepsRest s t ∧ FallsThrough s t

/-- Nothing but `pc` changed. -/
def MovesOnly (s t : State) : Prop :=
  KeepsRegs s t [] ∧ KeepsFlags s t ∧ KeepsMemory s t ∧ KeepsRest s t

/-- The destination and the flags C, V, Z are those of an add or subtract whose exact result is `exact` on the unsigned readings and
`sexact` on the signed ones (R30, R31, R32, R110). -/
def SumOf (s t : State) (d : Reg) (exact sexact : Int) : Prop :=
  ((t.x d).toNat : Int) = exact % 2 ^ s.xlen
    ∧ (t.core.flags.c = true ↔ exact < 0 ∨ 2 ^ s.xlen ≤ exact)
    ∧ (t.core.flags.v = true ↔ sexact < -2 ^ (s.xlen - 1) ∨ 2 ^ (s.xlen - 1) ≤ sexact)
    ∧ (t.core.flags.z = true ↔ (t.x d).toNat = 0)

/-- A conditional branch with the condition `cond` and the target register `r` (R211, R216): taken to an aligned target, taken to a
misaligned target, not taken. -/
def Branches (i : Instr) (s : State) (cond : Prop) (r : Reg) : Prop :=
  (cond → (s.x r).toNat % 4 = 0 → ∃ t, exec i s = .next t ∧ t.pc = s.x r ∧ MovesOnly s t)
    ∧ (cond → (s.x r).toNat % 4 ≠ 0 → exec i s = .fault (.raised (.branchAddressMisaligned (s.x r))))
    ∧ (¬cond → ∃ t, exec i s = .next t ∧ FallsThrough s t ∧ MovesOnly s t)

/-- The integer a register's value stands for in an ordered comparison (R216). -/
def readAs (c : Comparison) (x : Variant) (v : Word) : Int :=
  match c with
  | .signed => signed x v
  | .unsigned => v.toNat

/-- A state under another BRANCH_CMP and another DIV_SIGNED. -/
def State.withReading (s : State) (cmp : Comparison) (div : Bool) : State :=
  { s with cfg := { s.cfg with branchCmp := cmp, divSigned := div } }

/-- The integer an immediate of `n` bits stands for under an extension (R10, R88, R89). -/
def immValue (e : Extension) {n : Nat} (imm : BitVec n) : Int :=
  match e with
  | .zero => imm.toNat
  | .sign => imm.toInt

/-- Bit `k` of `ext_arith(imm)` (R10). -/
def immBit (e : Extension) (imm : BitVec 12) (k : Nat) : Bool :=
  if k < 12 then imm.getLsbD k
  else match e with
    | .zero => false
    | .sign => imm.getLsbD 11

/-! ## Data accesses -/

/-- Destination, effective address and bytes of the sixteen loads, with the address functions their meanings use (R155, R156). -/
def loadAccess (s : State) : Instr → Option (Reg × Word × Nat)
  | .lwr base d imm => some (d, s.eaBaseImm base imm, 8)
  | .ldr base d imm => some (d, s.eaBaseImm base imm, 16)
  | .lhr base d imm => some (d, s.eaBaseImm base imm, 4)
  | .lbr base d imm => some (d, s.eaBaseImm base imm, 1)
  | .lwrro base off d => some (d, s.eaBaseReg base off, 8)
  | .ldrro base off d => some (d, s.eaBaseReg base off, 16)
  | .lhrro base off d => some (d, s.eaBaseReg base off, 4)
  | .lbrro base off d => some (d, s.eaBaseReg base off, 1)
  | .lwpro off d => some (d, s.eaPcReg off, 8)
  | .ldpro off d => some (d, s.eaPcReg off, 16)
  | .lhpro off d => some (d, s.eaPcReg off, 4)
  | .lbpro off d => some (d, s.eaPcReg off, 1)
  | .lwpio d imm => some (d, s.eaPcImm imm, 8)
  | .ldpio d imm => some (d, s.eaPcImm imm, 16)
  | .lhpio d imm => some (d, s.eaPcImm imm, 4)
  | .lbpio d imm => some (d, s.eaPcImm imm, 1)
  | _ => none

/-- Data register, effective address and bytes of the sixteen stores, with the address functions their meanings use (R155, R157). -/
def storeAccess (s : State) : Instr → Option (Reg × Word × Nat)
  | .swr data base imm => some (data, s.eaBaseImm base imm, 8)
  | .sdr data base imm => some (data, s.eaBaseImm base imm, 16)
  | .shr data base imm => some (data, s.eaBaseImm base imm, 4)
  | .sbr data base imm => some (data, s.eaBaseImm base imm, 1)
  | .swrro data base off => some (data, s.eaBaseReg base off, 8)
  | .sdrro data base off => some (data, s.eaBaseReg base off, 16)
  | .shrro data base off => some (data, s.eaBaseReg base off, 4)
  | .sbrro data base off => some (data, s.eaBaseReg base off, 1)
  | .swpro data off => some (data, s.eaPcReg off, 8)
  | .sdpro data off => some (data, s.eaPcReg off, 16)
  | .shpro data off => some (data, s.eaPcReg off, 4)
  | .sbpro data off => some (data, s.eaPcReg off, 1)
  | .swpio data imm => some (data, s.eaPcImm imm, 8)
  | .sdpio data imm => some (data, s.eaPcImm imm, 16)
  | .shpio data imm => some (data, s.eaPcImm imm, 4)
  | .sbpio data imm => some (data, s.eaPcImm imm, 1)
  | _ => none

/-- Effective address and bytes of every data access: loads, stores and SWAP (R158, R204). -/
def dataAccess (s : State) (i : Instr) : Option (Word × Nat) :=
  match i with
  | .swap a _ => some (s.x a, s.cfg.variant.bytes)
  | _ => match loadAccess s i with
    | some (_, ea, n) => some (ea, n)
    | none => (storeAccess s i).map Prod.snd

/-- The instructions that write memory: the stores and SWAP (R298). -/
def writesMemory (s : State) (i : Instr) : Bool :=
  match i with
  | .swap _ _ => true
  | _ => (storeAccess s i).isSome

/-! ## Shifts, one step at a time -/

/-- Removing the most-significant bit and appending a 0 as the least-significant bit (R144). -/
def leftStep (x : Variant) (v : Word) : Word :=
  BitVec.ofNat 128 ((v.toNat % 2 ^ (x.bits - 1)) * 2)

/-- Removing the least-significant bit and appending the bit `m` as the most-significant bit (R145, R146). -/
def rightStep (x : Variant) (m : Bool) (v : Word) : Word :=
  BitVec.ofNat 128 (v.toNat / 2 + m.toNat * 2 ^ (x.bits - 1))

/-- The flag of a name. -/
def Flags.named (f : Flags) : FlagName → Bool
  | .carry => f.c
  | .overflow => f.v
  | .zero => f.z
  | .condition => f.k

/-! ## Invariants -/

/-- A core's `pc` and registers are XLEN-bit values (R21, R25). -/
def Core.fits (x : Variant) (c : Core) : Prop :=
  c.pc.toNat < 2 ^ x.bits ∧ ∀ i : Reg, c.gp[i].toNat < 2 ^ x.bits

/-- The machine is as a well-formed launch and any number of steps leave it: the parameters meet R291, the memory is in canonical form
and lists mapped addresses only, every byte of the program text has a value, and every core holds XLEN-bit values. -/
def State.Inv (s : State) : Prop :=
  s.cfg.wellFormed = true
    ∧ Memory.wf s.mem = true
    ∧ (∀ p ∈ s.mem, s.mapped p.1 = true)
    ∧ (∀ a, s.inText a = true → (s.byte a).isSome = true)
    ∧ (∀ c ∈ s.core :: s.others, c.fits s.cfg.variant)

/-- A state with another value in the Condition flag of the core whose turn it is. -/
def State.withK (s : State) (b : Bool) : State :=
  { s with core := { s.core with flags := { s.core.flags with k := b } } }

/-- A core without its environment input `event`, the one thing another core's SE writes (R240). -/
def Core.privatePart (c : Core) : Core :=
  { c with eventIn := false }

end Sys2Proof.Machine
end

