-- ==== Sys2Proof/Certificates/Slice0/Obligations.lean ====
section
/-! DEFINITION. The statements for the provers, from the numbered rules of the spec. -/

open Sys2Proof Sys2Proof.Machine

/-- R92, R95, R98: the word of an instruction that exists on the variant decodes to it, under every well-formed OPCODE_MAP and both
bit orders. -/
def Obligations.DecodeOfEncode : Prop :=
  ∀ (c : Config) (i : Instr), c.opcodeMapOk = true → i.wellFormed c.variant = true → decode c (encode c i) = .ok i

/-- R93, R95, R98: decoding drops no bit, so that every legal word is the one word of its instruction; a word wider than the variant
does not decode. -/
def Obligations.EncodeOfDecode : Prop :=
  ∀ (c : Config) (w : BitVec 32) (i : Instr), c.opcodeMapOk = true → decode c w = .ok i →
    encode c i = w ∧ i.wellFormed c.variant = true

/-- R94, R95, R96, R98, under the default parameters of R7: a word is the instruction of a row exactly when `w & mask = match`, if the
variant is wide enough. -/
def Obligations.DecodeFollowsTable : Prop :=
  ∀ (x : Variant) (map : List Region) (halt : Word) (w : BitVec 32),
    (∀ m : Mnemonic, w &&& m.matchMask.2 = m.matchMask.1 →
      (m.minXlen ≤ x.bits → ∃ i, decode (Config.default x map halt) w = .ok i ∧ i.mnemonic = m ∧
        encode (Config.default x map halt) i = w) ∧
      (x.bits < m.minXlen → decode (Config.default x map halt) w = .error .widerThanVariant)) ∧
    ((∀ m : Mnemonic, w &&& m.matchMask.2 ≠ m.matchMask.1) → ∃ e, decode (Config.default x map halt) w = .error e)

/-- The words are the examples of the rules cited, one or more of each family. -/
def Obligations.ExampleWordsDecode : Prop :=
  decode tableConfig 0x00062082 = .ok (.addr 1 2 3) ∧
    decode tableConfig 0x1FFE2080 = .ok (.addi 1 2 4095) ∧
    decode tableConfig 0x0004008C = .ok (.addrpc 1 2) ∧
    decode tableConfig 0x00062096 = .ok (.xorr 1 2 3) ∧
    decode tableConfig 0x20101121 = .ok (.swr 2 1 8) ∧
    decode tableConfig 0x000400C6 = .ok (.swap 1 2) ∧
    decode tableConfig 0xFFF1F04A = .ok (.jali 31 0x7FF8) ∧
    decode tableConfig 0x00620854 = .ok (.blt 1 2 3) ∧
    decode tableConfig 0x00000060 = .ok .nop ∧
    decode tableConfig 0x00000000 = .ok (.addi 0 0 0) ∧
    decode tableConfig 0xFFFFFFFF = .error .unassignedOpcode

/-- R53, R75 steps (1) to (6): the word is assembled little-endian from the bytes at `pc`. `State.handOver` is what this model's step
adds around `exec` (log 13). -/
def Obligations.StepRunsDecodedInstruction : Prop :=
  ∀ (s : State) (b0 b1 b2 b3 : Byte) (i : Instr),
    s.ended s.core = false → s.pc.toNat % 4 = 0 → (∀ k < 4, s.inText (s.pc.toNat + k) = true) →
    s.byte s.pc.toNat = some b0 → s.byte (s.pc.toNat + 1) = some b1 → s.byte (s.pc.toNat + 2) = some b2 →
    s.byte (s.pc.toNat + 3) = some b3 → decode s.cfg (b3 ++ b2 ++ b1 ++ b0) = .ok i →
    step s = onNext (exec i s) State.handOver ∧ (s.others = [] → step s = exec i s)

/-- R75 steps (3) and (5), R68, R96, R263. R75 (3) and R269 (2) do not order AccessFault and FetchOutsideProgramText; where one byte
is unmapped and another is mapped outside the text both apply, and AccessFault first is the model's choice, from R66 and R68
(DESIGN CHOICE, log 26). -/
def Obligations.FetchStops : Prop :=
  ∀ s : State, s.ended s.core = false → s.pc.toNat % 4 = 0 →
    ((∃ k < 4, s.mapped (s.pc.toNat + k) = false) → step s = .fault (.accessFault s.pc 4)) ∧
    ((∀ k < 4, s.mapped (s.pc.toNat + k) = true) → (∃ k < 4, s.inText (s.pc.toNat + k) = false) →
      step s = .refused .fetchOutsideProgramText) ∧
    (∀ (b0 b1 b2 b3 : Byte) (e : Illegal), (∀ k < 4, s.inText (s.pc.toNat + k) = true) →
      s.byte s.pc.toNat = some b0 → s.byte (s.pc.toNat + 1) = some b1 → s.byte (s.pc.toNat + 2) = some b2 →
      s.byte (s.pc.toNat + 3) = some b3 → decode s.cfg (b3 ++ b2 ++ b1 ++ b0) = .error e →
      step s = .fault (.raised (.illegalInstruction (b3 ++ b2 ++ b1 ++ b0) s.pc)))

/-- R62. That a core at HALT_PC takes no step comes first (R75 step 1). -/
def Obligations.MisalignedFetchRaises : Prop :=
  ∀ s : State, s.ended s.core = false →
    (s.pc.toNat % 4 ≠ 0 → step s = .fault (.raised (.instructionMisaligned s.pc))) ∧
    (s.pc.toNat % 4 = 0 → ∀ p, step s ≠ .fault (.raised (.instructionMisaligned p)))

/-- R296: a core that has reached HALT_PC executes nothing. That the model answers `next` there, where the spec has no step, is its
choice (log 12). R298: the schedule is not fixed; the hand-over is the model's own (log 13). -/
def Obligations.EndedStepAndHandOver : Prop :=
  ∀ s : State,
    (s.ended s.core = true → step s = .next s.handOver) ∧
    (s.runEnded = true → ∃ t, step s = .next t ∧ t.runEnded = true ∧ t.mem = s.mem) ∧
    s.handOver.cfg = s.cfg ∧ s.handOver.mem = s.mem ∧
    (s.handOver.core :: s.handOver.others).Perm (s.core :: s.others) ∧
    (s.others = [] → s.handOver = s)

/-- R39, R290 give reset no register and flag values and make RESET_PC a parameter; the values stated here are the model's choices
(logs 1, 2, 8, 10). -/
def Obligations.ResetValues : Prop :=
  State.reset.pc = 0x1000 ∧ (∀ r : Reg, State.reset.x r = 0) ∧
    State.reset.core.flags = { c := false, v := false, z := false, k := false } ∧ State.reset.others = [] ∧
    ∀ a : Nat, State.reset.byte a = none

/-- R39, R290, R291, R298. What a register or flag not given reads as is the model's choice (logs 1, 2) and not stated here; that a
launch carries the first inputs and the first turn is the model's form (logs 5, 13). -/
def Obligations.LaunchLeaves : Prop :=
  ∀ l : Launch, l.wellFormed = true →
    (State.launch l).cfg = l.cfg ∧
    ((State.launch l).core :: (State.launch l).others).Perm ((l.first :: l.others).map Core.launch) ∧
    (∀ c ∈ l.first :: l.others, ∃ k, (State.launch { l with turn := k }).core = Core.launch c) ∧
    (l.others = [] → (State.launch l).core = Core.launch l.first ∧ (State.launch l).others = []) ∧
    (∀ c ∈ l.first :: l.others, (Core.launch c).pc = c.resetPc ∧ (Core.launch c).irqIn = c.irq ∧ (Core.launch c).eventIn = c.event ∧
      (∀ p ∈ c.registers, (c.registers.map Prod.fst).Nodup → (Core.launch c).gp[p.1] = p.2) ∧
      (∀ p ∈ c.flags, (c.flags.map Prod.fst).Nodup → (Core.launch c).flags.named p.1 = p.2)) ∧
    (∀ p ∈ l.image, (l.image.map Prod.fst).Nodup → (State.launch l).byte p.1 = some p.2) ∧
    (∀ a, a ∉ l.image.map Prod.fst → (State.launch l).byte a = none)

/-- The invariant `State.Inv` at `State.reset`. -/
def Obligations.InvAtReset : Prop :=
  State.reset.Inv

/-- R291's conditions on a launch give the invariant of the run. -/
def Obligations.LaunchGivesInv : Prop :=
  ∀ l : Launch, l.wellFormed = true → (State.launch l).Inv

/-- The invariant of the machine, over every state and not only over runs from reset. -/
def Obligations.StepKeepsInv : Prop :=
  ∀ s t : State, s.Inv → step s = .next t → t.Inv

/-- R291: the launch is constant through the run; R68, R73: nothing is stored into the program text. -/
def Obligations.ParametersAndTextNeverChange : Prop :=
  ∀ s t : State, step s = .next t →
    t.cfg = s.cfg ∧ t.others.length = s.others.length ∧ (∀ a, s.inText a = true → t.byte a = s.byte a)

/-- R30 to R34. -/
def Obligations.FlagsOnlyByAddAndSubtract : Prop :=
  ∀ (i : Instr) (s t : State), exec i s = .next t →
    t.core.flags.k = s.core.flags.k ∧ (i.writesFlags = false → KeepsFlags s t)

/-- R23. A fault or refusal has no next state in which a register could differ. -/
def Obligations.RegistersOnlyByDestination : Prop :=
  ∀ (i : Instr) (s : State),
    (∀ t, exec i s = .next t → KeepsRegs s t i.dests) ∧
    ((storeAccess s i).isSome = true → i.dests = []) ∧
    (i ∈ [Instr.nop, .wfi, .wfe, .se, .sle] → i.dests = []) ∧
    i.dests.length ≤ 1 ∧
    ((∃ f, exec i s = .fault f) ∨ (∃ r, exec i s = .refused r) → ¬ ∃ t, exec i s = .next t)

/-- R51, R298. The address is the one the instruction's meaning uses. -/
def Obligations.MemoryOnlyByStoresAndSwap : Prop :=
  ∀ (i : Instr) (s t : State), exec i s = .next t →
    (writesMemory s i = false → KeepsMemory s t) ∧
    (∀ ea n, writesMemory s i = true → dataAccess s i = some (ea, n) →
      ∀ a, (∀ j < n, a ≠ ea.toNat + j) → t.byte a = s.byte a)

/-- R27, with R238 and R239 for the two waiting instructions. -/
def Obligations.PcAdvancesByFour : Prop :=
  ∀ (i : Instr) (s t : State), i.assignsPc = false → exec i s = .next t →
    FallsThrough s t ∨ (i.waits = true ∧ t.pc = s.pc)

/-- R262: only a jump can make pc misaligned; a conditional branch raises first (R211), a jump does not check (R212). -/
def Obligations.OnlyJumpsMisalignPc : Prop :=
  ∀ (i : Instr) (s t : State), s.pc.toNat % 4 = 0 → exec i s = .next t → t.pc.toNat % 4 ≠ 0 → i.jumps = true

/-- R20, R283: pc, registers and flags are each core's own; R240: SE reaches the others' waiting only. -/
def Obligations.OtherCoresKeepTheirState : Prop :=
  ∀ (i : Instr) (s t : State), exec i s = .next t →
    t.others.map Core.privatePart = s.others.map Core.privatePart ∧ (i ≠ .se → t.others = s.others)

/-- R20, R283: a core influences another through memory and SE alone. -/
def Obligations.OtherCoresDoNotInfluence : Prop :=
  ∀ (i : Instr) (s : State) (cs : List Core), i ≠ .se →
    exec i { s with others := cs } = onNext (exec i s) (fun t => { t with others := cs })

/-- R33: no rule reads or writes K. -/
def Obligations.ConditionFlagIsInert : Prop :=
  ∀ (i : Instr) (s : State) (b : Bool),
    exec i (s.withK b) = onNext (exec i s) (fun t => t.withK b) ∧
    (s.others = [] → step (s.withK b) = onNext (step s) (fun t => t.withK b))

/-- R268's table, less the register and flag reads of a value never written, which cannot occur here (logs 1, 2), and DIV, which
completes (log 4); R266. -/
def Obligations.StopsAreAsListed : Prop :=
  ∀ (i : Instr) (s : State),
    (match exec i s with
      | .next _ => True
      | .fault (.raised (.misalignedAddress ea)) => ∃ n, dataAccess s i = some (ea, n) ∧ n ≠ 1 ∧ ea.toNat % n ≠ 0
      | .fault (.raised (.branchAddressMisaligned p)) => i.assignsPc = true ∧ i.jumps = false ∧ p.toNat % 4 ≠ 0
      | .fault (.raised _) => False
      | .fault (.accessFault ea n) => dataAccess s i = some (ea, n)
      | .fault (.readOfUnwritten _) => (loadAccess s i).isSome = true ∨ ∃ a d, i = .swap a d
      | .refused .storeToProgramText => writesMemory s i = true
      | .refused (.noSemantics m) => i.undescribed = true ∧ m = i.mnemonic
      | .refused _ => False) ∧
    (dataAccess s i = none → i.undescribed = false → i.assignsPc = false ∨ i.jumps = true → Safe (exec i s)) ∧
    step s ≠ .fault (.raised .higherPrivelegeNeeded)

/-- R110, R111, R113, R122 (b). The sources are read in the state before, so a destination may be a source. -/
def Obligations.AddRegistersResult : Prop :=
  ∀ (a b d : Reg) (s : State),
    (∃ t, exec (.addr a b d) s = .next t ∧
      SumOf s t d ((s.x a).toNat + (s.x b).toNat) (signed s.cfg.variant (s.x a) + signed s.cfg.variant (s.x b)) ∧
      WritesSum s t d) ∧
    (∃ t, exec (.addrc a b d) s = .next t ∧
      SumOf s t d ((s.x a).toNat + (s.x b).toNat + s.core.flags.c.toNat)
        (signed s.cfg.variant (s.x a) + signed s.cfg.variant (s.x b) + s.core.flags.c.toNat) ∧
      WritesSum s t d)

/-- R88, R110, R112, R114. -/
def Obligations.AddImmediatesResult : Prop :=
  ∀ (a d : Reg) (imm : BitVec 12) (s : State),
    (∃ t, exec (.addi a d imm) s = .next t ∧
      SumOf s t d ((s.x a).toNat + immValue s.cfg.immArithExt imm % 2 ^ s.xlen)
        (signed s.cfg.variant (s.x a) + immValue s.cfg.immArithExt imm) ∧
      WritesSum s t d) ∧
    (∃ t, exec (.addic a d imm) s = .next t ∧
      SumOf s t d ((s.x a).toNat + immValue s.cfg.immArithExt imm % 2 ^ s.xlen + s.core.flags.c.toNat)
        (signed s.cfg.variant (s.x a) + immValue s.cfg.immArithExt imm + s.core.flags.c.toNat) ∧
      WritesSum s t d)

/-- R110, R115, R117, R122 (c). GP_1 is the minuend. -/
def Obligations.SubtractRegistersResult : Prop :=
  ∀ (a b d : Reg) (s : State),
    (∃ t, exec (.subr a b d) s = .next t ∧
      SumOf s t d ((s.x a).toNat - (s.x b).toNat) (signed s.cfg.variant (s.x a) - signed s.cfg.variant (s.x b)) ∧
      WritesSum s t d) ∧
    (∃ t, exec (.subrb a b d) s = .next t ∧
      SumOf s t d ((s.x a).toNat - (s.x b).toNat - s.core.flags.c.toNat)
        (signed s.cfg.variant (s.x a) - signed s.cfg.variant (s.x b) - s.core.flags.c.toNat) ∧
      WritesSum s t d)

/-- R88, R110, R116, R118. SUBIB's meaning is the spec's reading of a question the manual leaves (log 18). -/
def Obligations.SubtractImmediatesResult : Prop :=
  ∀ (a d : Reg) (imm : BitVec 12) (s : State),
    (∃ t, exec (.subi a d imm) s = .next t ∧
      SumOf s t d ((s.x a).toNat - immValue s.cfg.immArithExt imm % 2 ^ s.xlen)
        (signed s.cfg.variant (s.x a) - immValue s.cfg.immArithExt imm) ∧
      WritesSum s t d) ∧
    (∃ t, exec (.subib a d imm) s = .next t ∧
      SumOf s t d ((s.x a).toNat - immValue s.cfg.immArithExt imm % 2 ^ s.xlen - s.core.flags.c.toNat)
        (signed s.cfg.variant (s.x a) - immValue s.cfg.immArithExt imm - s.core.flags.c.toNat) ∧
      WritesSum s t d)

/-- R115's corner cases, and R225's use of C; the signed comparison follows from R110. -/
def Obligations.SubtractCompares : Prop :=
  ∀ (a b d : Reg) (s : State), ∃ t, exec (.subr a b d) s = .next t ∧
    (t.core.flags.z = true ↔ s.x a = s.x b) ∧
    (t.core.flags.c = true ↔ (s.x a).toNat < (s.x b).toNat) ∧
    (decide (signed t.cfg.variant (t.x d) < 0) ≠ t.core.flags.v ↔
      signed s.cfg.variant (s.x a) < signed s.cfg.variant (s.x b))

/-- R113, R117, R122 (b), (c) composed: C carries from one instruction to the next. -/
def Obligations.DoubleWordAddAndSubtract : Prop :=
  ∀ (a0 a1 b0 b1 d0 d1 : Reg) (s : State), d0 ≠ a1 → d0 ≠ b1 → d0 ≠ d1 →
    (∃ t u, exec (.addr a0 b0 d0) s = .next t ∧ exec (.addrc a1 b1 d1) t = .next u ∧
      (u.x d0).toNat + 2 ^ s.xlen * ((u.x d1).toNat + 2 ^ s.xlen * u.core.flags.c.toNat) =
        ((s.x a0).toNat + 2 ^ s.xlen * (s.x a1).toNat) + ((s.x b0).toNat + 2 ^ s.xlen * (s.x b1).toNat)) ∧
    (∃ t u, exec (.subr a0 b0 d0) s = .next t ∧ exec (.subrb a1 b1 d1) t = .next u ∧
      (((u.x d0).toNat + 2 ^ s.xlen * ((u.x d1).toNat - 2 ^ s.xlen * u.core.flags.c.toNat) : Int)) =
        ((s.x a0).toNat + 2 ^ s.xlen * (s.x a1).toNat) - ((s.x b0).toNat + 2 ^ s.xlen * (s.x b1).toNat))

/-- R119, R122 (a). -/
def Obligations.MultiplyLowHalf : Prop :=
  ∀ (a b d : Reg) (s : State), ∃ t, exec (.mult a b d) s = .next t ∧
    (t.x d).toNat = ((s.x a).toNat * (s.x b).toNat) % 2 ^ s.xlen ∧
    ((t.x d).toNat : Int) = (signed s.cfg.variant (s.x a) * signed s.cfg.variant (s.x b)) % 2 ^ s.xlen ∧
    WritesOnly s t d

/-- R120. The quotient is pinned down by its remainder, not by the division of Lean. -/
def Obligations.DivideTruncates : Prop :=
  ∀ (a b d : Reg) (s : State), (s.x b).toNat ≠ 0 →
    (s.cfg.divSigned = true →
      ¬(signed s.cfg.variant (s.x a) = -2 ^ (s.xlen - 1) ∧ signed s.cfg.variant (s.x b) = -1) →
      ∃ t, exec (.div a b d) s = .next t ∧ WritesOnly s t d ∧
        ∃ r : Int, signed s.cfg.variant (s.x a) = signed s.cfg.variant (t.x d) * signed s.cfg.variant (s.x b) + r ∧
          |r| < |signed s.cfg.variant (s.x b)| ∧ 0 ≤ r * signed s.cfg.variant (s.x a)) ∧
    (s.cfg.divSigned = false →
      ∃ t, exec (.div a b d) s = .next t ∧ WritesOnly s t d ∧
        ∃ r, (s.x a).toNat = (t.x d).toNat * (s.x b).toNat + r ∧ r < (s.x b).toNat)

/-- R120's two cases without a result. That they complete with an unconstrained value is the alternative of
93_implementation_defined.md U4, the model's choice (log 4); no value is stated. -/
def Obligations.DivideWithoutResultCompletes : Prop :=
  ∀ (a b d : Reg) (s : State),
    (s.x b).toNat = 0 ∨
      (s.cfg.divSigned = true ∧ signed s.cfg.variant (s.x a) = -2 ^ (s.xlen - 1) ∧ signed s.cfg.variant (s.x b) = -1) →
    ∃ t, exec (.div a b d) s = .next t ∧ KeepsRegs s t [d] ∧ KeepsFlags s t ∧ KeepsMemory s t ∧ t.cfg = s.cfg ∧
      t.others = s.others ∧ t.core.irqIn = s.core.irqIn ∧ t.core.eventIn = s.core.eventIn ∧ t.draws = s.draws + 1 ∧
      FallsThrough s t

/-- R121. -/
def Obligations.MoveCopies : Prop :=
  ∀ (a d : Reg) (s : State), ∃ t, exec (.mov a d) s = .next t ∧ t.x d = s.x a ∧ WritesOnly s t d

/-- R25, R130, R131. The two meanings are the spec's reading of the names (log 18). -/
def Obligations.PcAdditions : Prop :=
  ∀ (a d : Reg) (imm : BitVec 12) (s : State),
    (∃ t, exec (.addipc d imm) s = .next t ∧
      ((t.x d).toNat : Int) = (s.pc.toNat + immValue s.cfg.immOffsetExt imm) % 2 ^ s.xlen ∧ WritesOnly s t d) ∧
    (∃ t, exec (.addrpc a d) s = .next t ∧
      (t.x d).toNat = (s.pc.toNat + (s.x a).toNat) % 2 ^ s.xlen ∧ WritesOnly s t d)

/-- R135, R136, R138, R140, R142. -/
def Obligations.BitwiseRegisters : Prop :=
  ∀ (a b d : Reg) (s : State),
    (∃ t, exec (.andr a b d) s = .next t ∧ WritesOnly s t d ∧
      ∀ k < s.xlen, (t.x d).getLsbD k = ((s.x a).getLsbD k && (s.x b).getLsbD k)) ∧
    (∃ t, exec (.orr a b d) s = .next t ∧ WritesOnly s t d ∧
      ∀ k < s.xlen, (t.x d).getLsbD k = ((s.x a).getLsbD k || (s.x b).getLsbD k)) ∧
    (∃ t, exec (.xorr a b d) s = .next t ∧ WritesOnly s t d ∧
      ∀ k < s.xlen, (t.x d).getLsbD k = ((s.x a).getLsbD k ^^ (s.x b).getLsbD k)) ∧
    (∃ t, exec (.notr a d) s = .next t ∧ WritesOnly s t d ∧
      ∀ k < s.xlen, (t.x d).getLsbD k = !(s.x a).getLsbD k)

/-- R88, R135, R137, R139, R141, R143. NOTI's meaning is the spec's reading of the name (log 18). -/
def Obligations.BitwiseImmediates : Prop :=
  ∀ (a d : Reg) (imm : BitVec 12) (s : State),
    (∃ t, exec (.andi a d imm) s = .next t ∧ WritesOnly s t d ∧
      ∀ k < s.xlen, (t.x d).getLsbD k = ((s.x a).getLsbD k && immBit s.cfg.immArithExt imm k)) ∧
    (∃ t, exec (.ori a d imm) s = .next t ∧ WritesOnly s t d ∧
      ∀ k < s.xlen, (t.x d).getLsbD k = ((s.x a).getLsbD k || immBit s.cfg.immArithExt imm k)) ∧
    (∃ t, exec (.xori a d imm) s = .next t ∧ WritesOnly s t d ∧
      ∀ k < s.xlen, (t.x d).getLsbD k = ((s.x a).getLsbD k ^^ immBit s.cfg.immArithExt imm k)) ∧
    (∃ t, exec (.noti d imm) s = .next t ∧ WritesOnly s t d ∧
      ∀ k < s.xlen, (t.x d).getLsbD k = !immBit s.cfg.immArithExt imm k)

/-- R144 to R147: the repetition of the rules' pseudocode, where the meanings use the closed forms. -/
def Obligations.ShiftsRepeatOneBitSteps : Prop :=
  ∀ (a d : Reg) (imm : BitVec 12) (s : State),
    (∃ t, exec (.lls a d imm) s = .next t ∧ WritesOnly s t d ∧
      t.x d = Nat.iterate (leftStep s.cfg.variant) imm.toNat (s.x a)) ∧
    (∃ t, exec (.lrs a d imm) s = .next t ∧ WritesOnly s t d ∧
      t.x d = Nat.iterate (rightStep s.cfg.variant false) imm.toNat (s.x a)) ∧
    (∃ t, exec (.ars a d imm) s = .next t ∧ WritesOnly s t d ∧
      t.x d = Nat.iterate (rightStep s.cfg.variant ((s.x a).getLsbD (s.xlen - 1))) imm.toNat (s.x a))

/-- R147 with the closed forms of R144 to R146. -/
def Obligations.ShiftsPastTheWidth : Prop :=
  ∀ (a d : Reg) (imm : BitVec 12) (s : State),
    (s.xlen ≤ imm.toNat → (∃ t, exec (.lls a d imm) s = .next t ∧ t.x d = 0) ∧
      (∃ t, exec (.lrs a d imm) s = .next t ∧ t.x d = 0)) ∧
    (s.xlen - 1 ≤ imm.toNat → ∃ t, exec (.ars a d imm) s = .next t ∧
      signed t.cfg.variant (t.x d) = if signed s.cfg.variant (s.x a) < 0 then -1 else 0)

/-- R25, R63, R88, R155. -/
def Obligations.EffectiveAddresses : Prop :=
  ∀ (s : State) (base off : Reg) (imm : BitVec 12),
    ((s.eaBaseImm base imm).toNat : Int) = ((s.x base).toNat + immValue s.cfg.immOffsetExt imm) % 2 ^ s.xlen ∧
    (s.eaBaseReg base off).toNat = ((s.x base).toNat + (s.x off).toNat) % 2 ^ s.xlen ∧
    (s.eaPcReg off).toNat = (s.pc.toNat + (s.x off).toNat) % 2 ^ s.xlen ∧
    ((s.eaPcImm imm).toNat : Int) = (s.pc.toNat + immValue s.cfg.immOffsetExt imm) % 2 ^ s.xlen

/-- R55. A mapped byte without a value is R66's case, stated in ValuelessByteFaults. -/
def Obligations.MemoryReadRule : Prop :=
  ∀ (s : State) (addr : Word) (n : Nat), n ∈ [1, 4, 8, 16] →
    ((∃ i < n, s.mapped ((addr.toNat + i) % 2 ^ s.xlen) = false) → s.memRead addr n = .error (.fault (.accessFault addr n))) ∧
    ((∀ i < n, s.mapped ((addr.toNat + i) % 2 ^ s.xlen) = true) →
      (∀ i < n, (s.byte ((addr.toNat + i) % 2 ^ s.xlen)).isSome = true) →
      ∃ v, s.memRead addr n = .ok v ∧ v.toNat < 2 ^ (8 * n) ∧
        ∀ i < n, s.byte ((addr.toNat + i) % 2 ^ s.xlen) = some (v.extractLsb' (8 * i) 8))

/-- R56. An outcome that is an error has no state, so that no byte is written. -/
def Obligations.MemoryWriteRule : Prop :=
  ∀ (s : State) (addr : Word) (n : Nat) (v : Word), n ∈ [1, 4, 8, 16] →
    ((∃ i < n, s.mapped ((addr.toNat + i) % 2 ^ s.xlen) = false) →
      s.memWrite addr n v = .error (.fault (.accessFault addr n))) ∧
    ((∀ i < n, s.mapped ((addr.toNat + i) % 2 ^ s.xlen) = true) → (∃ i < n, s.inText ((addr.toNat + i) % 2 ^ s.xlen) = true) →
      s.memWrite addr n v = .error (.refuse .storeToProgramText)) ∧
    ((∀ i < n, s.mapped ((addr.toNat + i) % 2 ^ s.xlen) = true) → (∀ i < n, s.inText ((addr.toNat + i) % 2 ^ s.xlen) = false) →
      ∃ t, s.memWrite addr n v = .ok t ∧
        (∀ i < n, t.byte ((addr.toNat + i) % 2 ^ s.xlen) = some (v.extractLsb' (8 * i) 8)) ∧
        (∀ a, (∀ i < n, a ≠ (addr.toNat + i) % 2 ^ s.xlen) → t.byte a = s.byte a) ∧
        t = { s with mem := t.mem })

/-- R57, from R52, R55 and R56. -/
def Obligations.MixedWidthReads : Prop :=
  ∀ (s t : State) (addr : Word) (n m i : Nat) (v : Word), n ∈ [1, 4, 8, 16] → m ∈ [1, 4, 8, 16] → i + m ≤ n →
    s.memWrite addr n v = .ok t →
    t.memRead (addWrap s.cfg.variant addr (BitVec.ofNat 128 i)) m = .ok ((v.extractLsb' (8 * i) (8 * m)).setWidth 128)

/-- R58, R155, R156, for LWR, LDR, LHR, LBR and their RRO, PRO and PIO forms. The address is the one the meaning computes
(EffectiveAddresses says what it is). -/
def Obligations.LoadsReadMemory : Prop :=
  ∀ (i : Instr) (s : State) (d : Reg) (ea : Word) (n : Nat), i.wellFormed s.cfg.variant = true →
    loadAccess s i = some (d, ea, n) → ea.toNat % n = 0 → (∀ j < n, s.mapped (ea.toNat + j) = true) →
    (∀ j < n, (s.byte (ea.toNat + j)).isSome = true) →
    ∃ t, exec i s = .next t ∧ (∀ j < n, s.byte (ea.toNat + j) = some ((t.x d).extractLsb' (8 * j) 8)) ∧
      (∀ k, 8 * n ≤ k → k < s.xlen →
        (t.x d).getLsbD k = match s.cfg.loadExt with
          | .zero => false
          | .sign => (t.x d).getLsbD (8 * n - 1)) ∧
      WritesOnly s t d

/-- R58, R155, R157, for SWR, SDR, SHR, SBR and their RRO, PRO and PIO forms. The address is the one the meaning computes. -/
def Obligations.StoresWriteMemory : Prop :=
  ∀ (i : Instr) (s : State) (r : Reg) (ea : Word) (n : Nat), i.wellFormed s.cfg.variant = true →
    storeAccess s i = some (r, ea, n) → ea.toNat % n = 0 → (∀ j < n, s.mapped (ea.toNat + j) = true) →
    (∀ j < n, s.inText (ea.toNat + j) = false) →
    ∃ t, exec i s = .next t ∧ (∀ j < n, t.byte (ea.toNat + j) = some ((s.x r).extractLsb' (8 * j) 8)) ∧
      (∀ a, (∀ j < n, a ≠ ea.toNat + j) → t.byte a = s.byte a) ∧
      KeepsRegs s t [] ∧ KeepsFlags s t ∧ KeepsRest s t ∧ FallsThrough s t

/-- R61. A fault has no next state; the access is neither split nor undefined. -/
def Obligations.MisalignedAccessRaises : Prop :=
  ∀ (i : Instr) (s : State) (ea : Word) (n : Nat), dataAccess s i = some (ea, n) → ea.toNat % n ≠ 0 →
    exec i s = .fault (.raised (.misalignedAddress ea)) ∧ ¬ ∃ t, exec i s = .next t

/-- R66, R158: after the alignment, before the program text and the missing values. -/
def Obligations.AccessOutsideMapFaults : Prop :=
  ∀ (i : Instr) (s : State) (ea : Word) (n : Nat), dataAccess s i = some (ea, n) → ea.toNat % n = 0 →
    (∃ j < n, s.mapped (ea.toNat + j) = false) → exec i s = .fault (.accessFault ea n)

/-- R66, R158. Which of several bytes the fault names is the model's choice (log 22). -/
def Obligations.ValuelessByteFaults : Prop :=
  ∀ (i : Instr) (s : State) (ea : Word) (n j : Nat), dataAccess s i = some (ea, n) →
    ((loadAccess s i).isSome = true ∨ ∃ a d, i = .swap a d) → ea.toNat % n = 0 →
    (∀ k < n, s.mapped (ea.toNat + k) = true) → j < n → s.byte (ea.toNat + j) = none →
    (∀ k < j, (s.byte (ea.toNat + k)).isSome = true) → exec i s = .fault (.readOfUnwritten (ea.toNat + j))

/-- R56, R68, R158. SWAP reads before it writes (R204), so that its bytes must hold values for the refusal to be reached. -/
def Obligations.StoreIntoTextRefused : Prop :=
  ∀ (i : Instr) (s : State) (ea : Word) (n : Nat), writesMemory s i = true → dataAccess s i = some (ea, n) →
    ea.toNat % n = 0 → (∀ j < n, s.mapped (ea.toNat + j) = true) → (∃ j < n, s.inText (ea.toNat + j) = true) →
    ((∃ a d, i = .swap a d) → ∀ j < n, (s.byte (ea.toNat + j)).isSome = true) →
    exec i s = .refused .storeToProgramText

/-- R204, R302. The address is the value of GP_1 before the instruction, also when it is GP_DEST. -/
def Obligations.SwapExchanges : Prop :=
  ∀ (a d : Reg) (s : State), (s.x a).toNat % s.cfg.variant.bytes = 0 →
    (∀ j < s.cfg.variant.bytes, s.mapped ((s.x a).toNat + j) = true) →
    (∀ j < s.cfg.variant.bytes, s.inText ((s.x a).toNat + j) = false) →
    (∀ j < s.cfg.variant.bytes, (s.byte ((s.x a).toNat + j)).isSome = true) →
    ∃ t, exec (.swap a d) s = .next t ∧
      (∀ j < s.cfg.variant.bytes, s.byte ((s.x a).toNat + j) = some ((t.x d).extractLsb' (8 * j) 8)) ∧
      (∀ j < s.cfg.variant.bytes, t.byte ((s.x a).toNat + j) = some ((s.x d).extractLsb' (8 * j) 8)) ∧
      (∀ b, (∀ j < s.cfg.variant.bytes, b ≠ (s.x a).toNat + j) → t.byte b = s.byte b) ∧
      KeepsRegs s t [d] ∧ KeepsFlags s t ∧ KeepsRest s t ∧ FallsThrough s t

/-- R204 composed with itself; the registers differ, so that the address is the same both times. -/
def Obligations.SwapTwiceRestores : Prop :=
  ∀ (a d : Reg) (s t : State), a ≠ d → exec (.swap a d) s = .next t →
    ∃ u, exec (.swap a d) t = .next u ∧ KeepsRegs s u [] ∧ KeepsMemory s u

/-- R212 to R215. -/
def Obligations.JumpsGoAndLink : Prop :=
  ∀ (a d : Reg) (imm : BitVec 15) (s : State),
    (∃ t, exec (.jalr a d) s = .next t ∧ t.pc = s.x a ∧ (t.x d).toNat = (s.pc.toNat + 4) % 2 ^ s.xlen ∧
      KeepsRegs s t [d] ∧ KeepsFlags s t ∧ KeepsMemory s t ∧ KeepsRest s t) ∧
    (∃ t, exec (.jwlr a) s = .next t ∧ t.pc = s.x a ∧ MovesOnly s t) ∧
    (∃ t, exec (.jali d imm) s = .next t ∧
      (t.pc.toNat : Int) = (s.pc.toNat + immValue s.cfg.immOffsetExt imm) % 2 ^ s.xlen ∧
      (t.x d).toNat = (s.pc.toNat + 4) % 2 ^ s.xlen ∧
      KeepsRegs s t [d] ∧ KeepsFlags s t ∧ KeepsMemory s t ∧ KeepsRest s t)

/-- R210, R211, R216 to R218. `Branches` states the three cases: taken, taken to a misaligned target, not taken. -/
def Obligations.BranchesOnEquality : Prop :=
  ∀ (a b r : Reg) (s : State),
    Branches (.be a b r) s (s.x a = s.x b) r ∧ Branches (.bne a b r) s (s.x a ≠ s.x b) r

/-- R211, R216, R219 to R222. -/
def Obligations.BranchesOnOrder : Prop :=
  ∀ (a b r : Reg) (s : State),
    Branches (.bgt a b r) s (readAs s.cfg.branchCmp s.cfg.variant (s.x b) < readAs s.cfg.branchCmp s.cfg.variant (s.x a)) r ∧
    Branches (.bgte a b r) s (readAs s.cfg.branchCmp s.cfg.variant (s.x b) ≤ readAs s.cfg.branchCmp s.cfg.variant (s.x a)) r ∧
    Branches (.blt a b r) s (readAs s.cfg.branchCmp s.cfg.variant (s.x a) < readAs s.cfg.branchCmp s.cfg.variant (s.x b)) r ∧
    Branches (.blte a b r) s (readAs s.cfg.branchCmp s.cfg.variant (s.x a) ≤ readAs s.cfg.branchCmp s.cfg.variant (s.x b)) r

/-- R211, R223 to R226. -/
def Obligations.BranchesOnFlags : Prop :=
  ∀ (r : Reg) (s : State),
    Branches (.bz r) s (s.core.flags.z = true) r ∧ Branches (.bnz r) s (s.core.flags.z = false) r ∧
    Branches (.bc r) s (s.core.flags.c = true) r ∧ Branches (.bo r) s (s.core.flags.v = true) r

/-- R216: two readings agree on non-negative operands; R120: so do the two settings of DIV_SIGNED on a nonzero divisor. On a zero
divisor, which the premises admit, R120 gives no quotient: that DIV completes there, with one and the same free value under both
settings, is the model's choice (log 4). -/
def Obligations.NonNegativeOperandsAgree : Prop :=
  ∀ (a b r : Reg) (s : State) (cmp cmp' : Comparison) (div div' : Bool),
    0 ≤ signed s.cfg.variant (s.x a) → 0 ≤ signed s.cfg.variant (s.x b) →
    ∀ i ∈ [Instr.bgt a b r, .bgte a b r, .blt a b r, .blte a b r, .div a b r],
      exec i (s.withReading cmp div) = onNext (exec i (s.withReading cmp' div')) (fun t => t.withReading cmp div)

/-- R237. -/
def Obligations.NopOnlyAdvances : Prop :=
  (∀ s : State, ∃ t, exec .nop s = .next t ∧ FallsThrough s t ∧ MovesOnly s t) ∧
    ∀ (x : Variant) (map : List Region) (halt : Word),
      decode (Config.default x map halt) 0x00000060 = .ok .nop ∧
      decode (Config.default x map halt) 0x00000000 = .ok (.addi 0 0 0)

/-- R235, R238, R239, R242. The inputs are fields of the model's own, refilled with free values (log 5). -/
def Obligations.WaitsRetireOnInput : Prop :=
  ∀ s : State,
    (∃ t, exec .wfi s = .next t ∧ (if s.core.irqIn then FallsThrough s t else t.pc = s.pc) ∧
      KeepsRegs s t [] ∧ KeepsFlags s t ∧ KeepsMemory s t ∧ t.cfg = s.cfg ∧ t.others = s.others ∧
      t.core.eventIn = s.core.eventIn ∧ t.draws = s.draws + 1) ∧
    (∃ t, exec .wfe s = .next t ∧ (if s.core.eventIn then FallsThrough s t else t.pc = s.pc) ∧
      KeepsRegs s t [] ∧ KeepsFlags s t ∧ KeepsMemory s t ∧ t.cfg = s.cfg ∧ t.others = s.others ∧
      t.core.irqIn = s.core.irqIn ∧ t.draws = s.draws + 1)

/-- R235, R240, R241. -/
def Obligations.SendEventWakesOthers : Prop :=
  ∀ s : State,
    (∃ t, exec .se s = .next t ∧ FallsThrough s t ∧ KeepsRegs s t [] ∧ KeepsFlags s t ∧ KeepsMemory s t ∧ t.cfg = s.cfg ∧
      t.core.irqIn = s.core.irqIn ∧ t.core.eventIn = s.core.eventIn ∧ t.draws = s.draws ∧
      t.others.length = s.others.length ∧
      (∀ (k : Nat) (c : Core), s.others[k]? = some c →
        ((s.ended c = false ∧ ∃ w, s.fetchAt (fit s.cfg.variant c.pc) = .ok w ∧ decode s.cfg w = .ok .wfe) →
          t.others[k]? = some { c with eventIn := true }) ∧
        (¬(s.ended c = false ∧ ∃ w, s.fetchAt (fit s.cfg.variant c.pc) = .ok w ∧ decode s.cfg w = .ok .wfe) →
          t.others[k]? = some c)) ∧
      (s.others = [] → MovesOnly s t)) ∧
    (∃ t, exec .sle s = .next t ∧ FallsThrough s t ∧ MovesOnly s t)

/-- R235: none reads or writes a general purpose register or a flag, none writes memory, none raises an exception. -/
def Obligations.HintsActAsNop : Prop :=
  ∀ (i : Instr) (s : State) (g : Vector Word 32) (f : Flags), i ∈ [Instr.nop, .wfi, .wfe, .se, .sle] →
    (∃ t, exec i s = .next t ∧ KeepsRegs s t [] ∧ KeepsFlags s t ∧ KeepsMemory s t) ∧
    exec i { s with core := { s.core with gp := g, flags := f } } =
      onNext (exec i s) (fun t => { t with core := { t.core with gp := g, flags := f } })

/-- R92, R196 to R203: the X-format, the OPCODEs and the refusal are the spec's own decision D18 (the manual gives names only). -/
def Obligations.UndescribedAreRefused : Prop :=
  (∀ (i : Instr) (s : State), i.undescribed = true → exec i s = .refused (.noSemantics i.mnemonic)) ∧
    ∀ (x : Variant) (map : List Region) (halt : Word) (w : BitVec 32),
      ∀ p ∈ [(0x40#7, Mnemonic.lwp), (0x41#7, .swp), (0x42#7, .lhp), (0x43#7, .shp), (0x44#7, .lbp), (0x45#7, .sbp), (0x47#7, .cas)],
        w.extractLsb' 0 7 = p.1 → ∃ i, decode (Config.default x map halt) w = .ok i ∧ i.mnemonic = p.2
end

