-- ==== Sys2Proof/Laws/Bits.lean ====
section
/-! SUPPORT. The readings and narrowings of R10 as numbers: what `trunc`, `truncInt`, `fit`, `signed` and `extend` give, their ranges, and
how they compose. -/

namespace Sys2Proof

theorem Variant.bits_le (x : Variant) : x.bits ≤ 128 := by cases x <;> decide

theorem Variant.bits_ge (x : Variant) : 32 ≤ x.bits := by cases x <;> decide

theorem Variant.bits_eq (x : Variant) : x.bits = 8 * x.bytes := by cases x <;> rfl

theorem Variant.bytes_mem (x : Variant) : x.bytes ∈ [1, 4, 8, 16] := by cases x <;> decide

theorem Variant.two_pow_bits_le (x : Variant) : 2 ^ x.bits ≤ 2 ^ 128 := Nat.pow_le_pow_right (by decide) x.bits_le

theorem Variant.two_pow_bits_ge (x : Variant) : 2 ^ 32 ≤ 2 ^ x.bits := Nat.pow_le_pow_right (by decide) x.bits_ge

/-- `2^XLEN` is a multiple of 4. -/
theorem Variant.four_dvd (x : Variant) : 4 ∣ 2 ^ x.bits := by cases x <;> decide

/-- `2^XLEN` is twice `2^(XLEN-1)`. -/
theorem Variant.two_pow_half (x : Variant) : 2 ^ x.bits = 2 * 2 ^ (x.bits - 1) := by cases x <;> decide

/-- The same over the integers. -/
theorem Variant.two_pow_half_int (x : Variant) : (2 : Int) ^ x.bits = 2 * 2 ^ (x.bits - 1) := by cases x <;> decide

end Sys2Proof

namespace Sys2Proof.Machine

/-! ## trunc, truncInt, fit -/

@[simp] theorem trunc_toNat (x : Variant) (k : Nat) : (trunc x k).toNat = k % 2 ^ x.bits := by
  unfold trunc
  rw [BitVec.toNat_ofNat]
  exact Nat.mod_eq_of_lt (lt_of_lt_of_le (Nat.mod_lt _ (by positivity)) x.two_pow_bits_le)

theorem trunc_lt (x : Variant) (k : Nat) : (trunc x k).toNat < 2 ^ x.bits := by
  rw [trunc_toNat]; exact Nat.mod_lt _ (by positivity)

theorem truncInt_toNat (x : Variant) (k : Int) : ((truncInt x k).toNat : Int) = k % 2 ^ x.bits := by
  have h0 : (0 : Int) ≤ k % 2 ^ x.bits := Int.emod_nonneg _ (by positivity)
  have h1 : k % 2 ^ x.bits < 2 ^ x.bits := Int.emod_lt_of_pos _ (by positivity)
  have h2 : (2 : Int) ^ x.bits ≤ 2 ^ 128 := by exact_mod_cast x.two_pow_bits_le
  unfold truncInt
  rw [BitVec.toNat_ofNat, Nat.mod_eq_of_lt (by omega)]
  exact Int.toNat_of_nonneg h0

theorem truncInt_lt (x : Variant) (k : Int) : (truncInt x k).toNat < 2 ^ x.bits := by
  have h1 : k % 2 ^ x.bits < 2 ^ x.bits := Int.emod_lt_of_pos _ (by positivity)
  rw [← truncInt_toNat] at h1
  exact_mod_cast h1

/-- On a natural number the two narrowings agree. -/
theorem truncInt_natCast (x : Variant) (k : Nat) : truncInt x (k : Int) = trunc x k := by
  apply BitVec.eq_of_toNat_eq
  have h := truncInt_toNat x (k : Int)
  rw [trunc_toNat]
  exact_mod_cast h

@[simp] theorem fit_toNat (x : Variant) (v : Word) : (fit x v).toNat = v.toNat % 2 ^ x.bits := trunc_toNat x _

theorem fit_lt (x : Variant) (v : Word) : (fit x v).toNat < 2 ^ x.bits := trunc_lt x _

theorem fit_of_lt {x : Variant} {v : Word} (h : v.toNat < 2 ^ x.bits) : fit x v = v := by
  apply BitVec.eq_of_toNat_eq; rw [fit_toNat, Nat.mod_eq_of_lt h]

@[simp] theorem fit_fit (x : Variant) (v : Word) : fit x (fit x v) = fit x v := fit_of_lt (fit_lt x v)
@[simp] theorem fit_trunc (x : Variant) (k : Nat) : fit x (trunc x k) = trunc x k := fit_of_lt (trunc_lt x k)
@[simp] theorem fit_truncInt (x : Variant) (k : Int) : fit x (truncInt x k) = truncInt x k := fit_of_lt (truncInt_lt x k)

/-- Bit `k` of a word cut to XLEN bits. -/
theorem fit_getLsbD (x : Variant) (v : Word) (k : Nat) : (fit x v).getLsbD k = (decide (k < x.bits) && v.getLsbD k) := by
  simp only [BitVec.getLsbD, fit_toNat, Nat.testBit_mod_two_pow]

/-! ## Registers and the program counter -/

/-- A register reads as an XLEN-bit value (R21). -/
theorem State.x_lt (s : State) (r : Reg) : (s.x r).toNat < 2 ^ s.cfg.variant.bits := fit_lt _ _

/-- The program counter reads as an XLEN-bit value (R25). -/
theorem State.pc_lt (s : State) : s.pc.toNat < 2 ^ s.cfg.variant.bits := fit_lt _ _

@[simp] theorem State.fit_x (s : State) (r : Reg) : fit s.cfg.variant (s.x r) = s.x r := fit_fit _ _
@[simp] theorem State.fit_pc (s : State) : fit s.cfg.variant s.pc = s.pc := fit_fit _ _
@[simp] theorem State.fit_pcNext (s : State) : fit s.cfg.variant s.pcNext = s.pcNext := fit_trunc _ _

/-- The implicit advance of `pc` (R27). -/
theorem State.advance_fallsThrough (s : State) : s.advance.pc.toNat = (s.pc.toNat + 4) % 2 ^ s.cfg.variant.bits := by
  rw [State.advance, show (s.setPc s.pcNext).pc = fit s.cfg.variant s.pcNext from rfl, State.fit_pcNext]
  exact trunc_toNat _ _

/-! ## The signed reading -/

/-- `s(v)` lies in `[-2^(XLEN-1), 2^(XLEN-1))` (R10). -/
theorem signed_range (x : Variant) (v : Word) (h : v.toNat < 2 ^ x.bits) :
    -2 ^ (x.bits - 1) ≤ signed x v ∧ signed x v < 2 ^ (x.bits - 1) := by
  have h1 : (v.toNat : Int) < 2 ^ x.bits := by exact_mod_cast h
  have h2 := x.two_pow_half_int
  unfold signed signedOf
  split
  · rename_i h3
    have h4 : (v.toNat : Int) < 2 ^ (x.bits - 1) := by exact_mod_cast h3
    constructor <;> omega
  · rename_i h3
    have h4 : (2 : Int) ^ (x.bits - 1) ≤ v.toNat := by exact_mod_cast not_lt.mp h3
    constructor <;> omega

/-- `s(v)` and `u(v)` differ by a multiple of `2^XLEN` (R10, R122). -/
theorem signed_emod (x : Variant) (v : Word) (h : v.toNat < 2 ^ x.bits) : signed x v % 2 ^ x.bits = v.toNat := by
  have h1 : (v.toNat : Int) < 2 ^ x.bits := by exact_mod_cast h
  unfold signed signedOf
  split
  · exact Int.emod_eq_of_lt (by positivity) h1
  · rw [Int.sub_emod_right]; exact Int.emod_eq_of_lt (by positivity) h1

/-- A value whose signed reading is not negative reads the same both ways (R216). -/
theorem signed_of_nonneg (x : Variant) (v : Word) (h : v.toNat < 2 ^ x.bits) (hs : 0 ≤ signed x v) : signed x v = v.toNat := by
  have h1 : (v.toNat : Int) < 2 ^ x.bits := by exact_mod_cast h
  unfold signed signedOf at hs ⊢
  split
  · rfl
  · rename_i h2; rw [if_neg h2] at hs; omega

/-- The signed reading is injective on XLEN-bit values. -/
theorem signed_inj (x : Variant) (v w : Word) (hv : v.toNat < 2 ^ x.bits) (hw : w.toNat < 2 ^ x.bits)
    (h : signed x v = signed x w) : v = w := by
  apply BitVec.eq_of_toNat_eq
  have := signed_emod x v hv
  rw [h, signed_emod x w hw] at this
  exact_mod_cast this.symm

/-- The signed reading of a narrowed integer that fits is that integer (R122 d). -/
theorem signed_truncInt (x : Variant) (k : Int) (h1 : -2 ^ (x.bits - 1) ≤ k) (h2 : k < 2 ^ (x.bits - 1)) :
    signed x (truncInt x k) = k := by
  have hr := signed_range x _ (truncInt_lt x k)
  have hm := signed_emod x _ (truncInt_lt x k)
  rw [truncInt_toNat] at hm
  have hh := x.two_pow_half_int
  have hd := Int.emod_emod_of_dvd k (dvd_refl ((2 : Int) ^ x.bits))
  have : (signed x (truncInt x k) - k) % 2 ^ x.bits = 0 := Int.emod_eq_emod_iff_emod_sub_eq_zero.mp hm
  obtain ⟨q, hq⟩ := Int.dvd_of_emod_eq_zero this
  have hp : (0 : Int) < 2 ^ (x.bits - 1) := by positivity
  have hq0 : q = 0 := by
    rw [hh] at hq
    by_contra hne
    rcases lt_or_gt_of_ne hne with h | h <;> nlinarith
  rw [hq0] at hq
  omega

/-! ## Immediates -/

/-- The two's-complement reading of a field is the one of R10. -/
theorem toInt_eq_signedOf {n : Nat} (imm : BitVec n) (hn : 0 < n) : imm.toInt = signedOf n imm.toNat := by
  have h2 : 2 * 2 ^ (n - 1) = 2 ^ n := by rw [← pow_succ']; congr 1; omega
  simp only [signedOf, BitVec.toInt_eq_toNat_cond]
  split <;> split <;> first | omega | rfl

/-- An extended immediate is its value modulo `2^XLEN`. -/
theorem extend_toNat (e : Extension) (x : Variant) {n : Nat} (imm : BitVec n) (hn : 0 < n) :
    ((extend e x n imm.toNat).toNat : Int) = immValue e imm % 2 ^ x.bits := by
  cases e with
  | zero => simp only [extend, immValue, trunc_toNat]; push_cast; rfl
  | sign =>
    simp only [extend, immValue, truncInt_toNat, toInt_eq_signedOf imm hn]

/-- An immediate narrower than a register, read as signed after the extension, is its value. -/
theorem signed_extend (e : Extension) (x : Variant) {n : Nat} (imm : BitVec n) (hn : 0 < n) (hx : n < x.bits) :
    signed x (extend e x n imm.toNat) = immValue e imm := by
  have hlt := imm.isLt
  have h1 : 2 ^ n ≤ 2 ^ (x.bits - 1) := Nat.pow_le_pow_right (by decide) (by omega)
  have h1' : (2 : Int) ^ n ≤ 2 ^ (x.bits - 1) := by exact_mod_cast h1
  have hlt' : (imm.toNat : Int) < 2 ^ n := by exact_mod_cast hlt
  have h2 : (2 : Int) * 2 ^ (n - 1) = 2 ^ n := by rw [← pow_succ']; congr 1; omega
  cases e with
  | zero =>
    simp only [extend, immValue]
    rw [← truncInt_natCast]
    apply signed_truncInt <;> omega
  | sign =>
    simp only [extend, immValue, toInt_eq_signedOf imm hn]
    apply signed_truncInt <;> · unfold signedOf; split <;> omega

/-- The arithmetic immediate, unsigned (R88). -/
theorem extArith_toNat (c : Config) (imm : BitVec 12) :
    ((extArith c imm).toNat : Int) = immValue c.immArithExt imm % 2 ^ c.variant.bits := extend_toNat _ _ imm (by decide)

/-- The arithmetic immediate, signed (R88). -/
theorem signed_extArith (c : Config) (imm : BitVec 12) : signed c.variant (extArith c imm) = immValue c.immArithExt imm :=
  signed_extend _ _ imm (by decide) (by have := c.variant.bits_ge; omega)

/-- The offset immediate (R88). -/
theorem extOff_toNat (c : Config) (imm : BitVec 12) :
    ((extOff c imm).toNat : Int) = immValue c.immOffsetExt imm % 2 ^ c.variant.bits := extend_toNat _ _ imm (by decide)

/-- The offset immediate of JALI (R89). -/
theorem extOffJump_toNat (c : Config) (imm : BitVec 15) :
    ((extOffJump c imm).toNat : Int) = immValue c.immOffsetExt imm % 2 ^ c.variant.bits := extend_toNat _ _ imm (by decide)

theorem extend_lt (e : Extension) (x : Variant) (bits k : Nat) : (extend e x bits k).toNat < 2 ^ x.bits := by
  cases e
  · exact trunc_lt x _
  · exact truncInt_lt x _

/-! ## Address arithmetic -/

@[simp] theorem addWrap_toNat (x : Variant) (a b : Word) : (addWrap x a b).toNat = (a.toNat + b.toNat) % 2 ^ x.bits :=
  trunc_toNat x _

theorem addWrap_lt (x : Variant) (a b : Word) : (addWrap x a b).toNat < 2 ^ x.bits := trunc_lt x _

end Sys2Proof.Machine
end

