-- ==== Sys2Proof/Laws/Memory.lean ====
section
/-! SUPPORT. The laws of the memory list: a read after a write, the canonical form kept by every operation, and the lists of addresses
and bytes that an access runs over. -/

namespace Sys2Proof.Machine

/-! ## One byte -/

theorem Memory.read_write_same (m : Memory) (a : Nat) (b : Byte) : Memory.read (Memory.write m a b) a = some b := by
  induction m with
  | nil => simp [Memory.write, Memory.read]
  | cons p m ih =>
    obtain ⟨k, v⟩ := p
    unfold Memory.write
    split
    · simp [Memory.read]
    · split
      · simp [Memory.read]
      · rw [Memory.read, if_neg (by assumption), if_neg (by assumption), ih]

theorem Memory.read_write_other (m : Memory) (a c : Nat) (b : Byte) (h : c ≠ a) :
    Memory.read (Memory.write m a b) c = Memory.read m c := by
  induction m with
  | nil => simp [Memory.write, Memory.read, h]
  | cons p m ih =>
    obtain ⟨k, v⟩ := p
    unfold Memory.write
    split
    · simp only [Memory.read, if_neg h]
      split
      · rw [if_neg (by omega), if_pos (by omega)]
      · rfl
    · split
      · subst k; simp only [Memory.read, if_neg h]
      · simp only [Memory.read, ih]

/-- Every entry of a memory after a write is the new one or an old one. -/
theorem Memory.mem_write {m : Memory} {a : Nat} {b : Byte} {p : Host.Cell} (h : p ∈ Memory.write m a b) :
    p = (a, b) ∨ p ∈ m := by
  induction m with
  | nil => simpa [Memory.write] using h
  | cons q m ih =>
    obtain ⟨k, v⟩ := q
    unfold Memory.write at h
    split at h
    · simpa using h
    · split at h
      · simp only [List.mem_cons] at h ⊢; tauto
      · simp only [List.mem_cons] at h ⊢
        rcases h with h | h
        · exact .inr (.inl h)
        · rcases ih h with h | h
          · exact .inl h
          · exact .inr (.inr h)

/-! ## The canonical form -/

/-- The canonical form, entry by entry: the first address lies below all others, which are in canonical form. -/
theorem Memory.wf_cons (p : Host.Cell) (m : Memory) :
    Memory.wf (p :: m) = true ↔ (∀ q ∈ m, p.1 < q.1) ∧ Memory.wf m = true := by
  induction m generalizing p with
  | nil => simp [Memory.wf]
  | cons q m ih =>
    simp only [Memory.wf, Bool.and_eq_true, decide_eq_true_eq, List.mem_cons, forall_eq_or_imp]
    constructor
    · rintro ⟨h1, h2⟩
      exact ⟨⟨h1, fun r hr => lt_trans h1 (((ih q).mp h2).1 r hr)⟩, h2⟩
    · rintro ⟨⟨h1, -⟩, h2⟩
      exact ⟨h1, h2⟩

theorem Memory.wf_write (m : Memory) (a : Nat) (b : Byte) (h : Memory.wf m = true) :
    Memory.wf (Memory.write m a b) = true := by
  induction m with
  | nil => rfl
  | cons p m ih =>
    obtain ⟨k, v⟩ := p
    obtain ⟨h1, h2⟩ := (Memory.wf_cons _ _).mp h
    unfold Memory.write
    split
    · refine (Memory.wf_cons _ _).mpr ⟨?_, h⟩
      simp only [List.mem_cons, forall_eq_or_imp]
      exact ⟨by assumption, fun q hq => lt_trans (by assumption) (h1 q hq)⟩
    · split
      · subst k; exact (Memory.wf_cons _ _).mpr ⟨h1, h2⟩
      · refine (Memory.wf_cons _ _).mpr ⟨fun q hq => ?_, ih h2⟩
        rcases Memory.mem_write hq with rfl | hq
        · simp only; omega
        · exact h1 q hq

theorem Memory.wf_writeAll (m : Memory) (cells : List Host.Cell) (h : Memory.wf m = true) :
    Memory.wf (Memory.writeAll m cells) = true := by
  induction cells generalizing m with
  | nil => exact h
  | cons p cells ih => exact ih _ (Memory.wf_write m p.1 p.2 h)

/-- In canonical form a byte reads as some value exactly when its pair is listed. -/
theorem Memory.read_eq_some {m : Memory} (h : Memory.wf m = true) (a : Nat) (b : Byte) :
    Memory.read m a = some b ↔ (a, b) ∈ m := by
  induction m with
  | nil => simp [Memory.read, Memory.unlisted]
  | cons p m ih =>
    obtain ⟨k, v⟩ := p
    obtain ⟨h1, h2⟩ := (Memory.wf_cons _ _).mp h
    simp only [Memory.read, List.mem_cons, Prod.mk.injEq, Memory.unlisted]
    split
    · subst k
      have : (a, b) ∉ m := fun hm => absurd (h1 _ hm) (lt_irrefl _)
      simp [this, eq_comm]
    · split
      · simp only [reduceCtorEq, false_iff, not_or, not_and]
        refine ⟨fun e => absurd e (by assumption), fun hm => ?_⟩
        have := h1 _ hm
        simp only at this
        omega
      · rw [ih h2]; simp [*]

/-! ## Several bytes -/

theorem Memory.mem_writeAll {m : Memory} {cells : List Host.Cell} {p : Host.Cell}
    (h : p ∈ Memory.writeAll m cells) : p ∈ cells ∨ p ∈ m := by
  induction cells generalizing m with
  | nil => exact .inr h
  | cons q cells ih =>
    rcases ih (m := Memory.write m q.1 q.2) h with h | h
    · exact .inl (List.mem_cons_of_mem _ h)
    · rcases Memory.mem_write h with h | h
      · exact .inl (by simp [h])
      · exact .inr h

/-- A byte outside the addresses written reads as before. -/
theorem Memory.read_writeAll_other (m : Memory) (cells : List Host.Cell) (c : Nat) (h : c ∉ cells.map Prod.fst) :
    Memory.read (Memory.writeAll m cells) c = Memory.read m c := by
  induction cells generalizing m with
  | nil => rfl
  | cons p cells ih =>
    simp only [List.map_cons, List.mem_cons, not_or] at h
    exact (ih _ h.2).trans (Memory.read_write_other m p.1 c p.2 h.1)

/-- A byte written once reads as what was written. -/
theorem Memory.read_writeAll_mem (m : Memory) (cells : List Host.Cell) (hn : (cells.map Prod.fst).Nodup)
    (p : Host.Cell) (h : p ∈ cells) : Memory.read (Memory.writeAll m cells) p.1 = some p.2 := by
  induction cells generalizing m with
  | nil => simp at h
  | cons q cells ih =>
    simp only [List.map_cons, List.nodup_cons] at hn
    rcases List.mem_cons.mp h with rfl | h
    · exact (Memory.read_writeAll_other _ cells p.1 hn.1).trans (Memory.read_write_same m p.1 p.2)
    · exact ih _ hn.2 h

/-- A byte written somewhere in a list of writes holds a value. -/
theorem Memory.read_writeAll_isSome (m : Memory) (cells : List Host.Cell) (c : Nat)
    (h : c ∈ cells.map Prod.fst ∨ (Memory.read m c).isSome = true) :
    (Memory.read (Memory.writeAll m cells) c).isSome = true := by
  induction cells generalizing m with
  | nil => exact h.resolve_left (by simp)
  | cons p cells ih =>
    refine ih _ ?_
    simp only [List.map_cons, List.mem_cons] at h
    by_cases hc : c = p.1
    · exact .inr (by rw [hc, Memory.read_write_same]; rfl)
    · rcases h with (h | h) | h
      · exact absurd h hc
      · exact .inl h
      · exact .inr (by rwa [Memory.read_write_other m p.1 c p.2 hc])

/-! ## The bytes of a number -/

@[simp] theorem bytesOf_length (n v : Nat) : (bytesOf n v).length = n := by
  induction n generalizing v with
  | zero => rfl
  | succ n ih => simp [bytesOf, ih]

theorem littleEndian_lt (bs : List Byte) : littleEndian bs < 256 ^ bs.length := by
  induction bs with
  | nil => simp [littleEndian]
  | cons b bs ih =>
    have := b.isLt
    simp only [littleEndian, List.length_cons, pow_succ]
    omega

theorem littleEndian_bytesOf (n v : Nat) : littleEndian (bytesOf n v) = v % 256 ^ n := by
  induction n generalizing v with
  | zero => simp [bytesOf, littleEndian, Nat.mod_one]
  | succ n ih =>
    rw [bytesOf, littleEndian, ih, BitVec.toNat_ofNat, Nat.pow_succ' (m := 256), Nat.mod_mul]

/-- Byte `i` of a number is its bits `8i + 7` down to `8i` (R56). -/
theorem bytesOf_getElem (n v i : Nat) (h : i < n) :
    (bytesOf n v)[i]'(by simpa using h) = BitVec.ofNat 8 (v / 256 ^ i) := by
  induction n generalizing v i with
  | zero => omega
  | succ n ih =>
    cases i with
    | zero => simp [bytesOf]
    | succ i =>
      simp only [bytesOf, List.getElem_cons_succ]
      rw [ih (v / 256) i (by omega), Nat.div_div_eq_div_mul, pow_succ, mul_comm]

/-- Bit `k` of the number a list of bytes stands for is bit `k mod 8` of byte `k / 8` (R52). -/
theorem littleEndian_testBit (bs : List Byte) (k : Nat) (h : k / 8 < bs.length) :
    (littleEndian bs).testBit k = bs[k / 8].getLsbD (k % 8) := by
  induction bs generalizing k with
  | nil => simp at h
  | cons b bs ih =>
    have hb := b.isLt
    simp only [littleEndian]
    rw [show (256 : Nat) = 2 ^ 8 from rfl, add_comm, Nat.testBit_two_pow_mul_add _ hb]
    split
    · have h0 : k / 8 = 0 := by omega
      simp only [h0, List.getElem_cons_zero, BitVec.getLsbD]
      rw [Nat.mod_eq_of_lt (by omega)]
    · have h1 : k / 8 = (k - 8) / 8 + 1 := by omega
      simp only [h1, List.getElem_cons_succ]
      rw [ih (k - 8) (by simp only [List.length_cons] at h; omega), show (k - 8) % 8 = k % 8 by omega]

/-! ## The addresses of an access -/

theorem mem_byteAddresses {x : Variant} {addr : Word} {n a : Nat} :
    a ∈ byteAddresses x addr n ↔ ∃ i, i < n ∧ a = (addr.toNat + i) % 2 ^ x.bits := by
  simp [byteAddresses, eq_comm]

@[simp] theorem byteAddresses_length (x : Variant) (addr : Word) (n : Nat) : (byteAddresses x addr n).length = n := by
  simp [byteAddresses]

@[simp] theorem byteAddresses_getElem (x : Variant) (addr : Word) (n i : Nat) (h : i < (byteAddresses x addr n).length) :
    (byteAddresses x addr n)[i] = (addr.toNat + i) % 2 ^ x.bits := by
  simp [byteAddresses]

/-- The bytes of an access are distinct addresses, as no access is longer than the address space. -/
theorem byteAddresses_nodup (x : Variant) (addr : Word) (n : Nat) (h : n ≤ 2 ^ x.bits) : (byteAddresses x addr n).Nodup := by
  unfold byteAddresses
  refine List.Nodup.map_on ?_ List.nodup_range
  intro i hi j hj hij
  simp only [List.mem_range] at hi hj
  have hm : i ≡ j [MOD 2 ^ x.bits] := Nat.ModEq.add_left_cancel' addr.toNat hij
  rwa [Nat.ModEq, Nat.mod_eq_of_lt (by omega), Nat.mod_eq_of_lt (by omega)] at hm

/-- The bytes of an aligned access of 1, 4, 8 or 16 bytes at an XLEN-bit address do not wrap (R63). -/
theorem byteAddresses_aligned (x : Variant) (addr : Word) (n i : Nat) (hn : n ∈ [1, 4, 8, 16]) (ha : addr.toNat % n = 0)
    (hlt : addr.toNat < 2 ^ x.bits) (hi : i < n) : (addr.toNat + i) % 2 ^ x.bits = addr.toNat + i := by
  apply Nat.mod_eq_of_lt
  simp only [List.mem_cons, List.not_mem_nil, or_false] at hn
  rcases hn with rfl | rfl | rfl | rfl <;> cases x <;> simp only [Variant.bits] at hlt ⊢ <;> omega

end Sys2Proof.Machine
end

