-- ==== Sys2Proof/Laws/State.lean ====
section
/-! SUPPORT. One lemma per field per update of State, and what each update does to the readings of registers, of the program counter and
of a byte, so that no proof unfolds a record update. -/

namespace Sys2Proof.Machine

/-! ## setX -/

@[simp] theorem State.setX_cfg (s : State) (i : Reg) (v : Word) : (s.setX i v).cfg = s.cfg := rfl
@[simp] theorem State.setX_pc (s : State) (i : Reg) (v : Word) : (s.setX i v).core.pc = s.core.pc := rfl
@[simp] theorem State.setX_gp (s : State) (i : Reg) (v : Word) : (s.setX i v).core.gp = s.core.gp.set i v := rfl
@[simp] theorem State.setX_flags (s : State) (i : Reg) (v : Word) : (s.setX i v).core.flags = s.core.flags := rfl
@[simp] theorem State.setX_irqIn (s : State) (i : Reg) (v : Word) : (s.setX i v).core.irqIn = s.core.irqIn := rfl
@[simp] theorem State.setX_eventIn (s : State) (i : Reg) (v : Word) : (s.setX i v).core.eventIn = s.core.eventIn := rfl
@[simp] theorem State.setX_others (s : State) (i : Reg) (v : Word) : (s.setX i v).others = s.others := rfl
@[simp] theorem State.setX_mem (s : State) (i : Reg) (v : Word) : (s.setX i v).mem = s.mem := rfl
@[simp] theorem State.setX_draws (s : State) (i : Reg) (v : Word) : (s.setX i v).draws = s.draws := rfl

/-! ## setPc -/

@[simp] theorem State.setPc_cfg (s : State) (t : Word) : (s.setPc t).cfg = s.cfg := rfl
@[simp] theorem State.setPc_pc (s : State) (t : Word) : (s.setPc t).core.pc = t := rfl
@[simp] theorem State.setPc_gp (s : State) (t : Word) : (s.setPc t).core.gp = s.core.gp := rfl
@[simp] theorem State.setPc_flags (s : State) (t : Word) : (s.setPc t).core.flags = s.core.flags := rfl
@[simp] theorem State.setPc_irqIn (s : State) (t : Word) : (s.setPc t).core.irqIn = s.core.irqIn := rfl
@[simp] theorem State.setPc_eventIn (s : State) (t : Word) : (s.setPc t).core.eventIn = s.core.eventIn := rfl
@[simp] theorem State.setPc_others (s : State) (t : Word) : (s.setPc t).others = s.others := rfl
@[simp] theorem State.setPc_mem (s : State) (t : Word) : (s.setPc t).mem = s.mem := rfl
@[simp] theorem State.setPc_draws (s : State) (t : Word) : (s.setPc t).draws = s.draws := rfl

/-! ## advance -/

@[simp] theorem State.advance_cfg (s : State) : (s.advance).cfg = s.cfg := rfl
@[simp] theorem State.advance_pc (s : State) : (s.advance).core.pc = s.pcNext := rfl
@[simp] theorem State.advance_gp (s : State) : (s.advance).core.gp = s.core.gp := rfl
@[simp] theorem State.advance_flags (s : State) : (s.advance).core.flags = s.core.flags := rfl
@[simp] theorem State.advance_irqIn (s : State) : (s.advance).core.irqIn = s.core.irqIn := rfl
@[simp] theorem State.advance_eventIn (s : State) : (s.advance).core.eventIn = s.core.eventIn := rfl
@[simp] theorem State.advance_others (s : State) : (s.advance).others = s.others := rfl
@[simp] theorem State.advance_mem (s : State) : (s.advance).mem = s.mem := rfl
@[simp] theorem State.advance_draws (s : State) : (s.advance).draws = s.draws := rfl

/-! ## writeSum -/

@[simp] theorem State.writeSum_cfg (s : State) (d : Reg) (r : Sum) : (s.writeSum d r).cfg = s.cfg := rfl
@[simp] theorem State.writeSum_pc (s : State) (d : Reg) (r : Sum) : (s.writeSum d r).core.pc = s.core.pc := rfl
@[simp] theorem State.writeSum_gp (s : State) (d : Reg) (r : Sum) : (s.writeSum d r).core.gp = s.core.gp.set d r.value := rfl
@[simp] theorem State.writeSum_flags (s : State) (d : Reg) (r : Sum) :
    (s.writeSum d r).core.flags = { s.core.flags with c := r.c, v := r.v, z := r.z } := rfl
@[simp] theorem State.writeSum_irqIn (s : State) (d : Reg) (r : Sum) : (s.writeSum d r).core.irqIn = s.core.irqIn := rfl
@[simp] theorem State.writeSum_eventIn (s : State) (d : Reg) (r : Sum) : (s.writeSum d r).core.eventIn = s.core.eventIn := rfl
@[simp] theorem State.writeSum_others (s : State) (d : Reg) (r : Sum) : (s.writeSum d r).others = s.others := rfl
@[simp] theorem State.writeSum_mem (s : State) (d : Reg) (r : Sum) : (s.writeSum d r).mem = s.mem := rfl
@[simp] theorem State.writeSum_draws (s : State) (d : Reg) (r : Sum) : (s.writeSum d r).draws = s.draws := rfl

/-! ## draw -/

@[simp] theorem State.draw_cfg (s : State) : (s.draw).cfg = s.cfg := rfl
@[simp] theorem State.draw_pc (s : State) : (s.draw).core.pc = s.core.pc := rfl
@[simp] theorem State.draw_gp (s : State) : (s.draw).core.gp = s.core.gp := rfl
@[simp] theorem State.draw_flags (s : State) : (s.draw).core.flags = s.core.flags := rfl
@[simp] theorem State.draw_irqIn (s : State) : (s.draw).core.irqIn = s.core.irqIn := rfl
@[simp] theorem State.draw_eventIn (s : State) : (s.draw).core.eventIn = s.core.eventIn := rfl
@[simp] theorem State.draw_others (s : State) : (s.draw).others = s.others := rfl
@[simp] theorem State.draw_mem (s : State) : (s.draw).mem = s.mem := rfl
@[simp] theorem State.draw_draws (s : State) : (s.draw).draws = s.draws + 1 := rfl

/-! ## storeBytes -/

@[simp] theorem State.storeBytes_cfg (s : State) (addr : Word) (n : Nat) (v : Word) : (s.storeBytes addr n v).cfg = s.cfg := rfl
@[simp] theorem State.storeBytes_pc (s : State) (addr : Word) (n : Nat) (v : Word) : (s.storeBytes addr n v).core.pc = s.core.pc := rfl
@[simp] theorem State.storeBytes_gp (s : State) (addr : Word) (n : Nat) (v : Word) : (s.storeBytes addr n v).core.gp = s.core.gp := rfl
@[simp] theorem State.storeBytes_flags (s : State) (addr : Word) (n : Nat) (v : Word) :
    (s.storeBytes addr n v).core.flags = s.core.flags := rfl
@[simp] theorem State.storeBytes_irqIn (s : State) (addr : Word) (n : Nat) (v : Word) :
    (s.storeBytes addr n v).core.irqIn = s.core.irqIn := rfl
@[simp] theorem State.storeBytes_eventIn (s : State) (addr : Word) (n : Nat) (v : Word) :
    (s.storeBytes addr n v).core.eventIn = s.core.eventIn := rfl
@[simp] theorem State.storeBytes_others (s : State) (addr : Word) (n : Nat) (v : Word) : (s.storeBytes addr n v).others = s.others := rfl
@[simp] theorem State.storeBytes_mem (s : State) (addr : Word) (n : Nat) (v : Word) :
    (s.storeBytes addr n v).mem = Memory.writeAll s.mem ((s.addresses addr n).zip (bytesOf n v.toNat)) := rfl
@[simp] theorem State.storeBytes_draws (s : State) (addr : Word) (n : Nat) (v : Word) : (s.storeBytes addr n v).draws = s.draws := rfl

/-! ## takeIrq -/

@[simp] theorem State.takeIrq_cfg (s : State) : (s.takeIrq).cfg = s.cfg := rfl
@[simp] theorem State.takeIrq_pc (s : State) : (s.takeIrq).core.pc = s.core.pc := rfl
@[simp] theorem State.takeIrq_gp (s : State) : (s.takeIrq).core.gp = s.core.gp := rfl
@[simp] theorem State.takeIrq_flags (s : State) : (s.takeIrq).core.flags = s.core.flags := rfl
@[simp] theorem State.takeIrq_irqIn (s : State) : (s.takeIrq).core.irqIn = Config.freeIrq s.draws := rfl
@[simp] theorem State.takeIrq_eventIn (s : State) : (s.takeIrq).core.eventIn = s.core.eventIn := rfl
@[simp] theorem State.takeIrq_others (s : State) : (s.takeIrq).others = s.others := rfl
@[simp] theorem State.takeIrq_mem (s : State) : (s.takeIrq).mem = s.mem := rfl
@[simp] theorem State.takeIrq_draws (s : State) : (s.takeIrq).draws = s.draws + 1 := rfl

/-! ## takeEvent -/

@[simp] theorem State.takeEvent_cfg (s : State) : (s.takeEvent).cfg = s.cfg := rfl
@[simp] theorem State.takeEvent_pc (s : State) : (s.takeEvent).core.pc = s.core.pc := rfl
@[simp] theorem State.takeEvent_gp (s : State) : (s.takeEvent).core.gp = s.core.gp := rfl
@[simp] theorem State.takeEvent_flags (s : State) : (s.takeEvent).core.flags = s.core.flags := rfl
@[simp] theorem State.takeEvent_irqIn (s : State) : (s.takeEvent).core.irqIn = s.core.irqIn := rfl
@[simp] theorem State.takeEvent_eventIn (s : State) : (s.takeEvent).core.eventIn = Config.freeEvent s.draws := rfl
@[simp] theorem State.takeEvent_others (s : State) : (s.takeEvent).others = s.others := rfl
@[simp] theorem State.takeEvent_mem (s : State) : (s.takeEvent).mem = s.mem := rfl
@[simp] theorem State.takeEvent_draws (s : State) : (s.takeEvent).draws = s.draws + 1 := rfl

/-! ## sendEvent -/

@[simp] theorem State.sendEvent_cfg (s : State) : (s.sendEvent).cfg = s.cfg := rfl
@[simp] theorem State.sendEvent_pc (s : State) : (s.sendEvent).core.pc = s.core.pc := rfl
@[simp] theorem State.sendEvent_gp (s : State) : (s.sendEvent).core.gp = s.core.gp := rfl
@[simp] theorem State.sendEvent_flags (s : State) : (s.sendEvent).core.flags = s.core.flags := rfl
@[simp] theorem State.sendEvent_irqIn (s : State) : (s.sendEvent).core.irqIn = s.core.irqIn := rfl
@[simp] theorem State.sendEvent_eventIn (s : State) : (s.sendEvent).core.eventIn = s.core.eventIn := rfl
@[simp] theorem State.sendEvent_others (s : State) :
    (s.sendEvent).others = s.others.map (fun c => if s.atWfe c then { c with eventIn := true } else c) := rfl
@[simp] theorem State.sendEvent_mem (s : State) : (s.sendEvent).mem = s.mem := rfl
@[simp] theorem State.sendEvent_draws (s : State) : (s.sendEvent).draws = s.draws := rfl

/-! ## withK -/

@[simp] theorem State.withK_cfg (s : State) (b : Bool) : (s.withK b).cfg = s.cfg := rfl
@[simp] theorem State.withK_pc (s : State) (b : Bool) : (s.withK b).core.pc = s.core.pc := rfl
@[simp] theorem State.withK_gp (s : State) (b : Bool) : (s.withK b).core.gp = s.core.gp := rfl
@[simp] theorem State.withK_flags (s : State) (b : Bool) : (s.withK b).core.flags = { s.core.flags with k := b } := rfl
@[simp] theorem State.withK_irqIn (s : State) (b : Bool) : (s.withK b).core.irqIn = s.core.irqIn := rfl
@[simp] theorem State.withK_eventIn (s : State) (b : Bool) : (s.withK b).core.eventIn = s.core.eventIn := rfl
@[simp] theorem State.withK_others (s : State) (b : Bool) : (s.withK b).others = s.others := rfl
@[simp] theorem State.withK_mem (s : State) (b : Bool) : (s.withK b).mem = s.mem := rfl
@[simp] theorem State.withK_draws (s : State) (b : Bool) : (s.withK b).draws = s.draws := rfl
/-! ## Readings -/

@[simp] theorem State.setX_x (s : State) (i : Reg) (v : Word) (r : Reg) :
    (s.setX i v).x r = if r = i then fit s.cfg.variant v else s.x r := by
  have h : (s.core.gp.set i.val v i.isLt)[r] = if r = i then v else s.core.gp[r] := by
    simp only [Fin.getElem_fin, Vector.getElem_set, Fin.ext_iff, eq_comm]
  unfold State.x
  simp only [State.setX_cfg, State.setX_gp, h]
  split <;> rfl

@[simp] theorem State.writeSum_x (s : State) (d : Reg) (q : Sum) (r : Reg) :
    (s.writeSum d q).x r = if r = d then fit s.cfg.variant q.value else s.x r :=
  State.setX_x s d q.value r

@[simp] theorem State.setPc_x (s : State) (t : Word) (r : Reg) : (s.setPc t).x r = s.x r := rfl
@[simp] theorem State.advance_x (s : State) (r : Reg) : s.advance.x r = s.x r := rfl
@[simp] theorem State.draw_x (s : State) (r : Reg) : s.draw.x r = s.x r := rfl
@[simp] theorem State.storeBytes_x (s : State) (addr : Word) (n : Nat) (v : Word) (r : Reg) :
    (s.storeBytes addr n v).x r = s.x r := rfl
@[simp] theorem State.takeIrq_x (s : State) (r : Reg) : s.takeIrq.x r = s.x r := rfl
@[simp] theorem State.takeEvent_x (s : State) (r : Reg) : s.takeEvent.x r = s.x r := rfl
@[simp] theorem State.sendEvent_x (s : State) (r : Reg) : s.sendEvent.x r = s.x r := rfl
@[simp] theorem State.withK_x (s : State) (b : Bool) (r : Reg) : (s.withK b).x r = s.x r := rfl

@[simp] theorem State.setX_readPc (s : State) (i : Reg) (v : Word) : (s.setX i v).pc = s.pc := rfl
@[simp] theorem State.setPc_readPc (s : State) (t : Word) : (s.setPc t).pc = fit s.cfg.variant t := rfl
@[simp] theorem State.advance_readPc (s : State) : s.advance.pc = fit s.cfg.variant s.pcNext := rfl
@[simp] theorem State.writeSum_readPc (s : State) (d : Reg) (q : Sum) : (s.writeSum d q).pc = s.pc := rfl
@[simp] theorem State.draw_readPc (s : State) : s.draw.pc = s.pc := rfl
@[simp] theorem State.storeBytes_readPc (s : State) (addr : Word) (n : Nat) (v : Word) : (s.storeBytes addr n v).pc = s.pc := rfl
@[simp] theorem State.takeIrq_readPc (s : State) : s.takeIrq.pc = s.pc := rfl
@[simp] theorem State.takeEvent_readPc (s : State) : s.takeEvent.pc = s.pc := rfl
@[simp] theorem State.sendEvent_readPc (s : State) : s.sendEvent.pc = s.pc := rfl
@[simp] theorem State.withK_readPc (s : State) (b : Bool) : (s.withK b).pc = s.pc := rfl

@[simp] theorem State.setX_pcNext (s : State) (i : Reg) (v : Word) : (s.setX i v).pcNext = s.pcNext := rfl
@[simp] theorem State.writeSum_pcNext (s : State) (d : Reg) (q : Sum) : (s.writeSum d q).pcNext = s.pcNext := rfl
@[simp] theorem State.draw_pcNext (s : State) : s.draw.pcNext = s.pcNext := rfl
@[simp] theorem State.storeBytes_pcNext (s : State) (addr : Word) (n : Nat) (v : Word) :
    (s.storeBytes addr n v).pcNext = s.pcNext := rfl
@[simp] theorem State.takeIrq_pcNext (s : State) : s.takeIrq.pcNext = s.pcNext := rfl
@[simp] theorem State.takeEvent_pcNext (s : State) : s.takeEvent.pcNext = s.pcNext := rfl
@[simp] theorem State.sendEvent_pcNext (s : State) : s.sendEvent.pcNext = s.pcNext := rfl
@[simp] theorem State.withK_pcNext (s : State) (b : Bool) : (s.withK b).pcNext = s.pcNext := rfl

@[simp] theorem State.setX_byte (s : State) (i : Reg) (v : Word) (a : Nat) : (s.setX i v).byte a = s.byte a := rfl
@[simp] theorem State.setPc_byte (s : State) (t : Word) (a : Nat) : (s.setPc t).byte a = s.byte a := rfl
@[simp] theorem State.advance_byte (s : State) (a : Nat) : s.advance.byte a = s.byte a := rfl
@[simp] theorem State.writeSum_byte (s : State) (d : Reg) (q : Sum) (a : Nat) : (s.writeSum d q).byte a = s.byte a := rfl
@[simp] theorem State.draw_byte (s : State) (a : Nat) : s.draw.byte a = s.byte a := rfl
@[simp] theorem State.takeIrq_byte (s : State) (a : Nat) : s.takeIrq.byte a = s.byte a := rfl
@[simp] theorem State.takeEvent_byte (s : State) (a : Nat) : s.takeEvent.byte a = s.byte a := rfl
@[simp] theorem State.sendEvent_byte (s : State) (a : Nat) : s.sendEvent.byte a = s.byte a := rfl
@[simp] theorem State.withK_byte (s : State) (b : Bool) (a : Nat) : (s.withK b).byte a = s.byte a := rfl

/-! ## The updates keep the address map, being about one state's configuration -/

theorem State.mapped_of_cfg {s t : State} (h : t.cfg = s.cfg) (a : Nat) : t.mapped a = s.mapped a := by
  unfold State.mapped; rw [h]

theorem State.inText_of_cfg {s t : State} (h : t.cfg = s.cfg) (a : Nat) : t.inText a = s.inText a := by
  unfold State.inText; rw [h]

/-! ## Outcomes -/

@[simp] theorem onNext_next (s : State) (f : State → State) : onNext (.next s) f = .next (f s) := rfl
@[simp] theorem onNext_fault (e : Fault) (f : State → State) : onNext (.fault e) f = .fault e := rfl
@[simp] theorem onNext_refused (r : Refusal) (f : State → State) : onNext (.refused r) f = .refused r := rfl
@[simp] theorem andThen_ok {α : Type} (v : α) (k : α → Out) : andThen (.ok v) k = k v := rfl
@[simp] theorem andThen_error {α : Type} (e : Stop) (k : α → Out) : andThen (.error e) k = e.outcome := rfl

end Sys2Proof.Machine
end

