-- ==== Sys2Proof/Laws/Ops.lean ====
section
/-! SUPPORT. For each shared operation, everything it can do, said once: the conditions under which it gives a value or a next state, what
that is, and the stop it ends in otherwise. -/

namespace Sys2Proof.Machine

/-! ## Sequencing -/

/-- A sequence gives a next state only when its first operation gives a value. -/
theorem andThen_next {α : Type} {r : Except Stop α} {k : α → Out} {t : State} (h : andThen r k = .next t) :
    ∃ v, r = .ok v ∧ k v = .next t := by
  cases r with
  | error e => cases e <;> simp [Stop.outcome] at h
  | ok v => exact ⟨v, rfl, h⟩

/-- A sequence faults in its first operation or after it. -/
theorem andThen_fault {α : Type} {r : Except Stop α} {k : α → Out} {f : Fault} (h : andThen r k = .fault f) :
    r = .error (.fault f) ∨ ∃ v, r = .ok v ∧ k v = .fault f := by
  cases r with
  | error e => cases e <;> simp_all [Stop.outcome]
  | ok v => exact .inr ⟨v, rfl, h⟩

/-- A sequence is refused in its first operation or after it. -/
theorem andThen_refused {α : Type} {r : Except Stop α} {k : α → Out} {f : Refusal} (h : andThen r k = .refused f) :
    r = .error (.refuse f) ∨ ∃ v, r = .ok v ∧ k v = .refused f := by
  cases r with
  | error e => cases e <;> simp_all [Stop.outcome]
  | ok v => exact .inr ⟨v, rfl, h⟩

theorem onNext_eq_next {o : Out} {f : State → State} {t : State} (h : onNext o f = .next t) : ∃ u, o = .next u ∧ f u = t := by
  cases o <;> simp_all

/-! ## Reading memory -/

/-- The number the bytes of an access stand for. -/
def State.valueAt (s : State) (addr : Word) (n : Nat) : Nat :=
  littleEndian ((s.addresses addr n).map (fun a => (s.byte a).getD 0))

theorem State.valueAt_lt (s : State) (addr : Word) (n : Nat) : s.valueAt addr n < 256 ^ n := by
  have := littleEndian_lt ((s.addresses addr n).map (fun a => (s.byte a).getD 0))
  rwa [List.length_map, State.addresses, byteAddresses_length] at this

/-- A read gives a value exactly when every byte exists and holds one; it is then the little-endian number of those bytes (R55). -/
theorem State.memRead_eq_ok {s : State} {addr : Word} {n : Nat} {v : Word} :
    s.memRead addr n = .ok v ↔
      (∀ a ∈ s.addresses addr n, s.mapped a = true) ∧ (∀ a ∈ s.addresses addr n, (s.byte a).isSome = true) ∧
        v = BitVec.ofNat 128 (s.valueAt addr n) := by
  unfold State.memRead
  split
  · rename_i h
    have hm := List.all_eq_true.mp h
    split
    · rename_i a ha
      have h1 := List.find?_some ha
      have h2 := List.mem_of_find?_eq_some ha
      simp only [reduceCtorEq, false_iff, not_and]
      intro _ hs
      have := hs a h2
      cases hb : s.byte a <;> simp_all
    · rename_i hn
      have hs : ∀ a ∈ s.addresses addr n, (s.byte a).isSome = true := by
        intro a ha
        have := List.find?_eq_none.mp hn a ha
        cases hb : s.byte a <;> simp_all
      simp only [Except.ok.injEq]
      exact ⟨fun e => ⟨hm, hs, e.symm⟩, fun e => e.2.2.symm⟩
  · rename_i h
    simp only [reduceCtorEq, false_iff, not_and]
    intro hm
    exact absurd (List.all_eq_true.mpr hm) h

/-- A read stops with AccessFault when a byte does not exist, and otherwise at a byte that holds no value (R66). -/
theorem State.memRead_eq_error {s : State} {addr : Word} {n : Nat} {e : Stop} (h : s.memRead addr n = .error e) :
    ((∃ a ∈ s.addresses addr n, s.mapped a = false) ∧ e = .fault (.accessFault addr n)) ∨
      ((∀ a ∈ s.addresses addr n, s.mapped a = true) ∧
        ∃ a ∈ s.addresses addr n, s.byte a = none ∧ e = .fault (.readOfUnwritten a)) := by
  unfold State.memRead at h
  split at h
  · rename_i hm
    split at h
    · rename_i a ha
      simp only [Except.error.injEq] at h
      refine .inr ⟨List.all_eq_true.mp hm, a, List.mem_of_find?_eq_some ha, ?_, h.symm⟩
      simpa using List.find?_some ha
    · simp at h
  · rename_i hm
    simp only [Except.error.injEq] at h
    refine .inl ⟨?_, h.symm⟩
    simpa using hm

/-- A read of a byte that does not exist. -/
theorem State.memRead_unmapped {s : State} {addr : Word} {n a : Nat} (ha : a ∈ s.addresses addr n) (h : s.mapped a = false) :
    s.memRead addr n = .error (.fault (.accessFault addr n)) := by
  unfold State.memRead
  rw [if_neg]
  intro hm
  rw [List.all_eq_true.mp hm a ha] at h
  cases h

/-! ## Writing memory -/

/-- The bytes outside an access read as before its store (R56). -/
theorem State.storeBytes_byte_other (s : State) (addr : Word) (n : Nat) (v : Word) (a : Nat) (h : a ∉ s.addresses addr n) :
    (s.storeBytes addr n v).byte a = s.byte a := by
  refine Memory.read_writeAll_other _ _ _ ?_
  rwa [List.map_fst_zip]
  simp [State.addresses]

/-- The bytes of a store (R56): byte `i` is bits `8i + 7` down to `8i` of the value. -/
theorem State.storeBytes_byte (s : State) (addr : Word) (n : Nat) (v : Word) (i : Nat) (hn : n ≤ 2 ^ s.cfg.variant.bits)
    (hi : i < n) :
    (s.storeBytes addr n v).byte ((addr.toNat + i) % 2 ^ s.cfg.variant.bits) = some (BitVec.ofNat 8 (v.toNat / 256 ^ i)) := by
  have hz : ((s.addresses addr n).zip (bytesOf n v.toNat)).map Prod.fst = s.addresses addr n :=
    List.map_fst_zip (by simp [State.addresses])
  refine Memory.read_writeAll_mem _ _ (by rw [hz]; exact byteAddresses_nodup _ _ _ hn)
    ((addr.toNat + i) % 2 ^ s.cfg.variant.bits, BitVec.ofNat 8 (v.toNat / 256 ^ i)) ?_
  refine List.mem_iff_getElem.mpr ⟨i, by simpa [State.addresses] using hi, ?_⟩
  rw [List.getElem_zip]
  simp only [State.addresses, byteAddresses_getElem, bytesOf_getElem n v.toNat i hi]

/-- A store makes every byte hold a value that held one before. -/
theorem State.storeBytes_byte_isSome (s : State) (addr : Word) (n : Nat) (v : Word) (a : Nat) (h : (s.byte a).isSome = true) :
    ((s.storeBytes addr n v).byte a).isSome = true :=
  Memory.read_writeAll_isSome _ _ _ (.inr h)

/-- A write is made exactly when every byte exists and none is program text (R56, R68). -/
theorem State.memWrite_eq_ok {s t : State} {addr : Word} {n : Nat} {v : Word} :
    s.memWrite addr n v = .ok t ↔
      (∀ a ∈ s.addresses addr n, s.mapped a = true) ∧ (∀ a ∈ s.addresses addr n, s.inText a = false) ∧
        t = s.storeBytes addr n v := by
  unfold State.memWrite
  split
  · rename_i h
    have hm := List.all_eq_true.mp h
    split
    · rename_i ht
      obtain ⟨a, ha, hb⟩ := List.any_eq_true.mp ht
      simp only [reduceCtorEq, false_iff, not_and]
      intro _ hx
      rw [hx a ha] at hb
      cases hb
    · rename_i ht
      have hx : ∀ a ∈ s.addresses addr n, s.inText a = false := by
        intro a ha
        by_contra hc
        exact ht (List.any_eq_true.mpr ⟨a, ha, by simpa using hc⟩)
      simp only [Except.ok.injEq]
      exact ⟨fun e => ⟨hm, hx, e.symm⟩, fun e => e.2.2.symm⟩
  · rename_i h
    simp only [reduceCtorEq, false_iff, not_and]
    intro hm
    exact absurd (List.all_eq_true.mpr hm) h

/-- A write stops with AccessFault when a byte does not exist, and is refused when one is program text (R56, R158). -/
theorem State.memWrite_eq_error {s : State} {addr : Word} {n : Nat} {v : Word} {e : Stop} (h : s.memWrite addr n v = .error e) :
    ((∃ a ∈ s.addresses addr n, s.mapped a = false) ∧ e = .fault (.accessFault addr n)) ∨
      ((∀ a ∈ s.addresses addr n, s.mapped a = true) ∧ (∃ a ∈ s.addresses addr n, s.inText a = true) ∧
        e = .refuse .storeToProgramText) := by
  unfold State.memWrite at h
  split at h
  · rename_i hm
    split at h
    · rename_i ht
      simp only [Except.error.injEq] at h
      exact .inr ⟨List.all_eq_true.mp hm, List.any_eq_true.mp ht, h.symm⟩
    · simp at h
  · rename_i hm
    simp only [Except.error.injEq] at h
    exact .inl ⟨by simpa using hm, h.symm⟩

/-! ## The three memory templates -/

/-- Everything a load can do (R156). -/
theorem load_cases (s : State) (d : Reg) (ea : Word) (n : Nat) :
    (ea.toNat % n ≠ 0 ∧ load s d ea n = .fault (.raised (.misalignedAddress ea))) ∨
      (ea.toNat % n = 0 ∧ ∃ e, s.memRead ea n = .error e ∧ load s d ea n = e.outcome) ∨
      (ea.toNat % n = 0 ∧ ∃ v, s.memRead ea n = .ok v ∧ load s d ea n = .next (s.setX d (extLoad s.cfg n v)).advance) := by
  unfold load
  by_cases h : ea.toNat % n = 0
  · cases hr : s.memRead ea n with
    | error e => exact .inr (.inl ⟨h, e, rfl, by simp [h]⟩)
    | ok v => exact .inr (.inr ⟨h, v, rfl, by simp [h]⟩)
  · exact .inl ⟨h, by simp [h, raise]⟩

/-- Everything a store can do (R157). -/
theorem store_cases (s : State) (data : Reg) (ea : Word) (n : Nat) :
    (ea.toNat % n ≠ 0 ∧ store s data ea n = .fault (.raised (.misalignedAddress ea))) ∨
      (ea.toNat % n = 0 ∧ ∃ e, s.memWrite ea n (s.x data) = .error e ∧ store s data ea n = e.outcome) ∨
      (ea.toNat % n = 0 ∧ s.memWrite ea n (s.x data) = .ok (s.storeBytes ea n (s.x data)) ∧
        store s data ea n = .next (s.storeBytes ea n (s.x data)).advance) := by
  unfold store
  by_cases h : ea.toNat % n = 0
  · cases hr : s.memWrite ea n (s.x data) with
    | error e => exact .inr (.inl ⟨h, e, rfl, by simp [h]⟩)
    | ok t =>
      obtain rfl := (State.memWrite_eq_ok.mp hr).2.2
      exact .inr (.inr ⟨h, rfl, by simp [h]⟩)
  · exact .inl ⟨h, by simp [h, raise]⟩

/-- Everything the exchange of SWAP can do (R204). -/
theorem exchange_cases (s : State) (d : Reg) (ea : Word) (n : Nat) :
    (ea.toNat % n ≠ 0 ∧ exchange s d ea n = .fault (.raised (.misalignedAddress ea))) ∨
      (ea.toNat % n = 0 ∧ ∃ e, s.memRead ea n = .error e ∧ exchange s d ea n = e.outcome) ∨
      (ea.toNat % n = 0 ∧ ∃ v e, s.memRead ea n = .ok v ∧ s.memWrite ea n (s.x d) = .error e ∧ exchange s d ea n = e.outcome) ∨
      (ea.toNat % n = 0 ∧ ∃ v, s.memRead ea n = .ok v ∧ s.memWrite ea n (s.x d) = .ok (s.storeBytes ea n (s.x d)) ∧
        exchange s d ea n = .next ((s.storeBytes ea n (s.x d)).setX d v).advance) := by
  unfold exchange
  by_cases h : ea.toNat % n = 0
  · cases hr : s.memRead ea n with
    | error e => exact .inr (.inl ⟨h, e, rfl, by simp [h]⟩)
    | ok v =>
      cases hw : s.memWrite ea n (s.x d) with
      | error e => exact .inr (.inr (.inl ⟨h, v, e, rfl, rfl, by simp [h]⟩))
      | ok t =>
        obtain rfl := (State.memWrite_eq_ok.mp hw).2.2
        exact .inr (.inr (.inr ⟨h, v, rfl, rfl, by simp [h]⟩))
  · exact .inl ⟨h, by simp [h, raise]⟩

/-! ## Branches -/

/-- Everything a conditional branch can do (R211). -/
theorem branch_cases (s : State) (taken : Bool) (t : Reg) :
    (taken = false ∧ branch s taken t = .next s.advance) ∨
      (taken = true ∧ (s.x t).toNat % 4 = 0 ∧ branch s taken t = .next (s.setPc (s.x t))) ∨
      (taken = true ∧ (s.x t).toNat % 4 ≠ 0 ∧ branch s taken t = .fault (.raised (.branchAddressMisaligned (s.x t)))) := by
  unfold branch
  cases taken
  · exact .inl ⟨rfl, rfl⟩
  · by_cases h : (s.x t).toNat % 4 = 0
    · exact .inr (.inl ⟨rfl, h, by simp [h]⟩)
    · exact .inr (.inr ⟨rfl, h, by simp [h, raise]⟩)

/-! ## Fetch -/

/-- A fetch gives a word exactly when the address is a multiple of 4 and its four bytes are program text that holds values (R75). -/
theorem State.fetchAt_eq_ok {s : State} {pc : Word} {w : BitVec 32} :
    s.fetchAt pc = .ok w ↔
      pc.toNat % 4 = 0 ∧ (∀ a ∈ s.addresses pc 4, s.mapped a = true) ∧ (∀ a ∈ s.addresses pc 4, s.inText a = true) ∧
        (∀ a ∈ s.addresses pc 4, (s.byte a).isSome = true) ∧ w = BitVec.ofNat 32 (s.valueAt pc 4) := by
  have hw : ∀ v : Nat, (BitVec.ofNat 128 v).setWidth 32 = BitVec.ofNat 32 v := by
    intro v; apply BitVec.eq_of_toNat_eq
    simp only [BitVec.toNat_setWidth, BitVec.toNat_ofNat]
    exact Nat.mod_mod_of_dvd v (by decide)
  unfold State.fetchAt
  split
  · rename_i h; simp [h]
  · rename_i h
    have h0 : pc.toNat % 4 = 0 := by simpa using h
    split
    · rename_i hm
      have hm' := List.all_eq_true.mp hm
      split
      · rename_i ht
        have ht' := List.all_eq_true.mp ht
        cases hr : s.memRead pc 4 with
        | error e =>
          simp only [Except.map, reduceCtorEq, false_iff]
          rintro ⟨-, -, -, hb, -⟩
          rw [State.memRead_eq_ok.mpr ⟨hm', hb, rfl⟩] at hr
          cases hr
        | ok v =>
          obtain ⟨-, hb, rfl⟩ := State.memRead_eq_ok.mp hr
          simp only [Except.map, Except.ok.injEq, hw]
          exact ⟨fun e => ⟨h0, hm', ht', hb, e.symm⟩, fun e => e.2.2.2.2.symm⟩
      · rename_i ht
        simp only [reduceCtorEq, false_iff]
        rintro ⟨-, -, ht', -⟩
        exact ht (List.all_eq_true.mpr ht')
    · rename_i hm
      simp only [reduceCtorEq, false_iff]
      rintro ⟨-, hm', -⟩
      exact hm (List.all_eq_true.mpr hm')

/-! ## Several cores -/

/-- The choice of the next core leaves the same cores in another order. -/
theorem chooseNext_perm {α : Type} (c : α) (cs : List α) (k : Nat) :
    ((chooseNext c cs k).1 :: (chooseNext c cs k).2).Perm (c :: cs) := by
  have hp : (rotate (c :: cs) (k % (cs.length + 1))).Perm (c :: cs) := by
    unfold rotate
    exact List.perm_append_comm.trans (by rw [List.take_append_drop])
  unfold chooseNext
  split
  · exact .refl _
  · rename_i h; rwa [h] at hp

@[simp] theorem chooseNext_single {α : Type} (c : α) (k : Nat) : chooseNext c [] k = (c, []) := by
  simp [chooseNext, rotate, Nat.mod_one]

/-- Every core can be the one chosen (R298). -/
theorem chooseNext_reaches {α : Type} (c : α) (cs : List α) (d : α) (h : d ∈ c :: cs) : ∃ k, (chooseNext c cs k).1 = d := by
  obtain ⟨k, hk, rfl⟩ := List.mem_iff_getElem.mp h
  refine ⟨k, ?_⟩
  unfold chooseNext rotate
  rw [Nat.mod_eq_of_lt (by simpa using hk), List.drop_eq_getElem_cons hk, List.cons_append]

/-- The hand-over chooses one of the cores and changes nothing else but the count of free values (R298). -/
theorem State.handOver_spec (s : State) :
    (s.others = [] ∧ s.handOver = s) ∨
      (s.others ≠ [] ∧ (s.handOver.core :: s.handOver.others).Perm (s.core :: s.others) ∧ s.handOver.cfg = s.cfg ∧
        s.handOver.mem = s.mem ∧ s.handOver.draws = s.draws + 1) := by
  unfold State.handOver
  split
  · rename_i h; exact .inl ⟨h, rfl⟩
  · rename_i h; exact .inr ⟨by rw [h]; simp, chooseNext_perm _ _ _, rfl, rfl, rfl⟩

@[simp] theorem State.handOver_cfg (s : State) : s.handOver.cfg = s.cfg := by
  rcases s.handOver_spec with ⟨-, h⟩ | ⟨-, -, h, -⟩
  · rw [h]
  · exact h

@[simp] theorem State.handOver_mem (s : State) : s.handOver.mem = s.mem := by
  rcases s.handOver_spec with ⟨-, h⟩ | ⟨-, -, -, h, -⟩
  · rw [h]
  · exact h

theorem State.handOver_perm (s : State) : (s.handOver.core :: s.handOver.others).Perm (s.core :: s.others) := by
  rcases s.handOver_spec with ⟨-, h⟩ | ⟨-, h, -⟩
  · rw [h]
  · exact h

/-- The first state of a run: the launch's configuration and bytes, and its cores in an order that begins with any of them (R291, R298). -/
theorem State.launch_spec (l : Launch) :
    (State.launch l).cfg = l.cfg ∧ (State.launch l).mem = Memory.writeAll [] l.image ∧ (State.launch l).draws = 0 ∧
      ((State.launch l).core :: (State.launch l).others).Perm ((l.first :: l.others).map Core.launch) :=
  ⟨rfl, rfl, rfl, (chooseNext_perm l.first l.others l.turn).map Core.launch⟩

/-! ## Steps -/

/-- The step of a core that has ended (R296). -/
theorem step_ended {s : State} (h : s.ended s.core = true) : step s = .next s.handOver := by
  unfold step; rw [if_pos h]

/-- The step of a core whose fetch stops. -/
theorem step_fetch_error {s : State} {e : Stop} (h : s.ended s.core = false) (hf : s.fetch = .error e) : step s = e.outcome := by
  unfold step; rw [if_neg (by simp [h]), hf]; rfl

/-- The step of a core whose word is illegal (R96). -/
theorem step_illegal {s : State} {w : BitVec 32} {e : Illegal} (h : s.ended s.core = false) (hf : s.fetch = .ok w)
    (hd : decode s.cfg w = .error e) : step s = .fault (.raised (.illegalInstruction w s.pc)) := by
  unfold step; rw [if_neg (by simp [h]), hf, andThen_ok, hd]; rfl

/-- The step of a core that executes an instruction (R75). -/
theorem step_exec {s : State} {w : BitVec 32} {i : Instr} (h : s.ended s.core = false) (hf : s.fetch = .ok w)
    (hd : decode s.cfg w = .ok i) : step s = onNext (exec i s) State.handOver := by
  unfold step; rw [if_neg (by simp [h]), hf, andThen_ok, hd]

/-- Everything a step that goes on has done: nothing for an ended core, or one decoded instruction. -/
theorem step_next {s t : State} (h : step s = .next t) :
    (s.ended s.core = true ∧ t = s.handOver) ∨
      (s.ended s.core = false ∧ ∃ w i u, s.fetch = .ok w ∧ decode s.cfg w = .ok i ∧ exec i s = .next u ∧ t = u.handOver) := by
  cases he : s.ended s.core with
  | true => rw [step_ended he] at h; exact .inl ⟨rfl, by simpa using h.symm⟩
  | false =>
    refine .inr ⟨rfl, ?_⟩
    unfold step at h
    rw [if_neg (by simp [he])] at h
    obtain ⟨w, hf, h⟩ := andThen_next h
    cases hd : decode s.cfg w with
    | error e => rw [hd] at h; simp [raise] at h
    | ok i =>
      rw [hd] at h
      obtain ⟨u, hu, h⟩ := onNext_eq_next h
      exact ⟨w, i, u, hf, hd, hu, h.symm⟩

end Sys2Proof.Machine
end

