-- ==== Sys2Proof/Laws/Access.lean ====
section
/-! SUPPORT. The data accesses of the 32 loads and stores and of SWAP, as one: their widths and addresses, the operation that makes them,
and the bytes they touch when they are aligned. -/

namespace Sys2Proof.Machine

/-- The bytes of an aligned access follow its address without wrapping (R63). -/
theorem mem_byteAddresses_aligned {x : Variant} {ea : Word} {n : Nat} (hn : n ∈ [1, 4, 8, 16]) (ha : ea.toNat % n = 0)
    (hl : ea.toNat < 2 ^ x.bits) {a : Nat} : a ∈ byteAddresses x ea n ↔ ∃ j, j < n ∧ a = ea.toNat + j := by
  rw [mem_byteAddresses]
  constructor <;> rintro ⟨j, hj, rfl⟩ <;> exact ⟨j, hj, by rw [byteAddresses_aligned x ea n j hn ha hl hj]⟩

/-- A data access is of 1, 4, 8 or 16 bytes at an XLEN-bit address (R54, R155, R204). -/
theorem dataAccess_bounds {s : State} {i : Instr} {ea : Word} {n : Nat} (h : dataAccess s i = some (ea, n)) :
    n ∈ [1, 4, 8, 16] ∧ ea.toNat < 2 ^ s.cfg.variant.bits := by
  cases i <;> simp only [dataAccess, loadAccess, storeAccess, Option.map_some, Option.map_none, Option.some.injEq, Prod.mk.injEq,
    reduceCtorEq] at h
  case swap a d => obtain ⟨rfl, rfl⟩ := h; exact ⟨Variant.bytes_mem _, s.x_lt _⟩
  all_goals (obtain ⟨rfl, rfl⟩ := h; exact ⟨by decide, addWrap_lt _ _ _⟩)

/-- A data access is a load, a store or SWAP, made by the operation of that name. -/
theorem dataAccess_exec {s : State} {i : Instr} {ea : Word} {n : Nat} (h : dataAccess s i = some (ea, n)) :
    (∃ d, loadAccess s i = some (d, ea, n) ∧ exec i s = load s d ea n) ∨
      (∃ r, storeAccess s i = some (r, ea, n) ∧ loadAccess s i = none ∧ exec i s = store s r ea n) ∨
      ∃ a d, i = .swap a d ∧ exec i s = exchange s d ea n ∧ ea = s.x a ∧ n = s.cfg.variant.bytes := by
  cases i <;> simp only [dataAccess, loadAccess, storeAccess, Option.map_some, Option.map_none, Option.some.injEq, Prod.mk.injEq,
    reduceCtorEq] at h
  case swap a d => obtain ⟨rfl, rfl⟩ := h; exact .inr (.inr ⟨a, d, rfl, rfl, rfl, rfl⟩)
  all_goals (obtain ⟨rfl, rfl⟩ := h; first | exact .inl ⟨_, rfl, rfl⟩ | exact .inr (.inl ⟨_, rfl, rfl, rfl⟩))

/-- A load's access is its data access. -/
theorem dataAccess_of_load {s : State} {i : Instr} {d : Reg} {ea : Word} {n : Nat} (h : loadAccess s i = some (d, ea, n)) :
    dataAccess s i = some (ea, n) ∧ exec i s = load s d ea n := by
  cases i <;> simp only [loadAccess, reduceCtorEq, Option.some.injEq, Prod.mk.injEq] at h
  all_goals (obtain ⟨rfl, rfl, rfl⟩ := h; exact ⟨rfl, rfl⟩)

/-- A store's access is its data access. -/
theorem dataAccess_of_store {s : State} {i : Instr} {r : Reg} {ea : Word} {n : Nat} (h : storeAccess s i = some (r, ea, n)) :
    dataAccess s i = some (ea, n) ∧ exec i s = store s r ea n := by
  cases i <;> simp only [storeAccess, reduceCtorEq, Option.some.injEq, Prod.mk.injEq] at h
  all_goals (obtain ⟨rfl, rfl, rfl⟩ := h; exact ⟨rfl, rfl⟩)

/-- An access that exists on the variant is no wider than a register (R59, R98). -/
theorem loadAccess_width {s : State} {i : Instr} {d : Reg} {ea : Word} {n : Nat} (h : loadAccess s i = some (d, ea, n))
    (hw : i.wellFormed s.cfg.variant = true) : 8 * n ≤ s.cfg.variant.bits := by
  have hx := s.cfg.variant.bits_ge
  replace hw : i.mnemonic.minXlen ≤ s.cfg.variant.bits := of_decide_eq_true hw
  cases i <;> simp only [loadAccess, reduceCtorEq, Option.some.injEq, Prod.mk.injEq] at h
  all_goals
    obtain ⟨-, -, rfl⟩ := h
    simp only [Instr.mnemonic, Mnemonic.minXlen] at hw
    omega

theorem storeAccess_width {s : State} {i : Instr} {r : Reg} {ea : Word} {n : Nat} (h : storeAccess s i = some (r, ea, n))
    (hw : i.wellFormed s.cfg.variant = true) : 8 * n ≤ s.cfg.variant.bits := by
  have hx := s.cfg.variant.bits_ge
  replace hw : i.mnemonic.minXlen ≤ s.cfg.variant.bits := of_decide_eq_true hw
  cases i <;> simp only [storeAccess, reduceCtorEq, Option.some.injEq, Prod.mk.injEq] at h
  all_goals
    obtain ⟨-, -, rfl⟩ := h
    simp only [Instr.mnemonic, Mnemonic.minXlen] at hw
    omega

/-- Byte `i` of a value, as the slice of its bits. -/
theorem ofNat_byte (v : Word) (i : Nat) : BitVec.ofNat 8 (v.toNat / 256 ^ i) = v.extractLsb' (8 * i) 8 := by
  apply BitVec.eq_of_toNat_eq
  simp [BitVec.extractLsb'_toNat, Nat.shiftRight_eq_div_pow, pow_mul]

end Sys2Proof.Machine
end

