-- ==== Sys2Proof/Laws/Effects.lean ====
section
/-! SUPPORT. What an instruction can do, said once: every next state of `exec` is one of the eleven updates of `Effect`, each with
what the instruction is that makes it. Invariants and frames are case analyses of this, with no meaning unfolded. -/

namespace Sys2Proof.Machine

/-- The next states an instruction can give. -/
inductive Effect (s : State) (i : Instr) : State → Prop where
  /-- An add or subtract: the destination with C, V, Z (R110). -/
  | sum (d : Reg) (q : Sum) (hf : i.writesFlags = true) (hd : i.dests = [d]) (hm : dataAccess s i = none)
      (hp : i.assignsPc = false) (hq : fit s.cfg.variant q.value = q.value) : Effect s i (s.writeSum d q).advance
  /-- Any other instruction that writes its destination and advances, a load included. -/
  | reg (d : Reg) (v : Word) (hf : i.writesFlags = false) (hd : i.dests = [d]) (hm : writesMemory s i = false)
      (hp : i.assignsPc = false) (hv : fit s.cfg.variant v = v) : Effect s i (s.setX d v).advance
  /-- A division without a result (log 4). -/
  | free (a b d : Reg) (v : Word) (hi : i = .div a b d) (hv : fit s.cfg.variant v = v) : Effect s i (s.setX d v).draw.advance
  /-- A store (R157). -/
  | store (data : Reg) (ea : Word) (n : Nat) (hf : i.writesFlags = false) (hd : i.dests = [])
      (ha : storeAccess s i = some (data, ea, n)) (hw : s.memWrite ea n (s.x data) = .ok (s.storeBytes ea n (s.x data))) :
      Effect s i (s.storeBytes ea n (s.x data)).advance
  /-- SWAP (R204). -/
  | swap (a d : Reg) (v : Word) (hi : i = .swap a d) (hv : fit s.cfg.variant v = v)
      (hw : s.memWrite (s.x a) s.cfg.variant.bytes (s.x d) = .ok (s.storeBytes (s.x a) s.cfg.variant.bytes (s.x d))) :
      Effect s i ((s.storeBytes (s.x a) s.cfg.variant.bytes (s.x d)).setX d v).advance
  /-- JALR and JALI: link and target (R213, R215). -/
  | link (d : Reg) (p : Word) (hj : i.jumps = true) (hd : i.dests = [d]) (hv : fit s.cfg.variant p = p) :
      Effect s i ((s.setX d s.pcNext).setPc p)
  /-- JWLR (R214). -/
  | jump (a : Reg) (hi : i = .jwlr a) : Effect s i (s.setPc (s.x a))
  /-- A taken branch (R211). -/
  | taken (r : Reg) (hp : i.assignsPc = true) (hj : i.jumps = false) (hd : i.dests = []) (h4 : (s.x r).toNat % 4 = 0) :
      Effect s i (s.setPc (s.x r))
  /-- A branch not taken, or a hint that retires with no other effect. -/
  | skip (hd : i.dests = []) (hf : i.writesFlags = false) (hm : dataAccess s i = none) : Effect s i s.advance
  /-- WFI and WFE: retire or wait, the input consumed (R238, R239). -/
  | wait (hw : i.waits = true) (u t : State) (hu : u = s.takeIrq ∨ u = s.takeEvent) (ht : t = u ∨ t = u.advance) : Effect s i t
  /-- SE (R240). -/
  | send (hi : i = .se) : Effect s i s.sendEvent.advance

theorem fit_and (x : Variant) (v w : Word) (hv : fit x v = v) : fit x (v &&& w) = v &&& w := by
  apply fit_of_lt
  rw [BitVec.toNat_and]
  exact lt_of_le_of_lt Nat.and_le_left (hv ▸ fit_lt x v)

theorem fit_or (x : Variant) (v w : Word) (hv : fit x v = v) (hw : fit x w = w) : fit x (v ||| w) = v ||| w := by
  apply fit_of_lt
  rw [BitVec.toNat_or]
  exact Nat.or_lt_two_pow (hv ▸ fit_lt x v) (hw ▸ fit_lt x w)

theorem fit_xor (x : Variant) (v w : Word) (hv : fit x v = v) (hw : fit x w = w) : fit x (v ^^^ w) = v ^^^ w := by
  apply fit_of_lt
  rw [BitVec.toNat_xor]
  exact Nat.xor_lt_two_pow (hv ▸ fit_lt x v) (hw ▸ fit_lt x w)

theorem fit_extend (e : Extension) (x : Variant) (bits k : Nat) : fit x (extend e x bits k) = extend e x bits k :=
  fit_of_lt (extend_lt e x bits k)

theorem fit_addWrap (x : Variant) (a b : Word) : fit x (addWrap x a b) = addWrap x a b := fit_of_lt (addWrap_lt x a b)

theorem fit_quotient {c : Config} {a b q : Word} (h : quotient c a b = some q) : fit c.variant q = q := by
  unfold quotient at h
  split at h
  · cases h
  · split at h
    · split at h
      · cases h
      · cases h; exact fit_truncInt _ _
    · cases h; exact fit_trunc _ _

/-- What a whole-register read gives is an XLEN-bit value (R204). -/
theorem fit_memRead {s : State} {addr : Word} {v : Word} (h : s.memRead addr s.cfg.variant.bytes = .ok v) :
    fit s.cfg.variant v = v := by
  obtain ⟨-, -, rfl⟩ := State.memRead_eq_ok.mp h
  apply fit_of_lt
  have h1 := s.valueAt_lt addr s.cfg.variant.bytes
  rw [show (256 : Nat) = 2 ^ 8 from rfl, ← pow_mul, ← Variant.bits_eq] at h1
  rw [BitVec.toNat_ofNat]
  exact lt_of_le_of_lt (Nat.mod_le _ _) h1

theorem effect_load {s t : State} {i : Instr} {d : Reg} {ea : Word} {n : Nat} (h : load s d ea n = .next t)
    (hf : i.writesFlags = false) (hd : i.dests = [d]) (hm : writesMemory s i = false) (hp : i.assignsPc = false) :
    Effect s i t := by
  rcases load_cases s d ea n with ⟨-, e⟩ | ⟨-, e, -, he⟩ | ⟨-, v, -, e⟩
  · rw [e] at h; cases h
  · rw [he] at h; cases e <;> cases h
  · rw [e] at h; cases h; exact .reg d _ hf hd hm hp (fit_extend _ _ _ _)

theorem effect_store {s t : State} {i : Instr} {r : Reg} {ea : Word} {n : Nat} (h : store s r ea n = .next t)
    (hf : i.writesFlags = false) (hd : i.dests = []) (ha : storeAccess s i = some (r, ea, n)) : Effect s i t := by
  rcases store_cases s r ea n with ⟨-, e⟩ | ⟨-, e, -, he⟩ | ⟨-, hw, e⟩
  · rw [e] at h; cases h
  · rw [he] at h; cases e <;> cases h
  · rw [e] at h; cases h; exact .store r ea n hf hd ha hw

theorem effect_branch {s t : State} {i : Instr} {b : Bool} {r : Reg} (h : branch s b r = .next t) (hp : i.assignsPc = true)
    (hj : i.jumps = false) (hd : i.dests = []) (hf : i.writesFlags = false) (hm : dataAccess s i = none) : Effect s i t := by
  rcases branch_cases s b r with ⟨-, e⟩ | ⟨-, h4, e⟩ | ⟨-, -, e⟩
  · rw [e] at h; cases h; exact .skip hd hf hm
  · rw [e] at h; cases h; exact .taken r hp hj hd h4
  · rw [e] at h; cases h

/-- Every next state of an instruction is one of the effects. -/
theorem exec_effect {i : Instr} {s t : State} (h : exec i s = .next t) : Effect s i t := by
  cases i with
  | addr a b d => cases h; exact .sum d _ rfl rfl rfl rfl (fit_trunc _ _)
  | addi a d imm => cases h; exact .sum d _ rfl rfl rfl rfl (fit_trunc _ _)
  | addrc a b d => cases h; exact .sum d _ rfl rfl rfl rfl (fit_trunc _ _)
  | addic a d imm => cases h; exact .sum d _ rfl rfl rfl rfl (fit_trunc _ _)
  | subr a b d => cases h; exact .sum d _ rfl rfl rfl rfl (fit_truncInt _ _)
  | subi a d imm => cases h; exact .sum d _ rfl rfl rfl rfl (fit_truncInt _ _)
  | subrb a b d => cases h; exact .sum d _ rfl rfl rfl rfl (fit_truncInt _ _)
  | subib a d imm => cases h; exact .sum d _ rfl rfl rfl rfl (fit_truncInt _ _)
  | mult a b d => cases h; exact .reg d _ rfl rfl rfl rfl (fit_trunc _ _)
  | div a b d =>
    simp only [exec, execDiv] at h
    split at h
    · rename_i q hq; cases h; exact .reg d q rfl rfl rfl rfl (fit_quotient hq)
    · cases h; exact .free a b d _ rfl (fit_fit _ _)
  | mov a d => cases h; exact .reg d _ rfl rfl rfl rfl (s.fit_x _)
  | addipc d imm => cases h; exact .reg d _ rfl rfl rfl rfl (fit_addWrap _ _ _)
  | addrpc a d => cases h; exact .reg d _ rfl rfl rfl rfl (fit_addWrap _ _ _)
  | andr a b d => cases h; exact .reg d _ rfl rfl rfl rfl (fit_and _ _ _ (s.fit_x _))
  | andi a d imm => cases h; exact .reg d _ rfl rfl rfl rfl (fit_and _ _ _ (s.fit_x _))
  | notr a d => cases h; exact .reg d _ rfl rfl rfl rfl (fit_fit _ _)
  | noti d imm => cases h; exact .reg d _ rfl rfl rfl rfl (fit_fit _ _)
  | orr a b d => cases h; exact .reg d _ rfl rfl rfl rfl (fit_or _ _ _ (s.fit_x _) (s.fit_x _))
  | ori a d imm => cases h; exact .reg d _ rfl rfl rfl rfl (fit_or _ _ _ (s.fit_x _) (fit_extend _ _ _ _))
  | xorr a b d => cases h; exact .reg d _ rfl rfl rfl rfl (fit_xor _ _ _ (s.fit_x _) (s.fit_x _))
  | xori a d imm => cases h; exact .reg d _ rfl rfl rfl rfl (fit_xor _ _ _ (s.fit_x _) (fit_extend _ _ _ _))
  | lls a d imm => cases h; exact .reg d _ rfl rfl rfl rfl (fit_trunc _ _)
  | lrs a d imm => cases h; exact .reg d _ rfl rfl rfl rfl (fit_trunc _ _)
  | ars a d imm => cases h; exact .reg d _ rfl rfl rfl rfl (fit_truncInt _ _)
  | swap a d =>
    rcases exchange_cases s d (s.x a) s.cfg.variant.bytes with
      ⟨-, e⟩ | ⟨-, e, -, he⟩ | ⟨-, v, e, -, -, he⟩ | ⟨-, v, hr, hw, e⟩
    · rw [exec, execSwap, e] at h; cases h
    · rw [exec, execSwap, he] at h; cases e <;> cases h
    · rw [exec, execSwap, he] at h; cases e <;> cases h
    · rw [exec, execSwap, e] at h; cases h; exact .swap a d v rfl (fit_memRead hr) hw
  | jalr a d => cases h; exact .link d _ rfl rfl (s.fit_x _)
  | jwlr a => cases h; exact .jump a rfl
  | jali d imm => cases h; exact .link d _ rfl rfl (fit_addWrap _ _ _)
  | nop => cases h; exact .skip rfl rfl rfl
  | sle => cases h; exact .skip rfl rfl rfl
  | se => cases h; exact .send rfl
  | wfi =>
    cases h
    split
    · exact .wait rfl _ _ (.inl rfl) (.inr rfl)
    · exact .wait rfl _ _ (.inl rfl) (.inl rfl)
  | wfe =>
    cases h
    split
    · exact .wait rfl _ _ (.inr rfl) (.inr rfl)
    · exact .wait rfl _ _ (.inr rfl) (.inl rfl)
  | be a b r => exact effect_branch h rfl rfl rfl rfl rfl
  | bne a b r => exact effect_branch h rfl rfl rfl rfl rfl
  | bgt a b r => exact effect_branch h rfl rfl rfl rfl rfl
  | bgte a b r => exact effect_branch h rfl rfl rfl rfl rfl
  | blt a b r => exact effect_branch h rfl rfl rfl rfl rfl
  | blte a b r => exact effect_branch h rfl rfl rfl rfl rfl
  | bz r => exact effect_branch h rfl rfl rfl rfl rfl
  | bnz r => exact effect_branch h rfl rfl rfl rfl rfl
  | bc r => exact effect_branch h rfl rfl rfl rfl rfl
  | bo r => exact effect_branch h rfl rfl rfl rfl rfl
  | lwp r => cases h
  | swp r => cases h
  | lhp r => cases h
  | shp r => cases h
  | lbp r => cases h
  | sbp r => cases h
  | cas r => cases h
  | lwr base d imm => exact effect_load h rfl rfl rfl rfl
  | ldr base d imm => exact effect_load h rfl rfl rfl rfl
  | lhr base d imm => exact effect_load h rfl rfl rfl rfl
  | lbr base d imm => exact effect_load h rfl rfl rfl rfl
  | lwrro base off d => exact effect_load h rfl rfl rfl rfl
  | ldrro base off d => exact effect_load h rfl rfl rfl rfl
  | lhrro base off d => exact effect_load h rfl rfl rfl rfl
  | lbrro base off d => exact effect_load h rfl rfl rfl rfl
  | lwpro off d => exact effect_load h rfl rfl rfl rfl
  | ldpro off d => exact effect_load h rfl rfl rfl rfl
  | lhpro off d => exact effect_load h rfl rfl rfl rfl
  | lbpro off d => exact effect_load h rfl rfl rfl rfl
  | lwpio d imm => exact effect_load h rfl rfl rfl rfl
  | ldpio d imm => exact effect_load h rfl rfl rfl rfl
  | lhpio d imm => exact effect_load h rfl rfl rfl rfl
  | lbpio d imm => exact effect_load h rfl rfl rfl rfl
  | swr data base imm => exact effect_store h rfl rfl rfl
  | sdr data base imm => exact effect_store h rfl rfl rfl
  | shr data base imm => exact effect_store h rfl rfl rfl
  | sbr data base imm => exact effect_store h rfl rfl rfl
  | swrro data base off => exact effect_store h rfl rfl rfl
  | sdrro data base off => exact effect_store h rfl rfl rfl
  | shrro data base off => exact effect_store h rfl rfl rfl
  | sbrro data base off => exact effect_store h rfl rfl rfl
  | swpro data off => exact effect_store h rfl rfl rfl
  | sdpro data off => exact effect_store h rfl rfl rfl
  | shpro data off => exact effect_store h rfl rfl rfl
  | sbpro data off => exact effect_store h rfl rfl rfl
  | swpio data imm => exact effect_store h rfl rfl rfl
  | sdpio data imm => exact effect_store h rfl rfl rfl
  | shpio data imm => exact effect_store h rfl rfl rfl
  | sbpio data imm => exact effect_store h rfl rfl rfl

end Sys2Proof.Machine
end

