-- ==== Sys2Proof/Laws/Encoding.lean ====
section
/-! SUPPORT. Fields of an instruction word: what a field reads as in a word built from fields, in either bit order, and the opcode map
read in its two directions. -/

namespace Sys2Proof

/-! ## Fields -/

/-- Bit `k` of a field is bit `lo + k` of the word, counted from the end that the bit order gives (R82). -/
theorem getField_getLsbD (o : BitOrder) (w : BitVec 32) (lo width k : Nat) :
    (getField o w lo width).getLsbD k =
      (decide (k < width) && w.getLsbD ((match o with | .lsb0 => lo | .msb0 => 32 - lo - width) + k)) := by
  cases o <;> simp [getField]

theorem putField_getLsbD (o : BitOrder) (lo : Nat) {width : Nat} (v : BitVec width) (k : Nat) (h : lo + width ≤ 32) :
    (putField o lo v).getLsbD k =
      (decide ((match o with | .lsb0 => lo | .msb0 => 32 - lo - width) ≤ k) &&
        v.getLsbD (k - (match o with | .lsb0 => lo | .msb0 => 32 - lo - width))) := by
  rw [Bool.eq_iff_iff]
  cases o <;>
    simp only [putField, BitVec.getLsbD_shiftLeft, BitVec.getLsbD_setWidth, Bool.and_eq_true, decide_eq_true_eq,
      Bool.not_eq_true', decide_eq_false_iff_not, not_lt] <;>
    constructor <;> rintro ⟨h1, h2⟩
  · exact ⟨h1.2, h2.2⟩
  · have := BitVec.lt_of_getLsbD h2; exact ⟨⟨by omega, h1⟩, by omega, h2⟩
  · exact ⟨h1.2, h2.2⟩
  · have := BitVec.lt_of_getLsbD h2; exact ⟨⟨by omega, h1⟩, by omega, h2⟩

/-- A field reads as what was put there. -/
theorem getField_putField_same (o : BitOrder) (lo : Nat) {width : Nat} (v : BitVec width) (h : lo + width ≤ 32) :
    getField o (putField o lo v) lo width = v := by
  apply BitVec.eq_of_getLsbD_eq
  intro k hk
  rw [getField_getLsbD, putField_getLsbD o lo v _ h]
  cases o <;> simp [hk]

/-- A field reads as zero in a word that is zero outside another field. -/
theorem getField_putField_other (o : BitOrder) (lo : Nat) {width : Nat} (v : BitVec width) (h : lo + width ≤ 32)
    (lo' width' : Nat) (h' : lo' + width' ≤ 32) (hd : lo + width ≤ lo' ∨ lo' + width' ≤ lo) :
    getField o (putField o lo v) lo' width' = 0 := by
  apply BitVec.eq_of_getLsbD_eq
  intro k hk
  rw [getField_getLsbD, putField_getLsbD o lo v _ h]
  simp only [hk, decide_true, Bool.true_and, BitVec.ofNat_eq_ofNat, BitVec.getLsbD_zero, Bool.and_eq_false_imp,
    decide_eq_true_eq]
  intro hle
  apply BitVec.getLsbD_of_ge
  cases o <;> simp only at hle ⊢ <;> omega

@[simp] theorem getField_or (o : BitOrder) (a b : BitVec 32) (lo width : Nat) :
    getField o (a ||| b) lo width = getField o a lo width ||| getField o b lo width := by
  apply BitVec.eq_of_getLsbD_eq
  intro k hk
  simp only [getField_getLsbD, BitVec.getLsbD_or, hk, decide_true, Bool.true_and]

@[simp] theorem putReg_eq (o : BitOrder) (lo : Nat) (r : Reg) : putReg o lo r = putField o lo (BitVec.ofFin (w := 5) r) := rfl

/-! ## The OPCODE field of the five word forms -/

theorem opcode_wordR (o : BitOrder) (op : BitVec 7) (a b d : Reg) : getField o (wordR o op a b d) 0 7 = op := by
  simp [wordR, getField_putField_same, getField_putField_other]

theorem opcode_wordI (o : BitOrder) (op : BitVec 7) (a d : Reg) (imm : BitVec 12) (sub : BitVec 3) :
    getField o (wordI o op a d imm sub) 0 7 = op := by
  simp [wordI, getField_putField_same, getField_putField_other]

theorem opcode_wordJ (o : BitOrder) (op : BitVec 7) (a d : Reg) (imm : BitVec 15) : getField o (wordJ o op a d imm) 0 7 = op := by
  simp [wordJ, getField_putField_same, getField_putField_other]

theorem opcode_wordB (o : BitOrder) (op : BitVec 7) (a b t : Reg) : getField o (wordB o op a b t) 0 7 = op := by
  simp [wordB, getField_putField_same, getField_putField_other]

theorem opcode_wordX (o : BitOrder) (op : BitVec 7) (rest : BitVec 25) : getField o (wordX o op rest) 0 7 = op := by
  simp [wordX, getField_putField_same, getField_putField_other]

/-! ## The opcode map -/

/-- A mnemonic of a well-formed map is what the map gives for its OPCODE, the map being injective (R92). -/
theorem Config.mnemonicOf_opcodeOf {c : Config} (h : c.opcodeMapOk = true) (m : Mnemonic) :
    c.mnemonicOf (c.opcodeOf m) = some m := by
  simp only [Config.opcodeMapOk, Bool.and_eq_true, decide_eq_true_eq] at h
  obtain ⟨⟨⟨h1, h2⟩, -⟩, -⟩ := h
  have hm : m ∈ c.opcodeMap.map Prod.fst := by rw [h1]; cases m <;> decide
  obtain ⟨p, hp, hpm⟩ := List.mem_map.mp hm
  have hs : (c.opcodeMap.find? (fun q => q.1 == m)).isSome = true := by
    rw [List.find?_isSome]; exact ⟨p, hp, by simp [hpm]⟩
  obtain ⟨q, hq⟩ := Option.isSome_iff_exists.mp hs
  have hq1 : q.1 = m := by simpa using List.find?_some hq
  have hqm := List.mem_of_find?_eq_some hq
  have ho : c.opcodeOf m = q.2 := by simp [Config.opcodeOf, hq]
  have hr : (c.opcodeMap.find? (fun p => p.2 == q.2)).isSome = true := by
    rw [List.find?_isSome]; exact ⟨q, hqm, by simp⟩
  obtain ⟨r, hr⟩ := Option.isSome_iff_exists.mp hr
  have hr2 : r.2 = q.2 := by simpa using List.find?_some hr
  have hrq : r = q := List.inj_on_of_nodup_map h2 (List.mem_of_find?_eq_some hr) hqm hr2
  rw [Config.mnemonicOf, ho, hr, hrq]
  simp [hq1]

/-- The OPCODE a well-formed map gives a mnemonic is the one the mnemonic was found under (R92). -/
theorem Config.opcodeOf_mnemonicOf {c : Config} (h : c.opcodeMapOk = true) {op : BitVec 7} {m : Mnemonic}
    (hm : c.mnemonicOf op = some m) : c.opcodeOf m = op := by
  have hback := Config.mnemonicOf_opcodeOf h m
  simp only [Config.opcodeMapOk, Bool.and_eq_true, decide_eq_true_eq] at h
  obtain ⟨⟨⟨h1, -⟩, -⟩, -⟩ := h
  have hn : (c.opcodeMap.map Prod.fst).Nodup := by rw [h1]; decide
  obtain ⟨p, hp, hpm⟩ := Option.map_eq_some_iff.mp hm
  obtain ⟨q, hq, hqm⟩ := Option.map_eq_some_iff.mp hback
  have hpq : p = q := List.inj_on_of_nodup_map hn (List.mem_of_find?_eq_some hp) (List.mem_of_find?_eq_some hq)
    (hpm.trans hqm.symm)
  have h2 : p.2 = op := by simpa using List.find?_some hp
  have h3 : q.2 = c.opcodeOf m := by simpa using List.find?_some hq
  rw [← h3, ← hpq, h2]

end Sys2Proof
end

