-- ==== Sys2Proof/Laws/PerInstr.lean ====
section
/-! SUPPORT. The family OpcodeField: in the word of an instruction, under either bit order and any OPCODE, the OPCODE field is that
OPCODE, whatever the operands are (R82 to R86). One lemma per instruction. -/

namespace Sys2Proof.Laws.OpcodeField

/-- The OPCODE field of the instruction's word is the OPCODE it was encoded under. -/
def Statement (i : Instr) : Prop :=
  ∀ (o : BitOrder) (op : BitVec 7), getField o (encodeRow o op i) 0 7 = op

theorem addi (a d : Reg) (imm : BitVec 12) : Statement (.addi a d imm) := fun o op => opcode_wordI o op a d imm 0
theorem addic (a d : Reg) (imm : BitVec 12) : Statement (.addic a d imm) := fun o op => opcode_wordI o op a d imm 0
theorem addr (a b d : Reg) : Statement (.addr a b d) := fun o op => opcode_wordR o op a b d
theorem addrc (a b d : Reg) : Statement (.addrc a b d) := fun o op => opcode_wordR o op a b d
theorem subi (a d : Reg) (imm : BitVec 12) : Statement (.subi a d imm) := fun o op => opcode_wordI o op a d imm 0
theorem subib (a d : Reg) (imm : BitVec 12) : Statement (.subib a d imm) := fun o op => opcode_wordI o op a d imm 0
theorem subr (a b d : Reg) : Statement (.subr a b d) := fun o op => opcode_wordR o op a b d
theorem subrb (a b d : Reg) : Statement (.subrb a b d) := fun o op => opcode_wordR o op a b d
theorem mult (a b d : Reg) : Statement (.mult a b d) := fun o op => opcode_wordR o op a b d
theorem div (a b d : Reg) : Statement (.div a b d) := fun o op => opcode_wordR o op a b d
theorem mov (a d : Reg) : Statement (.mov a d) := fun o op => opcode_wordR o op a 0 d
theorem addipc (d : Reg) (imm : BitVec 12) : Statement (.addipc d imm) := fun o op => opcode_wordI o op 0 d imm 0
theorem addrpc (a d : Reg) : Statement (.addrpc a d) := fun o op => opcode_wordR o op a 0 d
theorem andr (a b d : Reg) : Statement (.andr a b d) := fun o op => opcode_wordR o op a b d
theorem andi (a d : Reg) (imm : BitVec 12) : Statement (.andi a d imm) := fun o op => opcode_wordI o op a d imm 0
theorem notr (a d : Reg) : Statement (.notr a d) := fun o op => opcode_wordR o op a 0 d
theorem noti (d : Reg) (imm : BitVec 12) : Statement (.noti d imm) := fun o op => opcode_wordI o op 0 d imm 0
theorem orr (a b d : Reg) : Statement (.orr a b d) := fun o op => opcode_wordR o op a b d
theorem ori (a d : Reg) (imm : BitVec 12) : Statement (.ori a d imm) := fun o op => opcode_wordI o op a d imm 0
theorem xorr (a b d : Reg) : Statement (.xorr a b d) := fun o op => opcode_wordR o op a b d
theorem xori (a d : Reg) (imm : BitVec 12) : Statement (.xori a d imm) := fun o op => opcode_wordI o op a d imm 0
theorem lls (a d : Reg) (imm : BitVec 12) : Statement (.lls a d imm) := fun o op => opcode_wordI o op a d imm 0
theorem lrs (a d : Reg) (imm : BitVec 12) : Statement (.lrs a d imm) := fun o op => opcode_wordI o op a d imm 0
theorem ars (a d : Reg) (imm : BitVec 12) : Statement (.ars a d imm) := fun o op => opcode_wordI o op a d imm 0
theorem lwr (base d : Reg) (imm : BitVec 12) : Statement (.lwr base d imm) := fun o op => opcode_wordI o op base d imm 1
theorem swr (data base : Reg) (imm : BitVec 12) : Statement (.swr data base imm) := fun o op => opcode_wordI o op data base imm 1
theorem ldr (base d : Reg) (imm : BitVec 12) : Statement (.ldr base d imm) := fun o op => opcode_wordI o op base d imm 1
theorem sdr (data base : Reg) (imm : BitVec 12) : Statement (.sdr data base imm) := fun o op => opcode_wordI o op data base imm 1
theorem lhr (base d : Reg) (imm : BitVec 12) : Statement (.lhr base d imm) := fun o op => opcode_wordI o op base d imm 2
theorem shr (data base : Reg) (imm : BitVec 12) : Statement (.shr data base imm) := fun o op => opcode_wordI o op data base imm 2
theorem lbr (base d : Reg) (imm : BitVec 12) : Statement (.lbr base d imm) := fun o op => opcode_wordI o op base d imm 0
theorem sbr (data base : Reg) (imm : BitVec 12) : Statement (.sbr data base imm) := fun o op => opcode_wordI o op data base imm 0
theorem lwrro (base off d : Reg) : Statement (.lwrro base off d) := fun o op => opcode_wordR o op base off d
theorem swrro (data base off : Reg) : Statement (.swrro data base off) := fun o op => opcode_wordR o op data base off
theorem ldrro (base off d : Reg) : Statement (.ldrro base off d) := fun o op => opcode_wordR o op base off d
theorem sdrro (data base off : Reg) : Statement (.sdrro data base off) := fun o op => opcode_wordR o op data base off
theorem lhrro (base off d : Reg) : Statement (.lhrro base off d) := fun o op => opcode_wordR o op base off d
theorem shrro (data base off : Reg) : Statement (.shrro data base off) := fun o op => opcode_wordR o op data base off
theorem lbrro (base off d : Reg) : Statement (.lbrro base off d) := fun o op => opcode_wordR o op base off d
theorem sbrro (data base off : Reg) : Statement (.sbrro data base off) := fun o op => opcode_wordR o op data base off
theorem lwpro (off d : Reg) : Statement (.lwpro off d) := fun o op => opcode_wordR o op off 0 d
theorem swpro (data off : Reg) : Statement (.swpro data off) := fun o op => opcode_wordR o op data off 0
theorem ldpro (off d : Reg) : Statement (.ldpro off d) := fun o op => opcode_wordR o op off 0 d
theorem sdpro (data off : Reg) : Statement (.sdpro data off) := fun o op => opcode_wordR o op data off 0
theorem lhpro (off d : Reg) : Statement (.lhpro off d) := fun o op => opcode_wordR o op off 0 d
theorem shpro (data off : Reg) : Statement (.shpro data off) := fun o op => opcode_wordR o op data off 0
theorem lbpro (off d : Reg) : Statement (.lbpro off d) := fun o op => opcode_wordR o op off 0 d
theorem sbpro (data off : Reg) : Statement (.sbpro data off) := fun o op => opcode_wordR o op data off 0
theorem lwpio (d : Reg) (imm : BitVec 12) : Statement (.lwpio d imm) := fun o op => opcode_wordI o op 0 d imm 0
theorem swpio (data : Reg) (imm : BitVec 12) : Statement (.swpio data imm) := fun o op => opcode_wordI o op data 0 imm 0
theorem ldpio (d : Reg) (imm : BitVec 12) : Statement (.ldpio d imm) := fun o op => opcode_wordI o op 0 d imm 0
theorem sdpio (data : Reg) (imm : BitVec 12) : Statement (.sdpio data imm) := fun o op => opcode_wordI o op data 0 imm 0
theorem lhpio (d : Reg) (imm : BitVec 12) : Statement (.lhpio d imm) := fun o op => opcode_wordI o op 0 d imm 0
theorem shpio (data : Reg) (imm : BitVec 12) : Statement (.shpio data imm) := fun o op => opcode_wordI o op data 0 imm 0
theorem lbpio (d : Reg) (imm : BitVec 12) : Statement (.lbpio d imm) := fun o op => opcode_wordI o op 0 d imm 0
theorem sbpio (data : Reg) (imm : BitVec 12) : Statement (.sbpio data imm) := fun o op => opcode_wordI o op data 0 imm 0
theorem lwp (rest : BitVec 25) : Statement (.lwp rest) := fun o op => opcode_wordX o op rest
theorem swp (rest : BitVec 25) : Statement (.swp rest) := fun o op => opcode_wordX o op rest
theorem lhp (rest : BitVec 25) : Statement (.lhp rest) := fun o op => opcode_wordX o op rest
theorem shp (rest : BitVec 25) : Statement (.shp rest) := fun o op => opcode_wordX o op rest
theorem lbp (rest : BitVec 25) : Statement (.lbp rest) := fun o op => opcode_wordX o op rest
theorem sbp (rest : BitVec 25) : Statement (.sbp rest) := fun o op => opcode_wordX o op rest
theorem swap (a d : Reg) : Statement (.swap a d) := fun o op => opcode_wordR o op a 0 d
theorem cas (rest : BitVec 25) : Statement (.cas rest) := fun o op => opcode_wordX o op rest
theorem jalr (a d : Reg) : Statement (.jalr a d) := fun o op => opcode_wordJ o op a d 0
theorem jwlr (a : Reg) : Statement (.jwlr a) := fun o op => opcode_wordJ o op a 0 0
theorem jali (d : Reg) (imm : BitVec 15) : Statement (.jali d imm) := fun o op => opcode_wordJ o op 0 d imm
theorem be (a b t : Reg) : Statement (.be a b t) := fun o op => opcode_wordB o op a b t
theorem bne (a b t : Reg) : Statement (.bne a b t) := fun o op => opcode_wordB o op a b t
theorem bgt (a b t : Reg) : Statement (.bgt a b t) := fun o op => opcode_wordB o op a b t
theorem bgte (a b t : Reg) : Statement (.bgte a b t) := fun o op => opcode_wordB o op a b t
theorem blt (a b t : Reg) : Statement (.blt a b t) := fun o op => opcode_wordB o op a b t
theorem blte (a b t : Reg) : Statement (.blte a b t) := fun o op => opcode_wordB o op a b t
theorem bz (t : Reg) : Statement (.bz t) := fun o op => opcode_wordB o op 0 0 t
theorem bnz (t : Reg) : Statement (.bnz t) := fun o op => opcode_wordB o op 0 0 t
theorem bc (t : Reg) : Statement (.bc t) := fun o op => opcode_wordB o op 0 0 t
theorem bo (t : Reg) : Statement (.bo t) := fun o op => opcode_wordB o op 0 0 t
theorem nop : Statement .nop := fun o op => opcode_wordX o op 0
theorem wfi : Statement .wfi := fun o op => opcode_wordX o op 0
theorem wfe : Statement .wfe := fun o op => opcode_wordX o op 0
theorem se : Statement .se := fun o op => opcode_wordX o op 0
theorem sle : Statement .sle := fun o op => opcode_wordX o op 0

end Sys2Proof.Laws.OpcodeField
end

