-- ==== Sys2Proof/Machine/Assembly.lean ====
section
/-! DEFINITION. The assembly notation of R99: how the spec writes an instruction down. No definition of the machine uses it. -/

namespace Sys2Proof.Machine

/-- A register operand, `GP0` to `GP31` (R99). -/
def regText (r : Reg) : String :=
  "GP" ++ r.val.repr

/-- An immediate operand: a numeral that gives the field's encoded value (R99). -/
def immText {n : Nat} (imm : BitVec n) : String :=
  imm.toNat.repr

/-- A mnemonic and its operands, separated by commas (R99). -/
def line (name : String) (operands : List String) : String :=
  match operands with
  | [] => name
  | _ :: _ => name ++ " " ++ String.intercalate ", " operands

/-- An instruction in the notation of R99, operands in the order of its table. The pair instructions and CAS, which R99 gives no form, are
written with the 25 uninterpreted bits as a numeral. -/
def assembly : Instr → String
  | .addi a d imm => line "ADDI" [regText d, regText a, immText imm]
  | .addic a d imm => line "ADDIC" [regText d, regText a, immText imm]
  | .addr a b d => line "ADDR" [regText d, regText a, regText b]
  | .addrc a b d => line "ADDRC" [regText d, regText a, regText b]
  | .subi a d imm => line "SUBI" [regText d, regText a, immText imm]
  | .subib a d imm => line "SUBIB" [regText d, regText a, immText imm]
  | .subr a b d => line "SUBR" [regText d, regText a, regText b]
  | .subrb a b d => line "SUBRB" [regText d, regText a, regText b]
  | .mult a b d => line "MULT" [regText d, regText a, regText b]
  | .div a b d => line "DIV" [regText d, regText a, regText b]
  | .mov a d => line "MOV" [regText d, regText a]
  | .addipc d imm => line "ADDIPC" [regText d, immText imm]
  | .addrpc a d => line "ADDRPC" [regText d, regText a]
  | .andr a b d => line "ANDR" [regText d, regText a, regText b]
  | .andi a d imm => line "ANDI" [regText d, regText a, immText imm]
  | .notr a d => line "NOTR" [regText d, regText a]
  | .noti d imm => line "NOTI" [regText d, immText imm]
  | .orr a b d => line "ORR" [regText d, regText a, regText b]
  | .ori a d imm => line "ORI" [regText d, regText a, immText imm]
  | .xorr a b d => line "XORR" [regText d, regText a, regText b]
  | .xori a d imm => line "XORI" [regText d, regText a, immText imm]
  | .lls a d imm => line "LLS" [regText d, regText a, immText imm]
  | .lrs a d imm => line "LRS" [regText d, regText a, immText imm]
  | .ars a d imm => line "ARS" [regText d, regText a, immText imm]
  | .lwr base d imm => line "LWR" [regText d, regText base, immText imm]
  | .swr data base imm => line "SWR" [regText data, regText base, immText imm]
  | .ldr base d imm => line "LDR" [regText d, regText base, immText imm]
  | .sdr data base imm => line "SDR" [regText data, regText base, immText imm]
  | .lhr base d imm => line "LHR" [regText d, regText base, immText imm]
  | .shr data base imm => line "SHR" [regText data, regText base, immText imm]
  | .lbr base d imm => line "LBR" [regText d, regText base, immText imm]
  | .sbr data base imm => line "SBR" [regText data, regText base, immText imm]
  | .lwrro base off d => line "LWRRO" [regText d, regText base, regText off]
  | .swrro data base off => line "SWRRO" [regText data, regText base, regText off]
  | .ldrro base off d => line "LDRRO" [regText d, regText base, regText off]
  | .sdrro data base off => line "SDRRO" [regText data, regText base, regText off]
  | .lhrro base off d => line "LHRRO" [regText d, regText base, regText off]
  | .shrro data base off => line "SHRRO" [regText data, regText base, regText off]
  | .lbrro base off d => line "LBRRO" [regText d, regText base, regText off]
  | .sbrro data base off => line "SBRRO" [regText data, regText base, regText off]
  | .lwpro off d => line "LWPRO" [regText d, regText off]
  | .swpro data off => line "SWPRO" [regText data, regText off]
  | .ldpro off d => line "LDPRO" [regText d, regText off]
  | .sdpro data off => line "SDPRO" [regText data, regText off]
  | .lhpro off d => line "LHPRO" [regText d, regText off]
  | .shpro data off => line "SHPRO" [regText data, regText off]
  | .lbpro off d => line "LBPRO" [regText d, regText off]
  | .sbpro data off => line "SBPRO" [regText data, regText off]
  | .lwpio d imm => line "LWPIO" [regText d, immText imm]
  | .swpio data imm => line "SWPIO" [regText data, immText imm]
  | .ldpio d imm => line "LDPIO" [regText d, immText imm]
  | .sdpio data imm => line "SDPIO" [regText data, immText imm]
  | .lhpio d imm => line "LHPIO" [regText d, immText imm]
  | .shpio data imm => line "SHPIO" [regText data, immText imm]
  | .lbpio d imm => line "LBPIO" [regText d, immText imm]
  | .sbpio data imm => line "SBPIO" [regText data, immText imm]
  | .lwp rest => line "LWP" [immText rest]
  | .swp rest => line "SWP" [immText rest]
  | .lhp rest => line "LHP" [immText rest]
  | .shp rest => line "SHP" [immText rest]
  | .lbp rest => line "LBP" [immText rest]
  | .sbp rest => line "SBP" [immText rest]
  | .swap a d => line "SWAP" [regText d, regText a]
  | .cas rest => line "CAS" [immText rest]
  | .jalr a d => line "JALR" [regText d, regText a]
  | .jwlr a => line "JWLR" [regText a]
  | .jali d imm => line "JALI" [regText d, immText imm]
  | .be a b t => line "BE" [regText a, regText b, regText t]
  | .bne a b t => line "BNE" [regText a, regText b, regText t]
  | .bgt a b t => line "BGT" [regText a, regText b, regText t]
  | .bgte a b t => line "BGTE" [regText a, regText b, regText t]
  | .blt a b t => line "BLT" [regText a, regText b, regText t]
  | .blte a b t => line "BLTE" [regText a, regText b, regText t]
  | .bz t => line "BZ" [regText t]
  | .bnz t => line "BNZ" [regText t]
  | .bc t => line "BC" [regText t]
  | .bo t => line "BO" [regText t]
  | .nop => line "NOP" []
  | .wfi => line "WFI" []
  | .wfe => line "WFE" []
  | .se => line "SE" []
  | .sle => line "SLE" []

end Sys2Proof.Machine
end

