-- ==== Sys2Proof/Tests/Slice0.lean ====
section
/-! SUPPORT. Tests: the checks of WellFormed refuse ill-formed terms; one word of every instruction, from the spec's examples, decodes to it;
single steps with the results the spec's examples give; and, for every statement with hypotheses, a state and operands that meet them. -/

namespace Sys2Proof.Tests

open Sys2Proof.Machine

/-! ## The machine of the spec's examples: program text at 0x1000, data at 0x2000 (43_load_store.md); besides, seven bytes without a value
at 0x3000, HALT_PC 0x8000 -/

def text : List Host.Cell := [(0x1000, 0x60), (0x1001, 0), (0x1002, 0), (0x1003, 0)]

def data : List Host.Cell :=
  [(0x2000, 0x11), (0x2001, 0x22), (0x2002, 0x33), (0x2003, 0x44), (0x2004, 0x55), (0x2005, 0x66), (0x2006, 0x77), (0x2007, 0x88),
   (0x2008, 0x88), (0x2009, 0x99), (0x200A, 0xAA), (0x200B, 0xBB), (0x200C, 0xCC), (0x200D, 0xDD), (0x200E, 0xEE), (0x200F, 0xFF)]

def map : List Region :=
  [{ base := 0x1000, size := 4, kind := .text }, { base := 0x2000, size := 16, kind := .data },
   { base := 0x3000, size := 7, kind := .data }]

def config (x : Variant) : Config := Config.default x map 0x8000

/-- A core of the examples: `pc` and the registers and flags given, the first inputs true. -/
def coreAt (pc : Word) (registers : List (Reg × Word)) (flags : List (FlagName × Bool)) : CoreLaunch :=
  { resetPc := pc, registers := registers, flags := flags, irq := true, event := true }

/-- A launch of the examples' machine. -/
def launchAt (x : Variant) (pc : Word) (registers : List (Reg × Word)) (flags : List (FlagName × Bool)) : Launch :=
  { cfg := config x, image := text ++ data, first := coreAt pc registers flags, others := [], turn := 0 }

/-- The examples' machine with an instruction about to be executed at 0x1000. -/
def machine (x : Variant) (registers : List (Reg × Word)) (flags : List (FlagName × Bool)) : State :=
  State.launch (launchAt x 0x1000 registers flags)

/-- The same under other parameters. -/
def machineWith (f : Config → Config) (x : Variant) (registers : List (Reg × Word)) (flags : List (FlagName × Bool)) : State :=
  { machine x registers flags with cfg := f (config x) }

/-- The next state of an outcome, if there is one. -/
def after (o : Out) : Option State :=
  match o with
  | .next s => some s
  | .fault _ => none
  | .refused _ => none

/-- A reading of the next state. -/
def see {α : Type} (o : Out) (f : State → α) : Option α := (after o).map f

/-- A register's value with C, V, Z. -/
def sumOf (r : Reg) (s : State) : Nat × Bool × Bool × Bool := ((s.x r).toNat, s.core.flags.c, s.core.flags.v, s.core.flags.z)

/-- A register's value with `pc`. -/
def regOf (r : Reg) (s : State) : Nat × Nat := ((s.x r).toNat, s.pc.toNat)

/-- The fault of an outcome, if there is one. -/
def faultOf (o : Out) : Option Fault :=
  match o with
  | .next _ => none
  | .fault f => some f
  | .refused _ => none

/-- The refusal of an outcome, if there is one. -/
def refusalOf (o : Out) : Option Refusal :=
  match o with
  | .next _ => none
  | .fault _ => none
  | .refused r => some r

/-! ## WellFormed refuses -/

theorem test_wf_word_on_32 : (Instr.lwr 1 2 8).wellFormed .x32 = false ∧ (Instr.lwr 1 2 8).wellFormed .x64 = true := by decide
theorem test_wf_doubleword_on_64 : (Instr.sdpio 2 0).wellFormed .x64 = false ∧ (Instr.sdpio 2 0).wellFormed .x128 = true := by decide
theorem test_wf_map_missing_row : ({ config .x32 with opcodeMap := defaultOpcodeMap.tail } : Config).opcodeMapOk = false := by decide
theorem test_wf_map_repeated_opcode :
    ({ config .x32 with opcodeMap := defaultOpcodeMap.dropLast ++ [(.sle, 0x63)] } : Config).opcodeMapOk = false := by decide
theorem test_wf_map_other_addr :
    ({ config .x32 with opcodeMap := defaultOpcodeMap.map (fun p => (p.1, p.2 ^^^ 0x7F)) } : Config).opcodeMapOk = false := by decide
theorem test_wf_region_outside : Region.wellFormed .x32 { base := 2 ^ 32 - 4, size := 5, kind := .data } = false := by decide
theorem test_wf_text_unaligned : Region.wellFormed .x32 { base := 0x1002, size := 4, kind := .text } = false := by decide
theorem test_wf_halt_too_wide : (Config.default .x32 [] (BitVec.ofNat 128 (2 ^ 32))).wellFormed = false := by decide
theorem test_wf_config : (config .x32).wellFormed = true := by decide
theorem test_wf_reset_pc_unaligned : CoreLaunch.wellFormed .x32 (coreAt 0x1002 [] []) = false := by decide
theorem test_wf_reset_pc_too_wide : CoreLaunch.wellFormed .x32 (coreAt (BitVec.ofNat 128 (2 ^ 32)) [] []) = false := by decide
theorem test_wf_register_too_wide :
    CoreLaunch.wellFormed .x32 (coreAt 0x1000 [(1, BitVec.ofNat 128 (2 ^ 32))] []) = false := by decide
theorem test_wf_image_unmapped :
    Launch.wellFormed { launchAt .x32 0x1000 [] [] with image := (0x4000, 0) :: (text ++ data) } = false := by decide
theorem test_wf_text_without_value : Launch.wellFormed { launchAt .x32 0x1000 [] [] with image := data } = false := by decide
theorem test_wf_launch : Launch.wellFormed (launchAt .x32 0x1000 [(1, 5)] []) = true := by decide

/-! ## One word of every instruction, from the examples of its rule -/

theorem test_decode_addi : decodeTableWord 32 0x1FFE2080 = some (.addi 1 2 0xfff) := by decide
theorem test_decode_addic : decodeTableWord 32 0x00002081 = some (.addic 1 2 0x0) := by decide
theorem test_decode_addr : decodeTableWord 32 0x00062082 = some (.addr 1 2 3) := by decide
theorem test_decode_addrc : decodeTableWord 32 0x00062083 = some (.addrc 1 2 3) := by decide
theorem test_decode_subi : decodeTableWord 32 0x00022084 = some (.subi 1 2 0x1) := by decide
theorem test_decode_subib : decodeTableWord 32 0x00042085 = some (.subib 1 2 0x2) := by decide
theorem test_decode_subr : decodeTableWord 32 0x00062086 = some (.subr 1 2 3) := by decide
theorem test_decode_subrb : decodeTableWord 32 0x00062087 = some (.subrb 1 2 3) := by decide
theorem test_decode_mult : decodeTableWord 32 0x00062088 = some (.mult 1 2 3) := by decide
theorem test_decode_div : decodeTableWord 32 0x00062089 = some (.div 1 2 3) := by decide
theorem test_decode_mov : decodeTableWord 32 0x000A020A = some (.mov 4 5) := by decide
theorem test_decode_addipc : decodeTableWord 32 0x1FF8100B = some (.addipc 1 0xffc) := by decide
theorem test_decode_addrpc : decodeTableWord 32 0x0004008C = some (.addrpc 1 2) := by decide
theorem test_decode_andr : decodeTableWord 32 0x00062090 = some (.andr 1 2 3) := by decide
theorem test_decode_andi : decodeTableWord 32 0x01FE2091 = some (.andi 1 2 0xff) := by decide
theorem test_decode_notr : decodeTableWord 32 0x00040092 = some (.notr 1 2) := by decide
theorem test_decode_noti : decodeTableWord 32 0x1FFE2013 = some (.noti 2 0xfff) := by decide
theorem test_decode_orr : decodeTableWord 32 0x00062094 = some (.orr 1 2 3) := by decide
theorem test_decode_ori : decodeTableWord 32 0x001E2095 = some (.ori 1 2 0xf) := by decide
theorem test_decode_xorr : decodeTableWord 32 0x00062096 = some (.xorr 1 2 3) := by decide
theorem test_decode_xori : decodeTableWord 32 0x1FFE2097 = some (.xori 1 2 0xfff) := by decide
theorem test_decode_lls : decodeTableWord 32 0x00402098 = some (.lls 1 2 0x20) := by decide
theorem test_decode_lrs : decodeTableWord 32 0x1FFE2099 = some (.lrs 1 2 0xfff) := by decide
theorem test_decode_ars : decodeTableWord 32 0x0050209A = some (.ars 1 2 0x28) := by decide
theorem test_decode_lwr : decodeTableWord 32 0x200820A0 = some (.lwr 1 2 0x4) := by decide
theorem test_decode_swr : decodeTableWord 32 0x20101121 = some (.swr 2 1 0x8) := by decide
theorem test_decode_ldr : decodeTableWord 32 0x200020A2 = some (.ldr 1 2 0x0) := by decide
theorem test_decode_sdr : decodeTableWord 32 0x20001123 = some (.sdr 2 1 0x0) := by decide
theorem test_decode_lhr : decodeTableWord 32 0x400420A4 = some (.lhr 1 2 0x2) := by decide
theorem test_decode_shr : decodeTableWord 32 0x40021125 = some (.shr 2 1 0x1) := by decide
theorem test_decode_lbr : decodeTableWord 32 0x000E20A6 = some (.lbr 1 2 0x7) := by decide
theorem test_decode_sbr : decodeTableWord 32 0x00061127 = some (.sbr 2 1 0x3) := by decide
theorem test_decode_lwrro : decodeTableWord 32 0x000620A8 = some (.lwrro 1 2 3) := by decide
theorem test_decode_swrro : decodeTableWord 32 0x000411A9 = some (.swrro 3 1 2) := by decide
theorem test_decode_ldrro : decodeTableWord 32 0x000620AA = some (.ldrro 1 2 3) := by decide
theorem test_decode_sdrro : decodeTableWord 32 0x000411AB = some (.sdrro 3 1 2) := by decide
theorem test_decode_lhrro : decodeTableWord 32 0x000620AC = some (.lhrro 1 2 3) := by decide
theorem test_decode_shrro : decodeTableWord 32 0x000411AD = some (.shrro 3 1 2) := by decide
theorem test_decode_lbrro : decodeTableWord 32 0x000620AE = some (.lbrro 1 2 3) := by decide
theorem test_decode_sbrro : decodeTableWord 32 0x000411AF = some (.sbrro 3 1 2) := by decide
theorem test_decode_lwpro : decodeTableWord 32 0x000400B0 = some (.lwpro 1 2) := by decide
theorem test_decode_swpro : decodeTableWord 32 0x00001131 = some (.swpro 2 1) := by decide
theorem test_decode_ldpro : decodeTableWord 32 0x000400B2 = some (.ldpro 1 2) := by decide
theorem test_decode_sdpro : decodeTableWord 32 0x00001133 = some (.sdpro 2 1) := by decide
theorem test_decode_lhpro : decodeTableWord 32 0x000400B4 = some (.lhpro 1 2) := by decide
theorem test_decode_shpro : decodeTableWord 32 0x00001135 = some (.shpro 2 1) := by decide
theorem test_decode_lbpro : decodeTableWord 32 0x000400B6 = some (.lbpro 1 2) := by decide
theorem test_decode_sbpro : decodeTableWord 32 0x00001137 = some (.sbpro 2 1) := by decide
theorem test_decode_lwpio : decodeTableWord 32 0x00102038 = some (.lwpio 2 0x8) := by decide
theorem test_decode_swpio : decodeTableWord 32 0x1FF00139 = some (.swpio 2 0xff8) := by decide
theorem test_decode_ldpio : decodeTableWord 32 0x0020203A = some (.ldpio 2 0x10) := by decide
theorem test_decode_sdpio : decodeTableWord 32 0x1FE0013B = some (.sdpio 2 0xff0) := by decide
theorem test_decode_lhpio : decodeTableWord 32 0x0008203C = some (.lhpio 2 0x4) := by decide
theorem test_decode_shpio : decodeTableWord 32 0x0008013D = some (.shpio 2 0x4) := by decide
theorem test_decode_lbpio : decodeTableWord 32 0x000E203E = some (.lbpio 2 0x7) := by decide
theorem test_decode_sbpio : decodeTableWord 32 0x1FFE013F = some (.sbpio 2 0xfff) := by decide
theorem test_decode_lwp : decodeTableWord 32 0xABCDEFC0 = some (.lwp 0x1579bdf) := by decide
theorem test_decode_swp : decodeTableWord 32 0xABCDEFC1 = some (.swp 0x1579bdf) := by decide
theorem test_decode_lhp : decodeTableWord 32 0xABCDEFC2 = some (.lhp 0x1579bdf) := by decide
theorem test_decode_shp : decodeTableWord 32 0xABCDEFC3 = some (.shp 0x1579bdf) := by decide
theorem test_decode_lbp : decodeTableWord 32 0xABCDEFC4 = some (.lbp 0x1579bdf) := by decide
theorem test_decode_sbp : decodeTableWord 32 0xABCDEFC5 = some (.sbp 0x1579bdf) := by decide
theorem test_decode_swap : decodeTableWord 32 0x000400C6 = some (.swap 1 2) := by decide
theorem test_decode_cas : decodeTableWord 32 0xABCDEFC7 = some (.cas 0x1579bdf) := by decide
theorem test_decode_jalr : decodeTableWord 32 0x0001F0C8 = some (.jalr 1 31) := by decide
theorem test_decode_jwlr : decodeTableWord 32 0x00000FC9 = some (.jwlr 31) := by decide
theorem test_decode_jali : decodeTableWord 32 0xFFF1F04A = some (.jali 31 0x7ff8) := by decide
theorem test_decode_be : decodeTableWord 32 0x00620850 = some (.be 1 2 3) := by decide
theorem test_decode_bne : decodeTableWord 32 0x00620851 = some (.bne 1 2 3) := by decide
theorem test_decode_bgt : decodeTableWord 32 0x00620852 = some (.bgt 1 2 3) := by decide
theorem test_decode_bgte : decodeTableWord 32 0x00620853 = some (.bgte 1 2 3) := by decide
theorem test_decode_blt : decodeTableWord 32 0x00620854 = some (.blt 1 2 3) := by decide
theorem test_decode_blte : decodeTableWord 32 0x00620855 = some (.blte 1 2 3) := by decide
theorem test_decode_bz : decodeTableWord 32 0x00600056 = some (.bz 3) := by decide
theorem test_decode_bnz : decodeTableWord 32 0x00600057 = some (.bnz 3) := by decide
theorem test_decode_bc : decodeTableWord 32 0x00600058 = some (.bc 3) := by decide
theorem test_decode_bo : decodeTableWord 32 0x00600059 = some (.bo 3) := by decide
theorem test_decode_nop : decodeTableWord 32 0x00000060 = some .nop := by decide
theorem test_decode_wfi : decodeTableWord 32 0x00000061 = some .wfi := by decide
theorem test_decode_wfe : decodeTableWord 32 0x00000062 = some .wfe := by decide
theorem test_decode_se : decodeTableWord 32 0x00000063 = some .se := by decide
theorem test_decode_sle : decodeTableWord 32 0x00000064 = some .sle := by decide

/-! ## Words that do not decode, on the variants and in the other bit order -/

theorem test_decode_zero_word : decodeTableWord 32 0 = some (.addi 0 0 0) := by decide
theorem test_decode_ones_word : decodeTableWord 32 0xFFFFFFFF = none := by decide
theorem test_decode_mov_gp2_nonzero : decodeTableWord 32 0x000A120A = none := by decide
theorem test_decode_wrong_sub : decodeTableWord 32 0x001020A0 = none := by decide
theorem test_decode_lwr_on_32 : decode (config .x32) 0x200020A0 = .error .widerThanVariant := by rfl
theorem test_decode_addr_msb0 :
    decode { config .x32 with bitOrder := .msb0 } 0x04110C00 = .ok (.addr 1 2 3) := by rfl

/-! ## The notation of R99 -/

theorem test_assembly_addr : assembly (.addr 1 2 3) = "ADDR GP3, GP1, GP2" := by decide
theorem test_assembly_swr : assembly (.swr 2 1 8) = "SWR GP2, GP1, 8" := by decide
theorem test_assembly_nop : assembly .nop = "NOP" := by decide

/-! ## Single steps: results from the examples of each rule -/

def s32 := machine .x32
def s64 := machine .x64
def s128 := machine .x128

theorem test_addr_wraps : see (exec (.addr 1 2 3) (s32 [(1, 0xFFFFFFFF), (2, 1)] [])) (sumOf 3) = some (0, true, false, true) := by decide
theorem test_addr_overflows :
    see (exec (.addr 1 2 3) (s32 [(1, 0x7FFFFFFF), (2, 1)] [])) (sumOf 3) = some (0x80000000, false, true, false) := by decide
theorem test_addi_zero_extends : see (exec (.addi 1 2 4095) (s32 [(1, 1)] [])) (sumOf 2) = some (0x1000, false, false, false) := by decide
theorem test_addi_sign_extends :
    see (exec (.addi 1 2 4095) (machineWith (fun c => { c with immArithExt := .sign }) .x32 [(1, 1)] [])) (sumOf 2) =
      some (0, true, false, true) := by decide
theorem test_addrc : see (exec (.addrc 1 2 3) (s32 [(1, 0xFFFFFFFF)] [(.carry, true)])) (sumOf 3) = some (0, true, false, true) := by decide
theorem test_addic : see (exec (.addic 1 2 0) (s32 [(1, 5)] [(.carry, true)])) (sumOf 2) = some (6, false, false, false) := by decide
theorem test_subr_borrows : see (exec (.subr 1 2 3) (s32 [(1, 3), (2, 5)] [])) (sumOf 3) = some (0xFFFFFFFE, true, false, false) := by decide
theorem test_subr_overflows :
    see (exec (.subr 1 2 3) (s32 [(1, 0x80000000), (2, 1)] [])) (sumOf 3) = some (0x7FFFFFFF, false, true, false) := by decide
theorem test_subi : see (exec (.subi 1 2 1) (s32 [] [])) (sumOf 2) = some (0xFFFFFFFF, true, false, false) := by decide
theorem test_subrb : see (exec (.subrb 1 2 3) (s32 [(1, 5), (2, 4)] [(.carry, true)])) (sumOf 3) = some (0, false, false, true) := by decide
theorem test_subib : see (exec (.subib 1 2 2) (s32 [(1, 10)] [(.carry, true)])) (sumOf 2) = some (7, false, false, false) := by decide
theorem test_mult : see (exec (.mult 1 2 3) (s32 [(1, 0xFFFFFFFF), (2, 3)] [])) (regOf 3) = some (0xFFFFFFFD, 0x1004) := by decide
theorem test_div_toward_zero : see (exec (.div 1 2 3) (s32 [(1, 0xFFFFFFF9), (2, 2)] [])) (regOf 3) = some (0xFFFFFFFD, 0x1004) := by decide
theorem test_div_by_zero_completes :
    see (exec (.div 1 0 3) (s32 [(1, 7)] [])) (fun s => (s.pc.toNat, s.draws)) = some (0x1004, 1) := by decide
theorem test_mov : see (exec (.mov 4 5) (s32 [(4, 0xDEADBEEF)] [])) (regOf 5) = some (0xDEADBEEF, 0x1004) := by decide
theorem test_addipc : see (exec (.addipc 1 0xFFC) (s32 [] [])) (regOf 1) = some (0xFFC, 0x1004) := by decide
theorem test_addrpc : see (exec (.addrpc 1 2) (s32 [(1, 0xFFFFFFFC)] [])) (regOf 2) = some (0xFFC, 0x1004) := by decide
theorem test_andr : see (exec (.andr 1 2 3) (s32 [(1, 0xF0F0F0F0), (2, 0xFF00FF00)] [])) (regOf 3) = some (0xF000F000, 0x1004) := by decide
theorem test_andi : see (exec (.andi 1 2 0xFF) (s32 [(1, 0x12345678)] [])) (regOf 2) = some (0x78, 0x1004) := by decide
theorem test_notr : see (exec (.notr 1 2) (s32 [(1, 0x0F0F0F0F)] [])) (regOf 2) = some (0xF0F0F0F0, 0x1004) := by decide
theorem test_noti : see (exec (.noti 2 0xFFF) (s32 [] [])) (regOf 2) = some (0xFFFFF000, 0x1004) := by decide
theorem test_orr : see (exec (.orr 1 2 3) (s32 [(1, 0xF0F0F0F0), (2, 0xFF00FF00)] [])) (regOf 3) = some (0xFFF0FFF0, 0x1004) := by decide
theorem test_ori : see (exec (.ori 1 2 0xF) (s32 [(1, 0x12345670)] [])) (regOf 2) = some (0x1234567F, 0x1004) := by decide
theorem test_xorr : see (exec (.xorr 1 2 3) (s32 [(1, 0xF0F0F0F0), (2, 0xFF00FF00)] [])) (regOf 3) = some (0x0FF00FF0, 0x1004) := by decide
theorem test_xori : see (exec (.xori 1 2 0xFFF) (s32 [(1, 0x12345678)] [])) (regOf 2) = some (0x12345987, 0x1004) := by decide
theorem test_lls : see (exec (.lls 1 2 32) (s64 [(1, 0x80000001)] [])) (regOf 2) = some (0x8000000100000000, 0x1004) := by decide
theorem test_lrs : see (exec (.lrs 1 2 4) (s32 [(1, 0x80000001)] [])) (regOf 2) = some (0x08000000, 0x1004) := by decide
theorem test_ars : see (exec (.ars 1 2 40) (s32 [(1, 0x80000001)] [])) (regOf 2) = some (0xFFFFFFFF, 0x1004) := by decide
theorem test_lwr : see (exec (.lwr 1 2 0xFF8) (s64 [(1, 0x2010)] [])) (regOf 2) = some (0xFFEEDDCCBBAA9988, 0x1004) := by decide
theorem test_lwr_misaligned :
    faultOf (exec (.lwr 1 2 4) (s64 [(1, 0x2000)] [])) = some (.raised (.misalignedAddress 0x2004)) := by decide
theorem test_lbr_sign_extends :
    see (exec (.lbr 1 2 7) (machineWith (fun c => { c with loadExt := .sign }) .x32 [(1, 0x2000)] [])) (regOf 2) =
      some (0xFFFFFF88, 0x1004) := by decide
theorem test_ldr : see (exec (.ldr 1 2 0) (s128 [(1, 0x2000)] [])) (regOf 2) = some (0xFFEEDDCCBBAA99888877665544332211, 0x1004) := by decide
theorem test_lhrro : see (exec (.lhrro 1 2 3) (s32 [(1, 0x2008), (2, 0xFFFFFFFC)] [])) (regOf 3) = some (0x88776655, 0x1004) := by decide
theorem test_lhpio_reads_text : see (exec (.lhpio 2 0) (s32 [] [])) (regOf 2) = some (0x60, 0x1004) := by decide
theorem test_swr_little_endian :
    see (exec (.swr 2 1 8) (s64 [(1, 0x2000), (2, 0x0102030405060708)] [])) (fun s => (s.byte 0x2008, s.byte 0x200F)) =
      some (some 8, some 1) := by decide
theorem test_sbrro : see (exec (.sbrro 3 1 2) (s32 [(1, 0x2000), (2, 5), (3, 0x1234)] [])) (fun s => (s.byte 0x2005, s.byte 0x2004)) =
    some (some 0x34, some 0x55) := by decide
theorem test_store_to_text : refusalOf (exec (.shpio 2 0) (s32 [] [])) = some .storeToProgramText := by decide
theorem test_load_unmapped : faultOf (exec (.lbr 1 2 7) (s32 [(1, 0x3000)] [])) = some (.accessFault 0x3007 1) := by decide
theorem test_load_valueless : faultOf (exec (.lhr 1 2 0) (s32 [(1, 0x3000)] [])) = some (.readOfUnwritten 0x3000) := by decide
theorem test_swap :
    see (exec (.swap 1 2) (s32 [(1, 0x2000), (2, 0xAAAAAAAA)] [])) (fun s => ((s.x 2).toNat, s.byte 0x2000, s.byte 0x2004)) =
      some (0x44332211, some 0xAA, some 0x55) := by decide
theorem test_swap_same_register :
    see (exec (.swap 1 1) (s32 [(1, 0x2000)] [])) (fun s => ((s.x 1).toNat, s.byte 0x2001)) = some (0x44332211, some 0x20) := by decide
theorem test_cas_refused : refusalOf (exec (.cas 5) (s32 [] [])) = some (.noSemantics .cas) := by decide
theorem test_jalr_same_register : see (exec (.jalr 1 1) (s32 [(1, 0x2000)] [])) (regOf 1) = some (0x1004, 0x2000) := by decide
theorem test_jwlr : see (exec (.jwlr 31) (s32 [(31, 0x1234)] [])) (fun s => s.pc.toNat) = some 0x1234 := by decide
theorem test_jali : see (exec (.jali 31 0x7FF8) (s32 [] [])) (regOf 31) = some (0x1004, 0xFF8) := by decide
theorem test_be_misaligned :
    faultOf (exec (.be 1 2 3) (s32 [(1, 5), (2, 5), (3, 0x2002)] [])) = some (.raised (.branchAddressMisaligned 0x2002)) := by decide
theorem test_bne : see (exec (.bne 1 2 3) (s32 [(1, 5), (2, 6), (3, 0x2000)] [])) (fun s => s.pc.toNat) = some 0x2000 := by decide
theorem test_bgt_signed : see (exec (.bgt 1 2 3) (s32 [(1, 0xFFFFFFFF), (2, 1), (3, 0x2000)] [])) (fun s => s.pc.toNat) = some 0x1004 := by decide
theorem test_bgte_equal : see (exec (.bgte 1 2 3) (s32 [(1, 5), (2, 5), (3, 0x2000)] [])) (fun s => s.pc.toNat) = some 0x2000 := by decide
theorem test_blt_unsigned :
    see (exec (.blt 1 2 3) (machineWith (fun c => { c with branchCmp := .unsigned }) .x32 [(1, 0xFFFFFFFF), (2, 1), (3, 0x2000)] []))
      (fun s => s.pc.toNat) = some 0x1004 := by decide
theorem test_blte_equal : see (exec (.blte 1 2 3) (s32 [(1, 5), (2, 5), (3, 0x2000)] [])) (fun s => s.pc.toNat) = some 0x2000 := by decide
theorem test_bz : see (exec (.bz 3) (s32 [(3, 0x2000)] [(.zero, true)])) (fun s => s.pc.toNat) = some 0x2000 := by decide
theorem test_bnz : see (exec (.bnz 3) (s32 [(3, 0x2000)] [(.zero, true)])) (fun s => s.pc.toNat) = some 0x1004 := by decide
theorem test_bc : see (exec (.bc 3) (s32 [(3, 0x2000)] [(.carry, true)])) (fun s => s.pc.toNat) = some 0x2000 := by decide
theorem test_bo : see (exec (.bo 3) (s32 [(3, 0x2000)] [(.overflow, true)])) (fun s => s.pc.toNat) = some 0x2000 := by decide
theorem test_wfi_waits :
    see (exec .wfi { s32 [] [] with core := { (s32 [] []).core with irqIn := false } }) (fun s => s.pc.toNat) = some 0x1000 := by decide
theorem test_wfe_retires : see (exec .wfe (s32 [] [])) (fun s => s.pc.toNat) = some 0x1004 := by decide
theorem test_step_nop : see (step (s32 [] [])) (fun s => s.pc.toNat) = some 0x1004 := by decide
theorem test_fetch_word_runs : see (step (State.reset.withFetchWord 32 0x1FFE2080)) (regOf 2) = some (4095, 0x1004) := by decide
theorem test_reset_refuses : refusalOf (step State.reset) = some .fetchOutsideProgramText := by decide

/-- A second core, standing at a WFE at 0x2000, which is made program text. -/
def twoCores : State :=
  State.launch { launchAt .x32 0x1000 [] [] with
    cfg := Config.default .x32 [{ base := 0x1000, size := 4, kind := .text }, { base := 0x2000, size := 4, kind := .text }] 0x8000
    image := text ++ [(0x2000, 0x62), (0x2001, 0), (0x2002, 0), (0x2003, 0)], others := [coreAt 0x2000 [] []] }

/-- The launch of `twoCores` with the other core to move first, its input `event` false: it waits at its first WFE (R298, R239). -/
def waitsFirst : State :=
  State.launch { launchAt .x32 0x1000 [] [] with
    cfg := twoCores.cfg, image := twoCores.mem, others := [{ coreAt 0x2000 [] [] with event := false }], turn := 1 }

/-- The same with the second core's input `event` false. -/
def twoCoresWaiting : State :=
  { twoCores with others := twoCores.others.map (fun c => { c with eventIn := false }) }

theorem test_first_wfe_waits :
    waitsFirst.pc.toNat = 0x2000 ∧ see (exec .wfe waitsFirst) (fun s => s.pc.toNat) = some 0x2000 := by decide
theorem test_wfi_after_reset_goes_on : ∃ t, step (State.reset.withFetchWord 32 0x61) = .next t := ⟨_, rfl⟩
theorem test_se_wakes : see (exec .se twoCoresWaiting) (fun s => s.others.map Core.eventIn) = some [true] := by decide
theorem test_sle_wakes_none : see (exec .sle twoCoresWaiting) (fun s => s.others.map Core.eventIn) = some [false] := by decide

/-! ## Witnesses: for every statement with hypotheses, values that meet them, clause by clause -/

/-- The pc-relative and memory witnesses below run on these: GP1 is an address, GP2 a value. -/
def atData (x : Variant) : State := machine x [(1, 0x2000), (2, 0x11223344)] []

theorem witness_DecodeOfEncode :
    (config .x64).opcodeMapOk = true ∧ (Instr.lwr 31 0 0xFFF).wellFormed (config .x64).variant = true := by decide
theorem witness_EncodeOfDecode : (config .x32).opcodeMapOk = true ∧ decode (config .x32) 0x00062082 = .ok (.addr 1 2 3) :=
  ⟨by decide, rfl⟩
theorem witness_DecodeFollowsTable_wide_enough :
    0x201020A0#32 &&& Mnemonic.lwr.matchMask.2 = Mnemonic.lwr.matchMask.1 ∧ Mnemonic.lwr.minXlen ≤ Variant.x64.bits := by decide
theorem witness_DecodeFollowsTable_too_narrow :
    0x200020A2#32 &&& Mnemonic.ldr.matchMask.2 = Mnemonic.ldr.matchMask.1 ∧ Variant.x64.bits < Mnemonic.ldr.minXlen := by decide
theorem witness_DecodeFollowsTable_no_row : ∀ m : Mnemonic, 0xFFFFFFFF#32 &&& m.matchMask.2 ≠ m.matchMask.1 := by
  intro m; cases m <;> decide
theorem witness_StepRunsDecodedInstruction :
    (atData .x32).ended (atData .x32).core = false ∧ (atData .x32).pc.toNat % 4 = 0 ∧
      (∀ k < 4, (atData .x32).inText ((atData .x32).pc.toNat + k) = true) ∧ (atData .x32).byte (atData .x32).pc.toNat = some 0x60 ∧
      (atData .x32).byte ((atData .x32).pc.toNat + 1) = some 0 ∧ (atData .x32).byte ((atData .x32).pc.toNat + 2) = some 0 ∧
      (atData .x32).byte ((atData .x32).pc.toNat + 3) = some 0 ∧
      decode (atData .x32).cfg ((0 : Byte) ++ (0 : Byte) ++ (0 : Byte) ++ (0x60 : Byte)) = .ok .nop ∧ (atData .x32).others = [] :=
  ⟨by decide, by decide, by decide, by decide, by decide, by decide, by decide, rfl, rfl⟩

/-- The examples' machine with `pc` elsewhere. -/
def atPc (pc : Word) : State := (atData .x32).setPc pc

theorem witness_FetchStops_unmapped_last_byte :
    (atPc 0x3004).ended (atPc 0x3004).core = false ∧ (atPc 0x3004).pc.toNat % 4 = 0 ∧
      ∃ k < 4, (atPc 0x3004).mapped ((atPc 0x3004).pc.toNat + k) = false := by decide
theorem witness_FetchStops_outside_text :
    (atPc 0x2000).ended (atPc 0x2000).core = false ∧ (atPc 0x2000).pc.toNat % 4 = 0 ∧
      (∀ k < 4, (atPc 0x2000).mapped ((atPc 0x2000).pc.toNat + k) = true) ∧
      ∃ k < 4, (atPc 0x2000).inText ((atPc 0x2000).pc.toNat + k) = false := by decide

/-- The examples' machine with an unassigned OPCODE as program text. -/
def illegalText : State := { atData .x32 with mem := Memory.writeAll (atData .x32).mem [(0x1000, 0x7F)] }

theorem witness_FetchStops_illegal :
    illegalText.ended illegalText.core = false ∧ illegalText.pc.toNat % 4 = 0 ∧
      (∀ k < 4, illegalText.inText (illegalText.pc.toNat + k) = true) ∧ illegalText.byte illegalText.pc.toNat = some 0x7F ∧
      illegalText.byte (illegalText.pc.toNat + 1) = some 0 ∧ illegalText.byte (illegalText.pc.toNat + 2) = some 0 ∧
      illegalText.byte (illegalText.pc.toNat + 3) = some 0 ∧
      decode illegalText.cfg ((0 : Byte) ++ (0 : Byte) ++ (0 : Byte) ++ (0x7F : Byte)) = .error .unassignedOpcode :=
  ⟨by decide, by decide, by decide, by decide, by decide, by decide, by decide, rfl⟩
theorem witness_MisalignedFetchRaises :
    ((atPc 0x1001).ended (atPc 0x1001).core = false ∧ (atPc 0x1001).pc.toNat % 4 ≠ 0) ∧
      ((atPc 0x1004).ended (atPc 0x1004).core = false ∧ (atPc 0x1004).pc.toNat % 4 = 0) := by decide
theorem witness_EndedStepAndHandOver :
    (atPc 0x8000).ended (atPc 0x8000).core = true ∧ (atPc 0x8000).runEnded = true ∧ (atPc 0x8000).others = [] := by decide
theorem witness_LaunchLeaves :
    (launchAt .x32 0x1000 [(31, 0xFFFFFFFF)] []).wellFormed = true ∧
      (launchAt .x32 0x1000 [(31, 0xFFFFFFFF)] []).others = [] ∧
      (FlagName.condition, true) ∈ (coreAt 0x1000 [] [(.condition, true)]).flags ∧
      ((coreAt 0x1000 [] [(.condition, true)]).flags.map Prod.fst).Nodup ∧
      (31, 0xFFFFFFFF) ∈ (launchAt .x32 0x1000 [(31, 0xFFFFFFFF)] []).first.registers ∧
      ((launchAt .x32 0x1000 [(31, 0xFFFFFFFF)] []).first.registers.map Prod.fst).Nodup ∧
      ((0x200F, 0xFF) : Host.Cell) ∈ (launchAt .x32 0x1000 [(31, 0xFFFFFFFF)] []).image ∧
      ((launchAt .x32 0x1000 [(31, 0xFFFFFFFF)] []).image.map Prod.fst).Nodup ∧
      0x2010 ∉ (launchAt .x32 0x1000 [(31, 0xFFFFFFFF)] []).image.map Prod.fst := by decide
theorem witness_LaunchGivesInv : (launchAt .x64 0x1000 [(1, 5)] []).wellFormed = true := by decide

/-- The invariant of the examples' machine. -/
theorem atData_inv : (atData .x32).Inv := by
  refine ⟨by decide, by decide, by decide, ?_, ?_⟩
  · intro a ha
    simp only [atData, machine, launchAt, State.launch, config, Config.default, map, State.inText, List.any_cons, List.any_nil,
      Region.contains, Bool.or_eq_true, Bool.and_eq_true, decide_eq_true_eq, beq_iff_eq, reduceCtorEq, false_and, or_false,
      true_and, Bool.false_eq_true] at ha
    obtain ⟨h1, h2⟩ := ha
    interval_cases a <;> decide
  · intro c hc
    obtain rfl : c = (atData .x32).core := by simpa [atData, machine, launchAt, State.launch, chooseNext, rotate] using hc
    exact ⟨by decide, by decide⟩
theorem witness_StepKeepsInv : (atData .x32).Inv ∧ ∃ t, step (atData .x32) = .next t := ⟨atData_inv, _, rfl⟩
theorem witness_ParametersAndTextNeverChange : (∃ t, step (atData .x32) = .next t) ∧ (atData .x32).inText 0x1003 = true :=
  ⟨⟨_, rfl⟩, by decide⟩
theorem witness_FlagsOnlyByAddAndSubtract : (∃ t, exec (.mult 1 2 3) (atData .x32) = .next t) ∧ (Instr.mult 1 2 3).writesFlags = false :=
  ⟨⟨_, rfl⟩, by decide⟩
theorem witness_RegistersOnlyByDestination :
    (∃ t, exec (.lhr 1 2 0) (atData .x32) = .next t) ∧ (storeAccess (atData .x32) (.sbr 2 1 15)).isSome = true ∧
      (∃ f, exec (.lhr 1 2 1) (atData .x32) = .fault f) ∧ ∃ r, exec (.lwp 0) (atData .x32) = .refused r :=
  ⟨⟨_, rfl⟩, by decide, ⟨_, rfl⟩, ⟨_, rfl⟩⟩
theorem witness_MemoryOnlyByStoresAndSwap :
    ((∃ t, exec (.mov 1 2) (atData .x32) = .next t) ∧ writesMemory (atData .x32) (.mov 1 2) = false) ∧
      ((∃ t, exec (.shr 2 1 12) (atData .x32) = .next t) ∧ writesMemory (atData .x32) (.shr 2 1 12) = true ∧
        dataAccess (atData .x32) (.shr 2 1 12) = some (0x200C, 4) ∧
        (∀ j < 4, 0x200B ≠ (0x200C#128).toNat + j) ∧ ∀ j < 4, 0x2010 ≠ (0x200C#128).toNat + j) :=
  ⟨⟨⟨_, rfl⟩, by decide⟩, ⟨_, rfl⟩, by decide, by decide, by decide, by decide⟩
theorem witness_PcAdvancesByFour :
    ((Instr.mov 1 2).assignsPc = false ∧ ∃ t, exec (.mov 1 2) (atData .x32) = .next t) ∧
      (Instr.wfi.assignsPc = false ∧ ∃ t, exec .wfi (atData .x32) = .next t) := ⟨⟨by decide, _, rfl⟩, by decide, _, rfl⟩
theorem witness_OnlyJumpsMisalignPc :
    (atData .x32).pc.toNat % 4 = 0 ∧ ∃ t, exec (.jali 0 1) (atData .x32) = .next t ∧ t.pc.toNat % 4 ≠ 0 :=
  ⟨by decide, _, rfl, by decide⟩
theorem witness_OtherCoresKeepTheirState :
    (∃ t, exec .se twoCores = .next t) ∧ (∃ t, exec .sle twoCores = .next t) ∧ Instr.sle ≠ .se := ⟨⟨_, rfl⟩, ⟨_, rfl⟩, by decide⟩
theorem witness_OtherCoresDoNotInfluence : (Instr.swap 1 2) ≠ .se ∧ (∃ t, exec (.swap 1 2) (atData .x32) = .next t) :=
  ⟨by decide, _, rfl⟩
theorem witness_ConditionFlagIsInert : (atData .x32).others = [] := rfl
theorem witness_StopsAreAsListed :
    dataAccess (atData .x32) (.jwlr 1) = none ∧ (Instr.jwlr 1).undescribed = false ∧ (Instr.jwlr 1).jumps = true ∧
      dataAccess (atData .x32) (.div 1 0 2) = none ∧ (Instr.div 1 0 2).undescribed = false ∧
      (Instr.div 1 0 2).assignsPc = false := by decide
theorem witness_DoubleWordAddAndSubtract : (5 : Reg) ≠ 2 ∧ (5 : Reg) ≠ 4 ∧ (5 : Reg) ≠ 6 := by decide

/-- Dividend and divisor for the division statements. -/
def dividing (a b : Word) : State := machine .x32 [(1, a), (2, b)] []

theorem witness_DivideTruncates_signed :
    ((dividing 0x80000000 2).x 2).toNat ≠ 0 ∧ (dividing 0x80000000 2).cfg.divSigned = true ∧
      ¬(signed (dividing 0x80000000 2).cfg.variant ((dividing 0x80000000 2).x 1) = -2 ^ ((dividing 0x80000000 2).xlen - 1) ∧
        signed (dividing 0x80000000 2).cfg.variant ((dividing 0x80000000 2).x 2) = -1) := by decide
theorem witness_DivideTruncates_unsigned :
    ((machineWith (fun c => { c with divSigned := false }) .x32 [(1, 0xFFFFFFFF), (2, 0xFFFFFFFF)] []).x 2).toNat ≠ 0 ∧
      (machineWith (fun c => { c with divSigned := false }) .x32 [(1, 0xFFFFFFFF), (2, 0xFFFFFFFF)] []).cfg.divSigned = false := by decide
theorem witness_DivideWithoutResultCompletes_zero : ((dividing 7 0).x 2).toNat = 0 := by decide
theorem witness_DivideWithoutResultCompletes_overflow :
    (dividing 0x80000000 0xFFFFFFFF).cfg.divSigned = true ∧
      signed (dividing 0x80000000 0xFFFFFFFF).cfg.variant ((dividing 0x80000000 0xFFFFFFFF).x 1) =
        -2 ^ ((dividing 0x80000000 0xFFFFFFFF).xlen - 1) ∧
      signed (dividing 0x80000000 0xFFFFFFFF).cfg.variant ((dividing 0x80000000 0xFFFFFFFF).x 2) = -1 := by decide
theorem witness_ShiftsPastTheWidth :
    (atData .x32).xlen ≤ (32#12).toNat ∧ (atData .x32).xlen - 1 ≤ (31#12).toNat := by decide
theorem witness_MemoryReadRule_unmapped :
    8 ∈ [1, 4, 8, 16] ∧ ∃ i < 8, (atData .x32).mapped (((0x3000 : Word).toNat + i) % 2 ^ (atData .x32).xlen) = false := by decide
theorem witness_MemoryReadRule_value :
    16 ∈ [1, 4, 8, 16] ∧ (∀ i < 16, (atData .x32).mapped (((0x2000 : Word).toNat + i) % 2 ^ (atData .x32).xlen) = true) ∧
      ∀ i < 16, ((atData .x32).byte (((0x2000 : Word).toNat + i) % 2 ^ (atData .x32).xlen)).isSome = true := by decide
theorem witness_MemoryWriteRule_unmapped :
    8 ∈ [1, 4, 8, 16] ∧ ∃ i < 8, (atData .x32).mapped (((0x3000 : Word).toNat + i) % 2 ^ (atData .x32).xlen) = false := by decide
theorem witness_MemoryWriteRule_text :
    1 ∈ [1, 4, 8, 16] ∧ (∀ i < 1, (atData .x32).mapped (((0x1003 : Word).toNat + i) % 2 ^ (atData .x32).xlen) = true) ∧
      ∃ i < 1, (atData .x32).inText (((0x1003 : Word).toNat + i) % 2 ^ (atData .x32).xlen) = true := by decide
theorem witness_MemoryWriteRule_stores :
    4 ∈ [1, 4, 8, 16] ∧ (∀ i < 4, (atData .x32).mapped (((0x3000 : Word).toNat + i) % 2 ^ (atData .x32).xlen) = true) ∧
      ∀ i < 4, (atData .x32).inText (((0x3000 : Word).toNat + i) % 2 ^ (atData .x32).xlen) = false := by decide
theorem witness_MixedWidthReads :
    8 ∈ [1, 4, 8, 16] ∧ 4 ∈ [1, 4, 8, 16] ∧ 4 + 4 ≤ 8 ∧ ∃ t, (atData .x64).memWrite 0x2008 8 0x0102030405060708 = .ok t :=
  ⟨by decide, by decide, by decide, _, rfl⟩
theorem witness_LoadsReadMemory :
    (Instr.ldr 1 2 0).wellFormed (atData .x128).cfg.variant = true ∧ loadAccess (atData .x128) (.ldr 1 2 0) = some (2, 0x2000, 16) ∧
      (0x2000 : Word).toNat % 16 = 0 ∧ (∀ j < 16, (atData .x128).mapped ((0x2000 : Word).toNat + j) = true) ∧
      ∀ j < 16, ((atData .x128).byte ((0x2000 : Word).toNat + j)).isSome = true := by decide
theorem witness_StoresWriteMemory :
    (Instr.swpio 2 0x7F8).wellFormed ((atData .x64).setPc 0x1808).cfg.variant = true ∧
      storeAccess ((atData .x64).setPc 0x1808) (.swpio 2 0x7F8) = some (2, 0x2000, 8) ∧ (0x2000 : Word).toNat % 8 = 0 ∧
      (∀ j < 8, ((atData .x64).setPc 0x1808).mapped ((0x2000 : Word).toNat + j) = true) ∧
      ∀ j < 8, ((atData .x64).setPc 0x1808).inText ((0x2000 : Word).toNat + j) = false := by decide
theorem witness_MisalignedAccessRaises :
    (dataAccess (atData .x32) (.lhr 1 2 1) = some (0x2001, 4) ∧ (0x2001 : Word).toNat % 4 ≠ 0) ∧
      (dataAccess (machine .x64 [(1, 0x2004)] []) (.swap 1 2) = some (0x2004, 8) ∧ (0x2004 : Word).toNat % 8 ≠ 0) := by decide
theorem witness_AccessOutsideMapFaults :
    dataAccess (machine .x64 [(1, 0x3000)] []) (.swr 2 1 0) = some (0x3000, 8) ∧ (0x3000 : Word).toNat % 8 = 0 ∧
      ∃ j < 8, (machine .x64 [(1, 0x3000)] []).mapped ((0x3000 : Word).toNat + j) = false := by decide

/-- The examples' machine with the bytes at 0x3000 and 0x3001 written, so that 0x3002 is the lowest without a value. -/
def halfWritten : State :=
  { machine .x32 [(1, 0x3000)] [] with mem := Memory.writeAll (machine .x32 [] []).mem [(0x3000, 1), (0x3001, 2)] }

theorem witness_ValuelessByteFaults_load :
    dataAccess halfWritten (.lhr 1 2 0) = some (0x3000, 4) ∧ (loadAccess halfWritten (.lhr 1 2 0)).isSome = true ∧
      (0x3000 : Word).toNat % 4 = 0 ∧ (∀ k < 4, halfWritten.mapped ((0x3000 : Word).toNat + k) = true) ∧
      halfWritten.byte ((0x3000 : Word).toNat + 2) = none ∧
      ∀ k < 2, (halfWritten.byte ((0x3000 : Word).toNat + k)).isSome = true := by decide
theorem witness_ValuelessByteFaults_swap :
    dataAccess halfWritten (.swap 1 2) = some (0x3000, 4) ∧ (∃ a d, Instr.swap 1 2 = .swap a d) ∧ (0x3000 : Word).toNat % 4 = 0 ∧
      (∀ k < 4, halfWritten.mapped ((0x3000 : Word).toNat + k) = true) ∧ halfWritten.byte ((0x3000 : Word).toNat + 2) = none ∧
      ∀ k < 2, (halfWritten.byte ((0x3000 : Word).toNat + k)).isSome = true :=
  ⟨by decide, ⟨_, _, rfl⟩, by decide, by decide, by decide, by decide⟩
theorem witness_StoreIntoTextRefused :
    (writesMemory (atPc 0x1000) (.sbpio 2 3) = true ∧ dataAccess (atPc 0x1000) (.sbpio 2 3) = some (0x1003, 1) ∧
      (0x1003 : Word).toNat % 1 = 0 ∧ (∀ j < 1, (atPc 0x1000).mapped ((0x1003 : Word).toNat + j) = true) ∧
      ∃ j < 1, (atPc 0x1000).inText ((0x1003 : Word).toNat + j) = true) ∧
    (writesMemory (machine .x32 [(1, 0x1000)] []) (.swap 1 2) = true ∧
      dataAccess (machine .x32 [(1, 0x1000)] []) (.swap 1 2) = some (0x1000, 4) ∧ (0x1000 : Word).toNat % 4 = 0 ∧
      (∀ j < 4, (machine .x32 [(1, 0x1000)] []).mapped ((0x1000 : Word).toNat + j) = true) ∧
      (∃ j < 4, (machine .x32 [(1, 0x1000)] []).inText ((0x1000 : Word).toNat + j) = true) ∧
      ∀ j < 4, ((machine .x32 [(1, 0x1000)] []).byte ((0x1000 : Word).toNat + j)).isSome = true) := by decide
theorem witness_SwapExchanges :
    ((atData .x128).x 1).toNat % (atData .x128).cfg.variant.bytes = 0 ∧
      (∀ j < (atData .x128).cfg.variant.bytes, (atData .x128).mapped (((atData .x128).x 1).toNat + j) = true) ∧
      (∀ j < (atData .x128).cfg.variant.bytes, (atData .x128).inText (((atData .x128).x 1).toNat + j) = false) ∧
      ∀ j < (atData .x128).cfg.variant.bytes, ((atData .x128).byte (((atData .x128).x 1).toNat + j)).isSome = true := by decide
theorem witness_SwapTwiceRestores : (1 : Reg) ≠ 2 ∧ ∃ t, exec (.swap 1 2) (atData .x64) = .next t := ⟨by decide, _, rfl⟩

/-- Two operands and a target for the branch statements. -/
def comparing (a b t : Word) : State := machine .x32 [(1, a), (2, b), (3, t)] []

theorem witness_BranchesOnEquality :
    ((comparing 5 5 0x2000).x 1 = (comparing 5 5 0x2000).x 2 ∧ ((comparing 5 5 0x2000).x 3).toNat % 4 = 0) ∧
      ((comparing 5 5 0x2001).x 1 = (comparing 5 5 0x2001).x 2 ∧ ((comparing 5 5 0x2001).x 3).toNat % 4 ≠ 0) ∧
      ((comparing 5 6 0x2003).x 1 ≠ (comparing 5 6 0x2003).x 2 ∧ ((comparing 5 6 0x2003).x 3).toNat % 4 ≠ 0) ∧
      ((comparing 5 6 0x2000).x 1 ≠ (comparing 5 6 0x2000).x 2 ∧ ((comparing 5 6 0x2000).x 3).toNat % 4 = 0) := by decide

/-- The value of a register of `comparing` in the order that BRANCH_CMP names. -/
def value (cmp : Comparison) (s : State) (r : Reg) : Int := readAs cmp s.cfg.variant (s.x r)

theorem witness_BranchesOnOrder :
    value .signed (comparing 0xFFFFFFFF 0 0x2000) 1 < value .signed (comparing 0xFFFFFFFF 0 0x2000) 2 ∧
      value .unsigned (comparing 0xFFFFFFFF 0 0x2002) 2 < value .unsigned (comparing 0xFFFFFFFF 0 0x2002) 1 ∧
      value .signed (comparing 7 7 0x2000) 1 ≤ value .signed (comparing 7 7 0x2000) 2 ∧
      ¬value .signed (comparing 7 7 0x2000) 1 < value .signed (comparing 7 7 0x2000) 2 ∧
      ((comparing 0xFFFFFFFF 0 0x2000).x 3).toNat % 4 = 0 ∧ ((comparing 0xFFFFFFFF 0 0x2002).x 3).toNat % 4 ≠ 0 := by decide
theorem witness_BranchesOnFlags :
    (machine .x32 [(3, 0x2000)] [(.zero, true), (.carry, true), (.overflow, true)]).core.flags =
        { c := true, v := true, z := true, k := false } ∧
      ((machine .x32 [(3, 0x2000)] []).x 3).toNat % 4 = 0 ∧ ((machine .x32 [(3, 0x2002)] []).x 3).toNat % 4 ≠ 0 ∧
      (machine .x32 [(3, 0x2000)] []).core.flags = { c := false, v := false, z := false, k := false } := by decide
theorem witness_NonNegativeOperandsAgree :
    0 ≤ signed (comparing 0 0x7FFFFFFF 0x2000).cfg.variant ((comparing 0 0x7FFFFFFF 0x2000).x 1) ∧
      0 ≤ signed (comparing 0 0x7FFFFFFF 0x2000).cfg.variant ((comparing 0 0x7FFFFFFF 0x2000).x 2) ∧
      Instr.blt 1 2 3 ∈ [Instr.bgt 1 2 3, .bgte 1 2 3, .blt 1 2 3, .blte 1 2 3, .div 1 2 3] := by decide
theorem witness_SendEventWakesOthers :
    twoCoresWaiting.others[0]? = some (twoCoresWaiting.others.head (by decide)) ∧
      twoCoresWaiting.ended (twoCoresWaiting.others.head (by decide)) = false ∧
      (∃ w, twoCoresWaiting.fetchAt (fit twoCoresWaiting.cfg.variant (twoCoresWaiting.others.head (by decide)).pc) = .ok w ∧
        decode twoCoresWaiting.cfg w = .ok .wfe) ∧ (atData .x32).others = [] :=
  ⟨by decide, by decide, ⟨_, rfl, rfl⟩, rfl⟩
theorem witness_HintsActAsNop : Instr.wfe ∈ [Instr.nop, .wfi, .wfe, .se, .sle] := by decide
theorem witness_UndescribedAreRefused :
    (Instr.cas 0x1FFFFFF).undescribed = true ∧ (Instr.lwp 0).undescribed = true ∧ (0xABCDEFC7#32).extractLsb' 0 7 = 0x47#7 ∧
      (0x00000040#32).extractLsb' 0 7 = 0x40#7 := by decide

end Sys2Proof.Tests
end

section
/-! The general purpose registers (R23): what each update of the state does to their readings, which instructions have a destination,
and that an instruction changes no register but its destination. -/

namespace Sys2Proof.Machine

/-- A register write leaves the readings of all the other registers. -/
theorem keepsRegs_setX (s : State) (d : Reg) (v : Word) : KeepsRegs s (s.setX d v) [d] := by
  intro r hr
  rw [State.setX_x, if_neg (List.ne_of_not_mem_cons hr)]

/-- A frame of no changed register is one of any changed registers. -/
theorem KeepsRegs.of_nil {s t : State} (h : KeepsRegs s t []) (ds : List Reg) : KeepsRegs s t ds :=
  fun r _ => h r List.not_mem_nil

/-- Taking an input, and then advancing or waiting, touches no register (R238, R239). -/
theorem keepsRegs_wait {s u t : State} (hu : u = s.takeIrq ∨ u = s.takeEvent) (ht : t = u ∨ t = u.advance) : KeepsRegs s t [] := by
  have hux : ∀ r, u.x r = s.x r := by
    rcases hu with rfl | rfl
    · exact s.takeIrq_x
    · exact s.takeEvent_x
  intro r _
  rcases ht with rfl | rfl
  · exact hux r
  · exact (u.advance_x r).trans (hux r)

/-- Each of the eleven effects keeps every register but the destination; the ones that write a register write that one (R23). -/
theorem Effect.keepsRegs {s t : State} {i : Instr} (h : Effect s i t) : KeepsRegs s t i.dests := by
  cases h with
  | sum d q _ hd => rw [hd]; exact keepsRegs_setX s d q.value
  | reg d v _ hd => rw [hd]; exact keepsRegs_setX s d v
  | free a b d v hi => rw [hi]; exact keepsRegs_setX s d v
  | swap a d v hi =>
    rw [hi]
    exact keepsRegs_setX (s.storeBytes (s.x a) s.cfg.variant.bytes (s.x d)) d v
  | link d p _ hd => rw [hd]; exact keepsRegs_setX s d s.pcNext
  | store data ea n => exact fun r _ => s.storeBytes_x ea n (s.x data) r
  | jump a => exact fun r _ => s.setPc_x (s.x a) r
  | taken target => exact fun r _ => s.setPc_x (s.x target) r
  | skip => exact fun r _ => s.advance_x r
  | wait _ u t hu ht => exact (keepsRegs_wait hu ht).of_nil _
  | send => exact fun r _ => s.sendEvent_x r

/-- An instruction has at most one destination register. -/
theorem dests_length_le_one (i : Instr) : i.dests.length ≤ 1 := by
  unfold Instr.dests
  split <;> simp

/-- A store has no destination register: the register it names is read (R157). -/
theorem dests_eq_nil_of_storeAccess {s : State} {i : Instr} (h : (storeAccess s i).isSome = true) : i.dests = [] := by
  obtain ⟨access, ha⟩ := Option.isSome_iff_exists.mp h
  cases i <;> simp only [storeAccess, reduceCtorEq] at ha
  all_goals rfl

/-- The five hints have no destination register (R235). -/
theorem dests_eq_nil_of_hint {i : Instr} (h : i ∈ [Instr.nop, .wfi, .wfe, .se, .sle]) : i.dests = [] := by
  simp only [List.mem_cons, List.not_mem_nil, or_false] at h
  rcases h with rfl | rfl | rfl | rfl | rfl <;> rfl

/-- An outcome that is a fault or a refusal is no next state. -/
theorem not_next_of_stops {o : Out} (h : (∃ f, o = .fault f) ∨ ∃ r, o = .refused r) : ¬∃ t, o = .next t := by
  rintro ⟨t, rfl⟩
  rcases h with ⟨f, hf⟩ | ⟨r, hr⟩
  · cases hf
  · cases hr

/-- Settles O16: every next state is one of the effects of `exec_effect`, and each effect writes at most the destination. -/
theorem registersOnlyByDestination : Obligations.RegistersOnlyByDestination := by
  intro i s
  exact ⟨fun t h => (exec_effect h).keepsRegs, dests_eq_nil_of_storeAccess, dests_eq_nil_of_hint, dests_length_le_one i,
    not_next_of_stops⟩

end Sys2Proof.Machine
end

section
/-! The memory operations of R55 and R56 by the numbers of their bytes: what MemRead and MemWrite give where a byte does not exist,
where one is program text, and where all are there. -/

namespace Sys2Proof.Machine

/-- The addresses of an access, by the number of the byte (R55). -/
theorem State.mem_addresses {s : State} {addr : Word} {n a : Nat} :
    a ∈ s.addresses addr n ↔ ∃ i < n, a = (addr.toNat + i) % 2 ^ s.xlen :=
  mem_byteAddresses

/-- What holds at every address of an access holds byte by byte. -/
theorem State.forall_mem_addresses {s : State} {addr : Word} {n : Nat} {p : Nat → Prop} :
    (∀ a ∈ s.addresses addr n, p a) ↔ ∀ i < n, p ((addr.toNat + i) % 2 ^ s.xlen) := by
  simp only [State.mem_addresses]
  constructor
  · exact fun h i hi => h _ ⟨i, hi, rfl⟩
  · rintro h _ ⟨i, hi, rfl⟩
    exact h i hi

/-- The widest access has 16 bytes (R54). -/
theorem accessSize_le {n : Nat} (hn : n ∈ [1, 4, 8, 16]) : n ≤ 16 := by
  simp only [List.mem_cons, List.not_mem_nil, or_false] at hn
  omega

/-- No access is longer than the address space. -/
theorem accessSize_le_two_pow {n : Nat} (hn : n ∈ [1, 4, 8, 16]) (x : Variant) : n ≤ 2 ^ x.bits :=
  (accessSize_le hn).trans (le_trans (by decide) x.two_pow_bits_ge)

/-! ## Reading -/

/-- A slice of 8 bits of the number a list of at most 16 bytes stands for is the byte of that place (R52). -/
theorem littleEndian_extractLsb' (bs : List Byte) (i : Nat) (hi : i < bs.length) (hl : bs.length ≤ 16) :
    (BitVec.ofNat 128 (littleEndian bs)).extractLsb' (8 * i) 8 = bs[i] := by
  apply BitVec.eq_of_getLsbD_eq
  intro k hk
  have hdiv : (8 * i + k) / 8 = i := by omega
  have hmod : (8 * i + k) % 8 = k := by omega
  have hin : 8 * i + k < 128 := by omega
  rw [BitVec.getLsbD_extractLsb', BitVec.getLsbD_ofNat, littleEndian_testBit bs _ (by omega)]
  simp only [hdiv, hmod, hk, hin, decide_true, Bool.true_and]

/-- Byte `i` of the value of an access is the byte at its `i`-th address (R55). -/
theorem State.valueAt_extractLsb' {s : State} {addr : Word} {n i : Nat} (hn : n ≤ 16) (hi : i < n)
    (hb : (s.byte ((addr.toNat + i) % 2 ^ s.xlen)).isSome = true) :
    s.byte ((addr.toNat + i) % 2 ^ s.xlen) = some ((BitVec.ofNat 128 (s.valueAt addr n)).extractLsb' (8 * i) 8) := by
  obtain ⟨b, hb⟩ := Option.isSome_iff_exists.mp hb
  have hlen : ((s.addresses addr n).map (fun a => (s.byte a).getD 0)).length = n := by simp [State.addresses]
  rw [State.valueAt, littleEndian_extractLsb' _ i (by omega) (by omega)]
  simp only [List.getElem_map, State.addresses, byteAddresses_getElem]
  rw [State.xlen] at hb ⊢
  rw [hb, Option.getD_some]

/-- The value of an access of `n` bytes has 8n bits (R55). -/
theorem State.toNat_valueAt_lt (s : State) (addr : Word) (n : Nat) :
    (BitVec.ofNat 128 (s.valueAt addr n)).toNat < 2 ^ (8 * n) :=
  calc (BitVec.ofNat 128 (s.valueAt addr n)).toNat
      ≤ s.valueAt addr n := by rw [BitVec.toNat_ofNat]; exact Nat.mod_le _ _
    _ < 256 ^ n := s.valueAt_lt addr n
    _ = 2 ^ (8 * n) := (pow_mul 2 8 n).symm

/-- Settles O40: the unmapped case is `memRead_unmapped`, the other reads the bytes off the value `memRead_eq_ok` gives. -/
theorem memoryReadRule : Obligations.MemoryReadRule := by
  intro s addr n hn
  refine ⟨?_, fun hmap hsome => ⟨BitVec.ofNat 128 (s.valueAt addr n), ?_, s.toNat_valueAt_lt addr n, ?_⟩⟩
  · rintro ⟨i, hi, hmap⟩
    exact State.memRead_unmapped (State.mem_addresses.mpr ⟨i, hi, rfl⟩) hmap
  · exact State.memRead_eq_ok.mpr ⟨State.forall_mem_addresses.mpr hmap, State.forall_mem_addresses.mpr hsome, rfl⟩
  · exact fun i hi => State.valueAt_extractLsb' (accessSize_le hn) hi (hsome i hi)

/-! ## Writing -/

/-- A write to a byte that does not exist (R56). -/
theorem State.memWrite_unmapped {s : State} {addr : Word} {n a : Nat} {v : Word} (ha : a ∈ s.addresses addr n)
    (h : s.mapped a = false) : s.memWrite addr n v = .error (.fault (.accessFault addr n)) := by
  cases hw : s.memWrite addr n v with
  | ok t =>
    obtain ⟨hmap, -, -⟩ := State.memWrite_eq_ok.mp hw
    exact absurd (hmap a ha) (by simp [h])
  | error e =>
    rcases State.memWrite_eq_error hw with ⟨-, rfl⟩ | ⟨hmap, -, -⟩
    · rfl
    · exact absurd (hmap a ha) (by simp [h])

/-- A write to bytes that exist, one of them program text (R56, R68). -/
theorem State.memWrite_inText {s : State} {addr : Word} {n a : Nat} {v : Word} (hmap : ∀ b ∈ s.addresses addr n, s.mapped b = true)
    (ha : a ∈ s.addresses addr n) (h : s.inText a = true) : s.memWrite addr n v = .error (.refuse .storeToProgramText) := by
  cases hw : s.memWrite addr n v with
  | ok t =>
    obtain ⟨-, htext, -⟩ := State.memWrite_eq_ok.mp hw
    exact absurd (htext a ha) (by simp [h])
  | error e =>
    rcases State.memWrite_eq_error hw with ⟨⟨b, hb, hnot⟩, -⟩ | ⟨-, -, rfl⟩
    · exact absurd (hmap b hb) (by simp [hnot])
    · rfl

/-- The bytes of a store, as slices of the value (R56). -/
theorem State.storeBytes_byte_extractLsb' {s : State} {addr : Word} {n i : Nat} (v : Word) (hn : n ∈ [1, 4, 8, 16]) (hi : i < n) :
    (s.storeBytes addr n v).byte ((addr.toNat + i) % 2 ^ s.xlen) = some (v.extractLsb' (8 * i) 8) :=
  (s.storeBytes_byte addr n v i (accessSize_le_two_pow hn _) hi).trans (congrArg some (ofNat_byte v i))

/-- Settles O41: the three cases are `memWrite_unmapped`, `memWrite_inText` and the store that `memWrite_eq_ok` gives. -/
theorem memoryWriteRule : Obligations.MemoryWriteRule := by
  intro s addr n v hn
  refine ⟨?_, ?_, fun hmap htext => ⟨s.storeBytes addr n v, ?_, ?_, ?_, rfl⟩⟩
  · rintro ⟨i, hi, hmap⟩
    exact State.memWrite_unmapped (State.mem_addresses.mpr ⟨i, hi, rfl⟩) hmap
  · rintro hmap ⟨i, hi, htext⟩
    exact State.memWrite_inText (State.forall_mem_addresses.mpr hmap) (State.mem_addresses.mpr ⟨i, hi, rfl⟩) htext
  · exact State.memWrite_eq_ok.mpr ⟨State.forall_mem_addresses.mpr hmap, State.forall_mem_addresses.mpr htext, rfl⟩
  · exact fun i hi => State.storeBytes_byte_extractLsb' v hn hi
  · intro a ha
    refine s.storeBytes_byte_other addr n v a fun hmem => ?_
    obtain ⟨i, hi, rfl⟩ := State.mem_addresses.mp hmem
    exact ha i hi rfl

end Sys2Proof.Machine
end

section
/-! The alignment of data accesses (R61): the three operations test it before they touch memory. -/

namespace Sys2Proof.Machine

/-- A load at a misaligned address (R61, R156). -/
theorem load_misaligned {s : State} {d : Reg} {ea : Word} {n : Nat} (h : ea.toNat % n ≠ 0) :
    load s d ea n = .fault (.raised (.misalignedAddress ea)) :=
  if_pos h

/-- A store at a misaligned address (R61, R157). -/
theorem store_misaligned {s : State} {data : Reg} {ea : Word} {n : Nat} (h : ea.toNat % n ≠ 0) :
    store s data ea n = .fault (.raised (.misalignedAddress ea)) :=
  if_pos h

/-- An exchange at a misaligned address (R61, R204). -/
theorem exchange_misaligned {s : State} {d : Reg} {ea : Word} {n : Nat} (h : ea.toNat % n ≠ 0) :
    exchange s d ea n = .fault (.raised (.misalignedAddress ea)) :=
  if_pos h

/-- A data access at a misaligned address, whichever of the three operations makes it (R61). -/
theorem exec_misaligned {s : State} {i : Instr} {ea : Word} {n : Nat} (ha : dataAccess s i = some (ea, n))
    (h : ea.toNat % n ≠ 0) : exec i s = .fault (.raised (.misalignedAddress ea)) := by
  rcases dataAccess_exec ha with ⟨d, -, he⟩ | ⟨r, -, -, he⟩ | ⟨a, d, -, he, -, -⟩
  · exact he.trans (load_misaligned h)
  · exact he.trans (store_misaligned h)
  · exact he.trans (exchange_misaligned h)

/-- Settles O45: the fault of `exec_misaligned`, which is no next state. -/
theorem misalignedAccessRaises : Obligations.MisalignedAccessRaises := by
  intro i s ea n ha h
  exact ⟨exec_misaligned ha h, not_next_of_stops (.inl ⟨_, exec_misaligned ha h⟩)⟩

end Sys2Proof.Machine
end

section
/-! The faults of a step, said once: those of the fetch, of an illegal word, of a data access and of a branch to a misaligned target. -/

namespace Sys2Proof.Machine

/-! ## Fetch -/

/-- A fetch at a misaligned address (R62). -/
theorem State.fetchAt_misaligned {s : State} {pc : Word} (h : pc.toNat % 4 ≠ 0) :
    s.fetchAt pc = .error (.fault (.raised (.instructionMisaligned pc))) :=
  if_pos h

/-- Every stop of a fetch at an aligned address (R75): it lies in the bytes, not in the address. -/
theorem State.fetchAt_eq_error {s : State} {pc : Word} {e : Stop} (h4 : pc.toNat % 4 = 0) (h : s.fetchAt pc = .error e) :
    e = .fault (.accessFault pc 4) ∨ e = .refuse .fetchOutsideProgramText ∨ ∃ a, e = .fault (.readOfUnwritten a) := by
  unfold State.fetchAt at h
  rw [if_neg (not_not.mpr h4)] at h
  split at h
  · split at h
    · cases hr : s.memRead pc 4 with
      | ok v => simp [hr, Except.map] at h
      | error e' =>
        obtain rfl : e' = e := by simpa [hr, Except.map] using h
        rcases State.memRead_eq_error hr with ⟨-, he⟩ | ⟨-, a, -, -, he⟩
        · exact .inl he
        · exact .inr (.inr ⟨a, he⟩)
    · cases h; exact .inr (.inl rfl)
  · cases h; exact .inl rfl

/-! ## Instructions -/

/-- The faults a data access of `n` bytes at `ea` can end in (R158). -/
inductive DataFault (s : State) (ea : Word) (n : Nat) : Fault → Prop where
  /-- The address is not a multiple of the access size (R61). -/
  | misaligned (h : ea.toNat % n ≠ 0) : DataFault s ea n (.raised (.misalignedAddress ea))
  /-- One of the bytes does not exist (R66). -/
  | outsideMap (h : ∃ a ∈ s.addresses ea n, s.mapped a = false) : DataFault s ea n (.accessFault ea n)
  /-- One of the bytes holds no value (R66). -/
  | unwritten (a : Nat) (ha : a ∈ s.addresses ea n) (h : s.byte a = none) : DataFault s ea n (.readOfUnwritten a)

/-- The faults of a read. -/
theorem DataFault.of_memRead {s : State} {ea : Word} {n : Nat} {f : Fault} (h : s.memRead ea n = .error (.fault f)) :
    DataFault s ea n f := by
  rcases State.memRead_eq_error h with ⟨hmap, he⟩ | ⟨-, a, ha, hb, he⟩
  · cases he; exact .outsideMap hmap
  · cases he; exact .unwritten a ha hb

/-- The faults of a write. -/
theorem DataFault.of_memWrite {s : State} {ea v : Word} {n : Nat} {f : Fault} (h : s.memWrite ea n v = .error (.fault f)) :
    DataFault s ea n f := by
  rcases State.memWrite_eq_error h with ⟨hmap, he⟩ | ⟨-, -, he⟩
  · cases he; exact .outsideMap hmap
  · cases he

/-- A stop whose outcome is a fault is that fault. -/
theorem Stop.eq_fault_of_outcome {e : Stop} {f : Fault} (h : e.outcome = .fault f) : e = .fault f := by
  cases e with
  | fault g => cases h; rfl
  | refuse r => cases h

/-- An instruction that makes no data access gives a next state, ends as a conditional branch does, or is refused. -/
theorem exec_of_no_dataAccess {s : State} {i : Instr} (h : dataAccess s i = none) :
    (∃ t, exec i s = .next t) ∨ (∃ taken r, exec i s = branch s taken r) ∨ ∃ r, exec i s = .refused r := by
  cases i with
  | be | bne | bgt | bgte | blt | blte | bz | bnz | bc | bo => exact .inr (.inl ⟨_, _, rfl⟩)
  | lwp | swp | lhp | shp | lbp | sbp | cas => exact .inr (.inr ⟨_, rfl⟩)
  | lwr | ldr | lhr | lbr | lwrro | ldrro | lhrro | lbrro | lwpro | ldpro | lhpro | lbpro | lwpio | ldpio | lhpio | lbpio => cases h
  | swr | sdr | shr | sbr | swrro | sdrro | shrro | sbrro | swpro | sdpro | shpro | sbpro | swpio | sdpio | shpio | sbpio => cases h
  | swap => cases h
  | div a b d =>
    left
    simp only [exec, execDiv]
    split <;> exact ⟨_, rfl⟩
  | _ => exact .inl ⟨_, rfl⟩

/-- The faults of a load (R156). -/
theorem load_fault {s : State} {d : Reg} {ea : Word} {n : Nat} {f : Fault} (h : load s d ea n = .fault f) : DataFault s ea n f := by
  rcases load_cases s d ea n with ⟨hm, ho⟩ | ⟨-, e, hr, ho⟩ | ⟨-, v, -, ho⟩ <;> rw [ho] at h
  · cases h; exact .misaligned hm
  · cases Stop.eq_fault_of_outcome h; exact .of_memRead hr
  · cases h

/-- The faults of a store (R157). -/
theorem store_fault {s : State} {data : Reg} {ea : Word} {n : Nat} {f : Fault} (h : store s data ea n = .fault f) :
    DataFault s ea n f := by
  rcases store_cases s data ea n with ⟨hm, ho⟩ | ⟨-, e, hw, ho⟩ | ⟨-, -, ho⟩ <;> rw [ho] at h
  · cases h; exact .misaligned hm
  · cases Stop.eq_fault_of_outcome h; exact .of_memWrite hw
  · cases h

/-- The faults of the exchange of SWAP (R204). -/
theorem exchange_fault {s : State} {d : Reg} {ea : Word} {n : Nat} {f : Fault} (h : exchange s d ea n = .fault f) :
    DataFault s ea n f := by
  rcases exchange_cases s d ea n with ⟨hm, ho⟩ | ⟨-, e, hr, ho⟩ | ⟨-, v, e, -, hw, ho⟩ | ⟨-, v, -, -, ho⟩ <;> rw [ho] at h
  · cases h; exact .misaligned hm
  · cases Stop.eq_fault_of_outcome h; exact .of_memRead hr
  · cases Stop.eq_fault_of_outcome h; exact .of_memWrite hw
  · cases h

/-- The faults of an instruction that makes a data access are those of the access (R158). -/
theorem exec_fault_of_dataAccess {s : State} {i : Instr} {ea : Word} {n : Nat} {f : Fault} (ha : dataAccess s i = some (ea, n))
    (h : exec i s = .fault f) : DataFault s ea n f := by
  rcases dataAccess_exec ha with ⟨d, -, he⟩ | ⟨r, -, -, he⟩ | ⟨a, d, -, he, -, -⟩ <;> rw [he] at h
  · exact load_fault h
  · exact store_fault h
  · exact exchange_fault h

/-- Every fault of an instruction is one of its data access or the exception of a branch to a misaligned target (R267, R268). -/
theorem exec_fault {s : State} {i : Instr} {f : Fault} (h : exec i s = .fault f) :
    (∃ ea n, dataAccess s i = some (ea, n) ∧ DataFault s ea n f) ∨ ∃ r, f = .raised (.branchAddressMisaligned (s.x r)) := by
  cases ha : dataAccess s i with
  | some access => exact .inl ⟨access.1, access.2, rfl, exec_fault_of_dataAccess ha h⟩
  | none =>
    rcases exec_of_no_dataAccess ha with ⟨t, he⟩ | ⟨taken, r, he⟩ | ⟨r, he⟩ <;> rw [he] at h
    · cases h
    · rcases branch_cases s taken r with ⟨-, ho⟩ | ⟨-, -, ho⟩ | ⟨-, -, ho⟩ <;> rw [ho] at h
      · cases h
      · cases h
      · cases h; exact .inr ⟨r, rfl⟩
    · cases h

/-! ## Steps -/

theorem onNext_eq_fault {o : Out} {g : State → State} {f : Fault} (h : onNext o g = .fault f) : o = .fault f := by
  cases o with
  | next s => cases h
  | fault e => exact h
  | refused r => cases h

/-- Every fault of a step: the fetch's, an illegal word's or the decoded instruction's (R75). -/
theorem step_fault {s : State} {f : Fault} (h : step s = .fault f) :
    s.fetch = .error (.fault f) ∨
      ∃ w, s.fetch = .ok w ∧
        ((∃ e, decode s.cfg w = .error e ∧ f = .raised (.illegalInstruction w s.pc)) ∨
          ∃ i, decode s.cfg w = .ok i ∧ exec i s = .fault f) := by
  unfold step at h
  split at h
  · cases h
  · rcases andThen_fault h with hf | ⟨w, hw, h⟩
    · exact .inl hf
    · refine .inr ⟨w, hw, ?_⟩
      cases hd : decode s.cfg w with
      | error e => rw [hd] at h; cases h; exact .inl ⟨e, rfl, rfl⟩
      | ok i => rw [hd] at h; exact .inr ⟨i, rfl, onNext_eq_fault h⟩

/-- No instruction raises INSTRUCTION_MISALIGNED: it is the fetch's (R262, R268). -/
theorem exec_ne_instructionMisaligned (i : Instr) (s : State) (p : Word) :
    exec i s ≠ .fault (.raised (.instructionMisaligned p)) := by
  intro h
  rcases exec_fault h with ⟨ea, n, -, hd⟩ | ⟨r, hr⟩
  · cases hd
  · cases hr

/-- Settles O7: only the fetch raises INSTRUCTION_MISALIGNED, and it does so exactly at a misaligned `pc`. -/
theorem misalignedFetchRaises : Obligations.MisalignedFetchRaises := by
  intro s hrun
  refine ⟨fun h4 => step_fetch_error hrun (State.fetchAt_misaligned h4), fun h4 p h => ?_⟩
  rcases step_fault h with hf | ⟨w, -, ⟨e, -, hw⟩ | ⟨i, -, hi⟩⟩
  · rcases State.fetchAt_eq_error h4 hf with he | he | ⟨a, he⟩ <;> cases he
  · cases hw
  · exact exec_ne_instructionMisaligned i s p hi

end Sys2Proof.Machine
end

section
/-! The frame of the implicit advance of `pc` (R27), which is all that NOP does (R237), and decoding by the row that OPCODE_MAP gives. -/

namespace Sys2Proof

/-- A word whose OPCODE names an instruction that exists on the variant decodes by that instruction's row (R95, R98). -/
theorem decode_of_mnemonicOf {c : Config} {w : BitVec 32} {m : Mnemonic} (hm : c.mnemonicOf (getField c.bitOrder w 0 7) = some m)
    (hx : m.minXlen ≤ c.variant.bits) : decode c w = decodeRow c.bitOrder w m := by
  rw [decode, hm]
  exact if_pos hx

/-- An instruction that exists on all variants decodes, under the default parameters, by the row of its OPCODE, whatever the variant,
MEM_MAP and HALT_PC are (R7, R92, R98). -/
theorem decode_default {w : BitVec 32} {m : Mnemonic}
    (hm : (defaultOpcodeMap.find? (fun p => p.2 == getField .lsb0 w 0 7)).map Prod.fst = some m) (hx : m.minXlen ≤ 32)
    (x : Variant) (map : List Region) (halt : Word) : decode (Config.default x map halt) w = decodeRow .lsb0 w m :=
  decode_of_mnemonicOf (c := Config.default x map halt) hm (hx.trans x.bits_ge)

end Sys2Proof

namespace Sys2Proof.Machine

/-- The implicit advance changes nothing but `pc` (R27). -/
theorem movesOnly_advance (s : State) : MovesOnly s s.advance :=
  ⟨fun r _ => s.advance_x r, s.advance_flags, s.advance_byte,
    s.advance_cfg, s.advance_others, s.advance_irqIn, s.advance_eventIn, s.advance_draws⟩

/-- NOP is the implicit advance and nothing else (R237). -/
theorem exec_nop (s : State) : exec .nop s = .next s.advance := rfl

/-- Under the default parameters the word of NOP, its OPCODE and zeros, decodes to it (R86, R92, R237). -/
theorem decode_default_nop (x : Variant) (map : List Region) (halt : Word) :
    decode (Config.default x map halt) 0x00000060 = .ok .nop := by
  have hfields : decodeRow .lsb0 0x00000060 .nop = .ok .nop := by decide
  exact (decode_default (by decide) (by decide) x map halt).trans hfields

/-- Under the default parameters the all-zero word is ADDI, whose OPCODE is zero, and not NOP (R83, R92, R237). -/
theorem decode_default_zero (x : Variant) (map : List Region) (halt : Word) :
    decode (Config.default x map halt) 0x00000000 = .ok (.addi 0 0 0) := by
  have hfields : decodeRow .lsb0 0x00000000 .addi = .ok (.addi 0 0 0) := by decide
  exact (decode_default (by decide) (by decide) x map halt).trans hfields

/-- Settles O56: NOP is the implicit advance, whose frame is everything but `pc`; its word and the all-zero word decode by the rows of
their OPCODEs. -/
theorem nopOnlyAdvances : Obligations.NopOnlyAdvances :=
  ⟨fun s => ⟨s.advance, exec_nop s, s.advance_fallsThrough, movesOnly_advance s⟩,
    fun x map halt => ⟨decode_default_nop x map halt, decode_default_zero x map halt⟩⟩

end Sys2Proof.Machine
end

section
/-! Encoding and decoding as inverses (R92, R95): each word form and the fields of its format, then the rows, the two directions of the
opcode map being laws already. -/

namespace Sys2Proof

/-! ## Words from fields -/

/-- Whether a bit of the word lies in the field, counted as the bit order counts (R82). -/
def inField (o : BitOrder) (lo width k : Nat) : Bool :=
  match o with
  | .lsb0 => decide (lo ≤ k) && decide (k < lo + width)
  | .msb0 => decide (32 - lo - width ≤ k) && decide (k < 32 - lo)

/-- A field put back where it was read: the bits of the word inside the field. -/
theorem putField_getField_getLsbD (o : BitOrder) (w : BitVec 32) {lo width : Nat} (k : Nat) (h : lo + width ≤ 32) :
    (putField o lo (getField o w lo width)).getLsbD k = (inField o lo width k && w.getLsbD k) := by
  rw [putField_getLsbD o lo _ k h, getField_getLsbD, Bool.eq_iff_iff]
  cases o <;>
  · simp only [inField, Bool.and_eq_true, decide_eq_true_eq]
    constructor
    · rintro ⟨h1, h2, h3⟩
      rw [Nat.add_sub_cancel' h1] at h3
      exact ⟨⟨h1, by omega⟩, h3⟩
    · rintro ⟨⟨h1, h2⟩, h3⟩
      rw [Nat.add_sub_cancel' h1]
      exact ⟨h1, by omega, h3⟩

/-- Two neighbouring fields, put back, are the field over both. -/
theorem putField_getField_append (o : BitOrder) (w : BitVec 32) {lo m n : Nat} (h : lo + (m + n) ≤ 32) :
    putField o lo (getField o w lo (m + n)) =
      putField o lo (getField o w lo m) ||| putField o (lo + m) (getField o w (lo + m) n) := by
  apply BitVec.eq_of_getLsbD_eq
  intro k hk
  rw [BitVec.getLsbD_or, putField_getField_getLsbD o w k h, putField_getField_getLsbD o w k (by omega),
    putField_getField_getLsbD o w k (by omega), ← Bool.and_or_distrib_right]
  congr 1
  rw [Bool.eq_iff_iff]
  cases o <;> simp only [inField, Bool.or_eq_true, Bool.and_eq_true, decide_eq_true_eq] <;> omega

/-- The field over the whole word is the word. -/
theorem putField_getField_all (o : BitOrder) (w : BitVec 32) : putField o 0 (getField o w 0 32) = w := by
  cases o <;> simp [putField, getField]

@[simp] theorem putField_zero (o : BitOrder) (lo width : Nat) : putField o lo (0#width) = 0#32 := by
  cases o <;> simp [putField]

/-- A register field put back is its field (R90). -/
@[simp] theorem ofFin_getReg (o : BitOrder) (w : BitVec 32) (lo : Nat) : BitVec.ofFin (w := 5) (getReg o w lo) = getField o w lo 5 := rfl

@[simp] theorem ofFin_zero_reg : BitVec.ofFin (w := 5) (0 : Reg) = 0#5 := rfl

/-! ## The words of the five forms and their fields -/

/-- A word of which SUB is zero is the R-format word of its fields (R82). -/
theorem wordR_getField {o : BitOrder} {w : BitVec 32} (h : getField o w 22 10 = 0) :
    wordR o (getField o w 0 7) (getReg o w 7) (getReg o w 12) (getReg o w 17) = w := by
  have hall : putField o 0 (getField o w 0 (7 + (5 + (5 + (5 + 10))))) = w := putField_getField_all o w
  rw [putField_getField_append o w (by decide), putField_getField_append o w (by decide),
    putField_getField_append o w (by decide), putField_getField_append o w (by decide)] at hall
  simpa [wordR, h, BitVec.or_assoc] using hall

/-- A word is the I-format word of its fields (R83). -/
theorem wordI_getField (o : BitOrder) (w : BitVec 32) :
    wordI o (getField o w 0 7) (getReg o w 7) (getReg o w 12) (getField o w 17 12) (getField o w 29 3) = w := by
  have hall : putField o 0 (getField o w 0 (7 + (5 + (5 + (12 + 3))))) = w := putField_getField_all o w
  rw [putField_getField_append o w (by decide), putField_getField_append o w (by decide),
    putField_getField_append o w (by decide), putField_getField_append o w (by decide)] at hall
  simpa [wordI, BitVec.or_assoc] using hall

/-- A word is the J-format word of its fields (R84). -/
theorem wordJ_getField (o : BitOrder) (w : BitVec 32) :
    wordJ o (getField o w 0 7) (getReg o w 7) (getReg o w 12) (getField o w 17 15) = w := by
  have hall : putField o 0 (getField o w 0 (7 + (5 + (5 + 15)))) = w := putField_getField_all o w
  rw [putField_getField_append o w (by decide), putField_getField_append o w (by decide),
    putField_getField_append o w (by decide)] at hall
  simpa [wordJ, BitVec.or_assoc] using hall

/-- A word of which SUB and the unnamed field are zero is the B-format word of its fields (R85). -/
theorem wordB_getField {o : BitOrder} {w : BitVec 32} (hsub : getField o w 26 6 = 0) (hunnamed : getField o w 7 4 = 0) :
    wordB o (getField o w 0 7) (getReg o w 11) (getReg o w 16) (getReg o w 21) = w := by
  have hall : putField o 0 (getField o w 0 (7 + (4 + (5 + (5 + (5 + 6)))))) = w := putField_getField_all o w
  rw [putField_getField_append o w (by decide), putField_getField_append o w (by decide),
    putField_getField_append o w (by decide), putField_getField_append o w (by decide),
    putField_getField_append o w (by decide)] at hall
  simpa [wordB, hsub, hunnamed, BitVec.or_assoc] using hall

/-- A word is the X-format word of its fields (R86). -/
theorem wordX_getField (o : BitOrder) (w : BitVec 32) : wordX o (getField o w 0 7) (getField o w 7 25) = w := by
  have hall : putField o 0 (getField o w 0 (7 + 25)) = w := putField_getField_all o w
  rwa [putField_getField_append o w (by decide)] at hall

/-- A register field that reads as zero is register 0 (R90). -/
theorem getReg_of_getField_zero {o : BitOrder} {w : BitVec 32} {lo : Nat} (h : getField o w lo 5 = 0) : getReg o w lo = 0 := by
  rw [getReg, h]
  rfl

/-! ## Decoding the words of a form -/

section
variable (o : BitOrder) (op : BitVec 7) (a b d t : Reg) (imm : BitVec 12) (rest : BitVec 25)

theorem decodeR3_wordR (k : Reg → Reg → Reg → Instr) : decodeR3 o (wordR o op a b d) k = .ok (k a b d) := by
  simp [decodeR3, wordR, getReg, getField_putField_same, getField_putField_other]

theorem decodeR2_wordR (k : Reg → Reg → Instr) : decodeR2 o (wordR o op a 0 d) k = .ok (k a d) := by
  simp [decodeR2, wordR, getReg, getField_putField_same, getField_putField_other]

theorem decodeRStore_wordR (k : Reg → Reg → Instr) : decodeRStore o (wordR o op a b 0) k = .ok (k a b) := by
  simp [decodeRStore, wordR, getReg, getField_putField_same, getField_putField_other]

theorem decodeI_wordI (sub : BitVec 3) (k : Reg → Reg → BitVec 12 → Instr) :
    decodeI o (wordI o op a d imm sub) sub k = .ok (k a d imm) := by
  simp [decodeI, wordI, getReg, getField_putField_same, getField_putField_other]

theorem decodeIDest_wordI (k : Reg → BitVec 12 → Instr) : decodeIDest o (wordI o op 0 d imm 0) k = .ok (k d imm) := by
  simp [decodeIDest, wordI, getReg, getField_putField_same, getField_putField_other]

theorem decodeISource_wordI (k : Reg → BitVec 12 → Instr) : decodeISource o (wordI o op a 0 imm 0) k = .ok (k a imm) := by
  simp [decodeISource, wordI, getReg, getField_putField_same, getField_putField_other]

theorem decodeJalr_wordJ (k : Reg → Reg → Instr) : decodeJalr o (wordJ o op a d 0) k = .ok (k a d) := by
  simp [decodeJalr, wordJ, getReg, getField_putField_same, getField_putField_other]

theorem decodeJwlr_wordJ (k : Reg → Instr) : decodeJwlr o (wordJ o op a 0 0) k = .ok (k a) := by
  simp [decodeJwlr, wordJ, getReg, getField_putField_same, getField_putField_other]

theorem decodeJali_wordJ (imm : BitVec 15) (k : Reg → BitVec 15 → Instr) :
    decodeJali o (wordJ o op 0 d imm) k = .ok (k d imm) := by
  simp [decodeJali, wordJ, getReg, getField_putField_same, getField_putField_other]

theorem decodeB_wordB (k : Reg → Reg → Reg → Instr) : decodeB o (wordB o op a b t) k = .ok (k a b t) := by
  simp [decodeB, wordB, getReg, getField_putField_same, getField_putField_other]

theorem decodeBFlag_wordB (k : Reg → Instr) : decodeBFlag o (wordB o op 0 0 t) k = .ok (k t) := by
  simp [decodeBFlag, wordB, getReg, getField_putField_same, getField_putField_other]

theorem decodeN_wordX (i : Instr) : decodeN o (wordX o op 0) i = .ok i := by
  simp [decodeN, wordX, getField_putField_other]

theorem decodeX_wordX (k : BitVec 25 → Instr) : decodeX o (wordX o op rest) k = .ok (k rest) := by
  simp [decodeX, wordX, getField_putField_same, getField_putField_other]

end

/-- The row of an instruction reads back the fields its encoding wrote (R87). -/
theorem decodeRow_encodeRow (o : BitOrder) (op : BitVec 7) (i : Instr) : decodeRow o (encodeRow o op i) i.mnemonic = .ok i := by
  cases i with
  | addr | addrc | subr | subrb | mult | div | andr | orr | xorr => exact decodeR3_wordR ..
  | lwrro | swrro | ldrro | sdrro | lhrro | shrro | lbrro | sbrro => exact decodeR3_wordR ..
  | mov | addrpc | notr | lwpro | ldpro | lhpro | lbpro | swap => exact decodeR2_wordR ..
  | swpro | sdpro | shpro | sbpro => exact decodeRStore_wordR ..
  | addi | addic | subi | subib | andi | ori | xori | lls | lrs | ars => exact decodeI_wordI ..
  | lwr | swr | ldr | sdr | lhr | shr | lbr | sbr => exact decodeI_wordI ..
  | addipc | noti | lwpio | ldpio | lhpio | lbpio => exact decodeIDest_wordI ..
  | swpio | sdpio | shpio | sbpio => exact decodeISource_wordI ..
  | jalr => exact decodeJalr_wordJ ..
  | jwlr => exact decodeJwlr_wordJ ..
  | jali => exact decodeJali_wordJ ..
  | be | bne | bgt | bgte | blt | blte => exact decodeB_wordB ..
  | bz | bnz | bc | bo => exact decodeBFlag_wordB ..
  | nop | wfi | wfe | se | sle => exact decodeN_wordX ..
  | lwp | swp | lhp | shp | lbp | sbp | cas => exact decodeX_wordX ..

/-- Every word of an instruction has the instruction's OPCODE in the OPCODE field (R82 to R86). -/
theorem opcode_encodeRow (o : BitOrder) (op : BitVec 7) (i : Instr) : getField o (encodeRow o op i) 0 7 = op := by
  cases i with
  | addr | addrc | subr | subrb | mult | div | andr | orr | xorr | mov | addrpc | notr | swap => exact opcode_wordR ..
  | lwrro | swrro | ldrro | sdrro | lhrro | shrro | lbrro | sbrro => exact opcode_wordR ..
  | lwpro | swpro | ldpro | sdpro | lhpro | shpro | lbpro | sbpro => exact opcode_wordR ..
  | addi | addic | subi | subib | andi | ori | xori | lls | lrs | ars | addipc | noti => exact opcode_wordI ..
  | lwr | swr | ldr | sdr | lhr | shr | lbr | sbr => exact opcode_wordI ..
  | lwpio | swpio | ldpio | sdpio | lhpio | shpio | lbpio | sbpio => exact opcode_wordI ..
  | jalr | jwlr | jali => exact opcode_wordJ ..
  | be | bne | bgt | bgte | blt | blte | bz | bnz | bc | bo => exact opcode_wordB ..
  | lwp | swp | lhp | shp | lbp | sbp | cas | nop | wfi | wfe | se | sle => exact opcode_wordX ..

/-- Settles O1: the OPCODE field of the word names the instruction's row, the map being injective, and the row reads the fields back. -/
theorem decodeOfEncode : Obligations.DecodeOfEncode := by
  intro c i hmap hwf
  have hrow : c.mnemonicOf (getField c.bitOrder (encode c i) 0 7) = some i.mnemonic := by
    rw [encode, opcode_encodeRow, Config.mnemonicOf_opcodeOf hmap]
  rw [decode_of_mnemonicOf hrow (of_decide_eq_true hwf), encode, decodeRow_encodeRow]

/-! ## Words that decode by a form -/

/-- A check that rejects is passed when its condition fails. -/
theorem ite_error_eq_ok {p : Prop} [Decidable p] {e : Illegal} {r : Except Illegal Instr} {i : Instr} :
    (if p then .error e else r) = .ok i ↔ ¬p ∧ r = .ok i := by
  by_cases hp : p <;> simp [hp]

section
variable {o : BitOrder} {w : BitVec 32} {i : Instr}

theorem decodeR3_eq_ok {k : Reg → Reg → Reg → Instr} (h : decodeR3 o w k = .ok i) :
    ∃ a b d, i = k a b d ∧ wordR o (getField o w 0 7) a b d = w := by
  simp only [decodeR3, ite_error_eq_ok, not_not, Except.ok.injEq] at h
  obtain ⟨hsub, rfl⟩ := h
  exact ⟨_, _, _, rfl, wordR_getField hsub⟩

theorem decodeR2_eq_ok {k : Reg → Reg → Instr} (h : decodeR2 o w k = .ok i) :
    ∃ a d, i = k a d ∧ wordR o (getField o w 0 7) a 0 d = w := by
  simp only [decodeR2, ite_error_eq_ok, not_not, Except.ok.injEq] at h
  obtain ⟨hsub, hgp2, rfl⟩ := h
  exact ⟨_, _, rfl, getReg_of_getField_zero hgp2 ▸ wordR_getField hsub⟩

theorem decodeRStore_eq_ok {k : Reg → Reg → Instr} (h : decodeRStore o w k = .ok i) :
    ∃ a b, i = k a b ∧ wordR o (getField o w 0 7) a b 0 = w := by
  simp only [decodeRStore, ite_error_eq_ok, not_not, Except.ok.injEq] at h
  obtain ⟨hsub, hdest, rfl⟩ := h
  exact ⟨_, _, rfl, getReg_of_getField_zero hdest ▸ wordR_getField hsub⟩

theorem decodeI_eq_ok {sub : BitVec 3} {k : Reg → Reg → BitVec 12 → Instr} (h : decodeI o w sub k = .ok i) :
    ∃ a d imm, i = k a d imm ∧ wordI o (getField o w 0 7) a d imm sub = w := by
  simp only [decodeI, ite_error_eq_ok, not_not, Except.ok.injEq] at h
  obtain ⟨rfl, rfl⟩ := h
  exact ⟨_, _, _, rfl, wordI_getField o w⟩

theorem decodeIDest_eq_ok {k : Reg → BitVec 12 → Instr} (h : decodeIDest o w k = .ok i) :
    ∃ d imm, i = k d imm ∧ wordI o (getField o w 0 7) 0 d imm 0 = w := by
  simp only [decodeIDest, ite_error_eq_ok, not_not, Except.ok.injEq] at h
  obtain ⟨hsub, hgp1, rfl⟩ := h
  exact ⟨_, _, rfl, by rw [← getReg_of_getField_zero hgp1, ← hsub]; exact wordI_getField o w⟩

theorem decodeISource_eq_ok {k : Reg → BitVec 12 → Instr} (h : decodeISource o w k = .ok i) :
    ∃ a imm, i = k a imm ∧ wordI o (getField o w 0 7) a 0 imm 0 = w := by
  simp only [decodeISource, ite_error_eq_ok, not_not, Except.ok.injEq] at h
  obtain ⟨hsub, hzero, rfl⟩ := h
  exact ⟨_, _, rfl, by rw [← getReg_of_getField_zero hzero, ← hsub]; exact wordI_getField o w⟩

theorem decodeJalr_eq_ok {k : Reg → Reg → Instr} (h : decodeJalr o w k = .ok i) :
    ∃ a d, i = k a d ∧ wordJ o (getField o w 0 7) a d 0 = w := by
  simp only [decodeJalr, ite_error_eq_ok, not_not, Except.ok.injEq] at h
  obtain ⟨himm, rfl⟩ := h
  exact ⟨_, _, rfl, himm ▸ wordJ_getField o w⟩

theorem decodeJwlr_eq_ok {k : Reg → Instr} (h : decodeJwlr o w k = .ok i) :
    ∃ a, i = k a ∧ wordJ o (getField o w 0 7) a 0 0 = w := by
  simp only [decodeJwlr, ite_error_eq_ok, not_or, not_not, Except.ok.injEq] at h
  obtain ⟨⟨hdest, himm⟩, rfl⟩ := h
  exact ⟨_, rfl, by rw [← getReg_of_getField_zero hdest, ← himm]; exact wordJ_getField o w⟩

theorem decodeJali_eq_ok {k : Reg → BitVec 15 → Instr} (h : decodeJali o w k = .ok i) :
    ∃ d imm, i = k d imm ∧ wordJ o (getField o w 0 7) 0 d imm = w := by
  simp only [decodeJali, ite_error_eq_ok, not_not, Except.ok.injEq] at h
  obtain ⟨hgp1, rfl⟩ := h
  exact ⟨_, _, rfl, getReg_of_getField_zero hgp1 ▸ wordJ_getField o w⟩

theorem decodeB_eq_ok {k : Reg → Reg → Reg → Instr} (h : decodeB o w k = .ok i) :
    ∃ a b t, i = k a b t ∧ wordB o (getField o w 0 7) a b t = w := by
  simp only [decodeB, ite_error_eq_ok, not_not, Except.ok.injEq] at h
  obtain ⟨hsub, hunnamed, rfl⟩ := h
  exact ⟨_, _, _, rfl, wordB_getField hsub hunnamed⟩

theorem decodeBFlag_eq_ok {k : Reg → Instr} (h : decodeBFlag o w k = .ok i) :
    ∃ t, i = k t ∧ wordB o (getField o w 0 7) 0 0 t = w := by
  simp only [decodeBFlag, ite_error_eq_ok, not_or, not_not, Except.ok.injEq] at h
  obtain ⟨hsub, ⟨hunnamed, hgp1, hgp2⟩, rfl⟩ := h
  have hw := wordB_getField hsub hunnamed
  rw [getReg_of_getField_zero hgp1, getReg_of_getField_zero hgp2] at hw
  exact ⟨_, rfl, hw⟩

theorem decodeN_eq_ok {j : Instr} (h : decodeN o w j = .ok i) : i = j ∧ wordX o (getField o w 0 7) 0 = w := by
  simp only [decodeN, ite_error_eq_ok, not_not, Except.ok.injEq] at h
  obtain ⟨hzero, rfl⟩ := h
  exact ⟨rfl, hzero ▸ wordX_getField o w⟩

theorem decodeX_eq_ok {k : BitVec 25 → Instr} (h : decodeX o w k = .ok i) :
    ∃ rest, i = k rest ∧ wordX o (getField o w 0 7) rest = w := by
  cases h
  exact ⟨_, rfl, wordX_getField o w⟩

/-- A row gives an instruction of that row, and its encoding under the word's OPCODE is the word (R93, R95). -/
theorem encodeRow_of_decodeRow {m : Mnemonic} (h : decodeRow o w m = .ok i) :
    i.mnemonic = m ∧ encodeRow o (getField o w 0 7) i = w := by
  cases m with
  | addr | addrc | subr | subrb | mult | div | andr | orr | xorr => obtain ⟨a, b, d, rfl, hw⟩ := decodeR3_eq_ok h; exact ⟨rfl, hw⟩
  | lwrro | swrro | ldrro | sdrro | lhrro | shrro | lbrro | sbrro =>
    obtain ⟨a, b, d, rfl, hw⟩ := decodeR3_eq_ok h; exact ⟨rfl, hw⟩
  | mov | addrpc | notr | lwpro | ldpro | lhpro | lbpro | swap => obtain ⟨a, d, rfl, hw⟩ := decodeR2_eq_ok h; exact ⟨rfl, hw⟩
  | swpro | sdpro | shpro | sbpro => obtain ⟨a, b, rfl, hw⟩ := decodeRStore_eq_ok h; exact ⟨rfl, hw⟩
  | addi | addic | subi | subib | andi | ori | xori | lls | lrs | ars =>
    obtain ⟨a, d, imm, rfl, hw⟩ := decodeI_eq_ok h; exact ⟨rfl, hw⟩
  | lwr | swr | ldr | sdr | lhr | shr | lbr | sbr => obtain ⟨a, d, imm, rfl, hw⟩ := decodeI_eq_ok h; exact ⟨rfl, hw⟩
  | addipc | noti | lwpio | ldpio | lhpio | lbpio => obtain ⟨d, imm, rfl, hw⟩ := decodeIDest_eq_ok h; exact ⟨rfl, hw⟩
  | swpio | sdpio | shpio | sbpio => obtain ⟨a, imm, rfl, hw⟩ := decodeISource_eq_ok h; exact ⟨rfl, hw⟩
  | jalr => obtain ⟨a, d, rfl, hw⟩ := decodeJalr_eq_ok h; exact ⟨rfl, hw⟩
  | jwlr => obtain ⟨a, rfl, hw⟩ := decodeJwlr_eq_ok h; exact ⟨rfl, hw⟩
  | jali => obtain ⟨d, imm, rfl, hw⟩ := decodeJali_eq_ok h; exact ⟨rfl, hw⟩
  | be | bne | bgt | bgte | blt | blte => obtain ⟨a, b, t, rfl, hw⟩ := decodeB_eq_ok h; exact ⟨rfl, hw⟩
  | bz | bnz | bc | bo => obtain ⟨t, rfl, hw⟩ := decodeBFlag_eq_ok h; exact ⟨rfl, hw⟩
  | nop | wfi | wfe | se | sle => obtain ⟨rfl, hw⟩ := decodeN_eq_ok h; exact ⟨rfl, hw⟩
  | lwp | swp | lhp | shp | lbp | sbp | cas => obtain ⟨rest, rfl, hw⟩ := decodeX_eq_ok h; exact ⟨rfl, hw⟩

end

/-- A word that decodes does so by the row its OPCODE names, which exists on the variant (R95, R98). -/
theorem decode_eq_ok {c : Config} {w : BitVec 32} {i : Instr} (h : decode c w = .ok i) :
    ∃ m, c.mnemonicOf (getField c.bitOrder w 0 7) = some m ∧ m.minXlen ≤ c.variant.bits ∧ decodeRow c.bitOrder w m = .ok i := by
  unfold decode at h
  split at h
  · cases h
  · rename_i m hm
    split at h
    · exact ⟨m, hm, by assumption, h⟩
    · cases h

/-- Settles O2: the row gives back the word under the word's own OPCODE, which is the one the map has for the row. -/
theorem encodeOfDecode : Obligations.EncodeOfDecode := by
  intro c w i hmap h
  obtain ⟨m, hm, hx, hrow⟩ := decode_eq_ok h
  obtain ⟨rfl, hw⟩ := encodeRow_of_decodeRow hrow
  refine ⟨?_, decide_eq_true hx⟩
  rw [encode, Config.opcodeOf_mnemonicOf hmap hm, hw]

end Sys2Proof
end

section
/-! The match and mask columns of the opcode table (R92, R94): a mask is the fixed fields of a row, so that a word matches a row exactly
when its OPCODE is the row's and the row decodes it. -/

namespace Sys2Proof

/-! ## Masks as fields -/

/-- The mask that covers a field (R94). -/
theorem and_putField_allOnes (o : BitOrder) (w : BitVec 32) {lo width : Nat} (h : lo + width ≤ 32) :
    w &&& putField o lo (BitVec.allOnes width) = putField o lo (getField o w lo width) := by
  have hones : BitVec.allOnes width = getField o (BitVec.allOnes 32) lo width := by
    apply BitVec.eq_of_getLsbD_eq
    intro k hk
    rw [getField_getLsbD, BitVec.getLsbD_allOnes, BitVec.getLsbD_allOnes, Bool.eq_iff_iff]
    cases o <;> simp only [Bool.and_eq_true, decide_eq_true_eq] <;> omega
  apply BitVec.eq_of_getLsbD_eq
  intro k hk
  rw [hones, BitVec.getLsbD_and, putField_getField_getLsbD o _ k h, putField_getField_getLsbD o w k h, BitVec.getLsbD_allOnes,
    decide_eq_true hk, Bool.and_true, Bool.and_comm]

/-- The mask that covers a list of fields, given by position and width. -/
def fieldsMask (fields : List (Nat × Nat)) : BitVec 32 :=
  fields.foldr (fun f mask => putField .lsb0 f.1 (BitVec.allOnes f.2) ||| mask) 0

/-- Two words agree under the mask of one field exactly when the field reads the same in both. -/
theorem and_putField_allOnes_inj {v w : BitVec 32} {lo width : Nat} (h : lo + width ≤ 32) :
    v &&& putField .lsb0 lo (BitVec.allOnes width) = w &&& putField .lsb0 lo (BitVec.allOnes width) ↔
      getField .lsb0 v lo width = getField .lsb0 w lo width := by
  rw [and_putField_allOnes _ _ h, and_putField_allOnes _ _ h]
  constructor
  · intro he
    have := congrArg (fun u => getField .lsb0 u lo width) he
    simpa only [getField_putField_same _ _ _ h] using this
  · intro he
    rw [he]

/-- Two words agree under a union of masks exactly when they agree under each. -/
theorem and_or_inj {v w p q : BitVec 32} : v &&& (p ||| q) = w &&& (p ||| q) ↔ v &&& p = w &&& p ∧ v &&& q = w &&& q := by
  have habs : ∀ u r t : BitVec 32, u &&& (r ||| t) &&& r = u &&& r := by
    intro u r t
    apply BitVec.eq_of_getLsbD_eq
    intro k _
    simp only [BitVec.getLsbD_and, BitVec.getLsbD_or]
    cases u.getLsbD k <;> cases r.getLsbD k <;> simp
  constructor
  · intro h
    refine ⟨?_, ?_⟩
    · rw [← habs v p q, h, habs]
    · rw [BitVec.or_comm] at h
      rw [← habs v q p, h, habs]
  · rintro ⟨hp, hq⟩
    rw [BitVec.and_or_distrib_left, BitVec.and_or_distrib_left, hp, hq]

/-- A word has the match bits under the mask of some fields exactly when those fields read as the match (R94). -/
theorem and_fieldsMask_eq_iff {fields : List (Nat × Nat)} (hfields : ∀ f ∈ fields, f.1 + f.2 ≤ 32) {w mtch : BitVec 32}
    (hmtch : mtch &&& fieldsMask fields = mtch) :
    w &&& fieldsMask fields = mtch ↔ ∀ f ∈ fields, getField .lsb0 w f.1 f.2 = getField .lsb0 mtch f.1 f.2 := by
  have hinj : w &&& fieldsMask fields = mtch &&& fieldsMask fields ↔
      ∀ f ∈ fields, getField .lsb0 w f.1 f.2 = getField .lsb0 mtch f.1 f.2 := by
    clear hmtch
    induction fields with
    | nil => simp [fieldsMask]
    | cons f fields ih =>
      rw [List.forall_mem_cons] at hfields ⊢
      obtain ⟨hf, hrest⟩ := hfields
      rw [← ih hrest, ← and_putField_allOnes_inj hf]
      exact and_or_inj
  rwa [hmtch] at hinj

/-! ## The fixed fields of each form -/

/-- The word has the match bits of a row with these fixed fields besides the OPCODE, under the default OPCODE_MAP, exactly when its
OPCODE is the row's and the decoding by the row's form succeeds. -/
def MatchesForm (mask mtch w : BitVec 32) (r : Except Illegal Instr) : Prop :=
  w &&& mask = mtch ↔ getField .lsb0 w 0 7 = getField .lsb0 mtch 0 7 ∧ ∃ i, r = .ok i

section
variable {mtch : BitVec 32} (w : BitVec 32)

theorem matches_decodeR3 (k : Reg → Reg → Reg → Instr) (hm : mtch &&& 0xFFC0007F = mtch) (hsub : getField .lsb0 mtch 22 10 = 0) :
    MatchesForm 0xFFC0007F mtch w (decodeR3 .lsb0 w k) := by
  rw [show (0xFFC0007F : BitVec 32) = fieldsMask [(0, 7), (22, 10)] by decide] at hm ⊢
  rw [MatchesForm, and_fieldsMask_eq_iff (by decide) hm]
  simp only [decodeR3, ite_error_eq_ok, exists_and_left]
  simp [hsub]

theorem matches_decodeR2 (k : Reg → Reg → Instr) (hm : mtch &&& 0xFFC1F07F = mtch) (hsub : getField .lsb0 mtch 22 10 = 0)
    (hgp2 : getField .lsb0 mtch 12 5 = 0) : MatchesForm 0xFFC1F07F mtch w (decodeR2 .lsb0 w k) := by
  rw [show (0xFFC1F07F : BitVec 32) = fieldsMask [(0, 7), (22, 10), (12, 5)] by decide] at hm ⊢
  rw [MatchesForm, and_fieldsMask_eq_iff (by decide) hm]
  simp only [decodeR2, ite_error_eq_ok, exists_and_left]
  simp [hsub, hgp2]

theorem matches_decodeRStore (k : Reg → Reg → Instr) (hm : mtch &&& 0xFFFE007F = mtch) (hsub : getField .lsb0 mtch 22 10 = 0)
    (hdest : getField .lsb0 mtch 17 5 = 0) : MatchesForm 0xFFFE007F mtch w (decodeRStore .lsb0 w k) := by
  rw [show (0xFFFE007F : BitVec 32) = fieldsMask [(0, 7), (22, 10), (17, 5)] by decide] at hm ⊢
  rw [MatchesForm, and_fieldsMask_eq_iff (by decide) hm]
  simp only [decodeRStore, ite_error_eq_ok, exists_and_left]
  simp [hsub, hdest]

theorem matches_decodeI (k : Reg → Reg → BitVec 12 → Instr) {sub : BitVec 3} (hm : mtch &&& 0xE000007F = mtch)
    (hsub : getField .lsb0 mtch 29 3 = sub) : MatchesForm 0xE000007F mtch w (decodeI .lsb0 w sub k) := by
  rw [show (0xE000007F : BitVec 32) = fieldsMask [(0, 7), (29, 3)] by decide] at hm ⊢
  rw [MatchesForm, and_fieldsMask_eq_iff (by decide) hm]
  simp only [decodeI, ite_error_eq_ok, exists_and_left]
  simp [hsub]

theorem matches_decodeIDest (k : Reg → BitVec 12 → Instr) (hm : mtch &&& 0xE0000FFF = mtch) (hsub : getField .lsb0 mtch 29 3 = 0)
    (hgp1 : getField .lsb0 mtch 7 5 = 0) : MatchesForm 0xE0000FFF mtch w (decodeIDest .lsb0 w k) := by
  rw [show (0xE0000FFF : BitVec 32) = fieldsMask [(0, 7), (29, 3), (7, 5)] by decide] at hm ⊢
  rw [MatchesForm, and_fieldsMask_eq_iff (by decide) hm]
  simp only [decodeIDest, ite_error_eq_ok, exists_and_left]
  simp [hsub, hgp1]

theorem matches_decodeISource (k : Reg → BitVec 12 → Instr) (hm : mtch &&& 0xE001F07F = mtch) (hsub : getField .lsb0 mtch 29 3 = 0)
    (hzero : getField .lsb0 mtch 12 5 = 0) : MatchesForm 0xE001F07F mtch w (decodeISource .lsb0 w k) := by
  rw [show (0xE001F07F : BitVec 32) = fieldsMask [(0, 7), (29, 3), (12, 5)] by decide] at hm ⊢
  rw [MatchesForm, and_fieldsMask_eq_iff (by decide) hm]
  simp only [decodeISource, ite_error_eq_ok, exists_and_left]
  simp [hsub, hzero]

theorem matches_decodeJalr (k : Reg → Reg → Instr) (hm : mtch &&& 0xFFFE007F = mtch) (himm : getField .lsb0 mtch 17 15 = 0) :
    MatchesForm 0xFFFE007F mtch w (decodeJalr .lsb0 w k) := by
  rw [show (0xFFFE007F : BitVec 32) = fieldsMask [(0, 7), (17, 15)] by decide] at hm ⊢
  rw [MatchesForm, and_fieldsMask_eq_iff (by decide) hm]
  simp only [decodeJalr, ite_error_eq_ok, exists_and_left]
  simp [himm]

theorem matches_decodeJwlr (k : Reg → Instr) (hm : mtch &&& 0xFFFFF07F = mtch) (hdest : getField .lsb0 mtch 12 5 = 0)
    (himm : getField .lsb0 mtch 17 15 = 0) : MatchesForm 0xFFFFF07F mtch w (decodeJwlr .lsb0 w k) := by
  rw [show (0xFFFFF07F : BitVec 32) = fieldsMask [(0, 7), (12, 5), (17, 15)] by decide] at hm ⊢
  rw [MatchesForm, and_fieldsMask_eq_iff (by decide) hm]
  simp only [decodeJwlr, ite_error_eq_ok, exists_and_left]
  simp [hdest, himm]

theorem matches_decodeJali (k : Reg → BitVec 15 → Instr) (hm : mtch &&& 0x00000FFF = mtch) (hgp1 : getField .lsb0 mtch 7 5 = 0) :
    MatchesForm 0x00000FFF mtch w (decodeJali .lsb0 w k) := by
  rw [show (0x00000FFF : BitVec 32) = fieldsMask [(0, 7), (7, 5)] by decide] at hm ⊢
  rw [MatchesForm, and_fieldsMask_eq_iff (by decide) hm]
  simp only [decodeJali, ite_error_eq_ok, exists_and_left]
  simp [hgp1]

theorem matches_decodeB (k : Reg → Reg → Reg → Instr) (hm : mtch &&& 0xFC0007FF = mtch) (hsub : getField .lsb0 mtch 26 6 = 0)
    (hunnamed : getField .lsb0 mtch 7 4 = 0) : MatchesForm 0xFC0007FF mtch w (decodeB .lsb0 w k) := by
  rw [show (0xFC0007FF : BitVec 32) = fieldsMask [(0, 7), (26, 6), (7, 4)] by decide] at hm ⊢
  rw [MatchesForm, and_fieldsMask_eq_iff (by decide) hm]
  simp only [decodeB, ite_error_eq_ok, exists_and_left]
  simp [hsub, hunnamed]

theorem matches_decodeBFlag (k : Reg → Instr) (hm : mtch &&& 0xFC1FFFFF = mtch) (hsub : getField .lsb0 mtch 26 6 = 0)
    (hunnamed : getField .lsb0 mtch 7 4 = 0) (hgp1 : getField .lsb0 mtch 11 5 = 0) (hgp2 : getField .lsb0 mtch 16 5 = 0) :
    MatchesForm 0xFC1FFFFF mtch w (decodeBFlag .lsb0 w k) := by
  rw [show (0xFC1FFFFF : BitVec 32) = fieldsMask [(0, 7), (26, 6), (7, 4), (11, 5), (16, 5)] by decide] at hm ⊢
  rw [MatchesForm, and_fieldsMask_eq_iff (by decide) hm]
  simp only [decodeBFlag, ite_error_eq_ok, exists_and_left]
  simp [hsub, hunnamed, hgp1, hgp2]

theorem matches_decodeN (i : Instr) (hm : mtch &&& 0xFFFFFFFF = mtch) (hzero : getField .lsb0 mtch 7 25 = 0) :
    MatchesForm 0xFFFFFFFF mtch w (decodeN .lsb0 w i) := by
  rw [show (0xFFFFFFFF : BitVec 32) = fieldsMask [(0, 7), (7, 25)] by decide] at hm ⊢
  rw [MatchesForm, and_fieldsMask_eq_iff (by decide) hm]
  simp only [decodeN, ite_error_eq_ok, exists_and_left]
  simp [hzero]

theorem matches_decodeX (k : BitVec 25 → Instr) (hm : mtch &&& 0x0000007F = mtch) :
    MatchesForm 0x0000007F mtch w (decodeX .lsb0 w k) := by
  rw [show (0x0000007F : BitVec 32) = fieldsMask [(0, 7)] by decide] at hm ⊢
  rw [MatchesForm, and_fieldsMask_eq_iff (by decide) hm]
  simp [decodeX]

end

/-- A word has the match bits of a row under the row's mask exactly when its OPCODE is that of the row and the row decodes it (R94). -/
theorem matches_decodeRow (w : BitVec 32) (m : Mnemonic) : MatchesForm m.matchMask.2 m.matchMask.1 w (decodeRow .lsb0 w m) := by
  cases m with
  | addr | addrc | subr | subrb | mult | div | andr | orr | xorr => exact matches_decodeR3 w _ (by decide) (by decide)
  | lwrro | swrro | ldrro | sdrro | lhrro | shrro | lbrro | sbrro => exact matches_decodeR3 w _ (by decide) (by decide)
  | mov | addrpc | notr | lwpro | ldpro | lhpro | lbpro | swap => exact matches_decodeR2 w _ (by decide) (by decide) (by decide)
  | swpro | sdpro | shpro | sbpro => exact matches_decodeRStore w _ (by decide) (by decide) (by decide)
  | addi | addic | subi | subib | andi | ori | xori | lls | lrs | ars => exact matches_decodeI w _ (by decide) (by decide)
  | lwr | swr | ldr | sdr | lhr | shr | lbr | sbr => exact matches_decodeI w _ (by decide) (by decide)
  | addipc | noti | lwpio | ldpio | lhpio | lbpio => exact matches_decodeIDest w _ (by decide) (by decide) (by decide)
  | swpio | sdpio | shpio | sbpio => exact matches_decodeISource w _ (by decide) (by decide) (by decide)
  | jalr => exact matches_decodeJalr w _ (by decide) (by decide)
  | jwlr => exact matches_decodeJwlr w _ (by decide) (by decide) (by decide)
  | jali => exact matches_decodeJali w _ (by decide) (by decide)
  | be | bne | bgt | bgte | blt | blte => exact matches_decodeB w _ (by decide) (by decide) (by decide)
  | bz | bnz | bc | bo => exact matches_decodeBFlag w _ (by decide) (by decide) (by decide) (by decide) (by decide)
  | nop | wfi | wfe | se | sle => exact matches_decodeN w _ (by decide) (by decide)
  | lwp | swp | lhp | shp | lbp | sbp | cas => exact matches_decodeX w _ (by decide)

/-! ## The default parameters -/

/-- The default OPCODE_MAP is a well-formed map (R7, R92). -/
theorem opcodeMapOk_default (x : Variant) (map : List Region) (halt : Word) : (Config.default x map halt).opcodeMapOk = true := by
  have htable : tableConfig.opcodeMapOk = true := by decide
  exact htable

/-- The default OPCODE_MAP gives a row its mnemonic under the OPCODE of its match bits (R92, R94). -/
theorem mnemonicOf_matchMask (x : Variant) (map : List Region) (halt : Word) (m : Mnemonic) :
    (Config.default x map halt).mnemonicOf (getField .lsb0 m.matchMask.1 0 7) = some m := by
  cases m <;> rfl

/-- The OPCODE of a row under the default OPCODE_MAP is that of its match bits, the map being injective (R92, R94). -/
theorem opcode_of_mnemonicOf_default {x : Variant} {map : List Region} {halt : Word} {op : BitVec 7} {m : Mnemonic}
    (h : (Config.default x map halt).mnemonicOf op = some m) : op = getField .lsb0 m.matchMask.1 0 7 := by
  have hmap := opcodeMapOk_default x map halt
  rw [← Config.opcodeOf_mnemonicOf hmap h, ← Config.opcodeOf_mnemonicOf hmap (mnemonicOf_matchMask x map halt m)]

/-- Settles O3: a matching word decodes by its row, as wide as the variant allows; a word that decodes matches the row it decodes by. -/
theorem decodeFollowsTable : Obligations.DecodeFollowsTable := by
  intro x map halt w
  refine ⟨fun m hmatch => ?_, fun hnone => ?_⟩
  · obtain ⟨hop, i, hi⟩ := (matches_decodeRow w m).mp hmatch
    have hm : (Config.default x map halt).mnemonicOf (getField .lsb0 w 0 7) = some m := by
      rw [hop]
      exact mnemonicOf_matchMask x map halt m
    refine ⟨fun hwide => ?_, fun hnarrow => ?_⟩
    · have hdecode : decode (Config.default x map halt) w = .ok i := (decode_of_mnemonicOf hm hwide).trans hi
      exact ⟨i, hdecode, (encodeRow_of_decodeRow hi).1, (encodeOfDecode _ w i (opcodeMapOk_default x map halt) hdecode).1⟩
    · have hrow : (Config.default x map halt).mnemonicOf (getField (Config.default x map halt).bitOrder w 0 7) = some m := hm
      rw [decode, hrow]
      exact if_neg (not_le.mpr hnarrow)
  · cases hd : decode (Config.default x map halt) w with
    | error e => exact ⟨e, rfl⟩
    | ok i =>
      obtain ⟨m, hm, -, hi⟩ := decode_eq_ok hd
      exact absurd ((matches_decodeRow w m).mpr ⟨opcode_of_mnemonicOf_default hm, i, hi⟩) (hnone m)

/-- Settles O4: the words run through the decoder, one after the other. -/
theorem exampleWordsDecode : Obligations.ExampleWordsDecode :=
  ⟨rfl, rfl, rfl, rfl, rfl, rfl, rfl, rfl, rfl, rfl, rfl⟩

end Sys2Proof

namespace Sys2Proof.Machine

/-- The seven undescribed instructions are refused by name (R196 to R203). -/
theorem exec_undescribed {i : Instr} (s : State) (h : i.undescribed = true) : exec i s = .refused (.noSemantics i.mnemonic) := by
  cases i with
  | lwp | swp | lhp | shp | lbp | sbp | cas => rfl
  | _ => cases h

/-- Settles O60: the refusals are the meanings' own; the words decode by the X-format rows of their OPCODEs, which interpret no other
bit. -/
theorem undescribedAreRefused : Obligations.UndescribedAreRefused := by
  refine ⟨fun i s h => exec_undescribed s h, fun x map halt w p hp hw => ?_⟩
  have hdefault : ∀ q ∈ [(0x40#7, Mnemonic.lwp), (0x41#7, .swp), (0x42#7, .lhp), (0x43#7, .shp), (0x44#7, .lbp), (0x45#7, .sbp),
      (0x47#7, .cas)], (defaultOpcodeMap.find? (fun r => r.2 == q.1)).map Prod.fst = some q.2 ∧ q.2.minXlen ≤ 32 := by decide
  obtain ⟨hm, hx⟩ := hdefault p hp
  rw [← hw] at hm
  have hdecode := decode_default hm hx x map halt
  simp only [List.mem_cons, List.not_mem_nil, or_false] at hp
  rcases hp with rfl | rfl | rfl | rfl | rfl | rfl | rfl <;> exact ⟨_, hdecode, rfl⟩

end Sys2Proof.Machine
end

section
/-! What each effect of an instruction leaves unchanged: the parameters, the flags, memory outside a store's bytes, the other cores; and
where it leaves `pc`. One lemma per part of the state over the eleven effects, from which the frames of `exec` follow. -/

namespace Sys2Proof.Machine

/-! ## The two outcomes of a wait -/

/-- A WFI or WFE has taken its input, and then retired or not (R238, R239): of the core's own state only that input and `pc` differ. -/
theorem wait_frame {s u t : State} (hu : u = s.takeIrq ∨ u = s.takeEvent) (ht : t = u ∨ t = u.advance) :
    t.cfg = s.cfg ∧ t.core.flags = s.core.flags ∧ t.mem = s.mem ∧ t.others = s.others := by
  rcases hu with rfl | rfl <;> rcases ht with rfl | rfl <;> exact ⟨rfl, rfl, rfl, rfl⟩

/-! ## Parameters and flags -/

/-- No effect changes a parameter (R291). -/
theorem Effect.cfg {s t : State} {i : Instr} (h : Effect s i t) : t.cfg = s.cfg := by
  cases h with
  | wait _ u _ hu ht => exact (wait_frame hu ht).1
  | _ => rfl

/-- The flags after an effect: C, V and Z written by an add or subtract, or all four as before (R30 to R34). -/
theorem Effect.flags {s t : State} {i : Instr} (h : Effect s i t) :
    (i.writesFlags = true ∧ t.core.flags.k = s.core.flags.k) ∨ KeepsFlags s t := by
  cases h with
  | sum d q hf => exact .inl ⟨hf, rfl⟩
  | wait _ u _ hu ht =>
    obtain ⟨-, hflags, -, -⟩ := wait_frame hu ht
    exact .inr hflags
  | _ => exact .inr rfl

/-- Settles O15: of the effects only an add or subtract writes flags, and that one leaves K. -/
theorem flagsOnlyByAddAndSubtract : Obligations.FlagsOnlyByAddAndSubtract := by
  intro i s t h
  rcases (exec_effect h).flags with ⟨hw, hk⟩ | hkeeps
  · exact ⟨hk, fun hnot => absurd hw (by simp [hnot])⟩
  · exact ⟨congrArg Flags.k hkeeps, fun _ => hkeeps⟩

/-! ## Memory -/

/-- A store writes memory (R157). -/
theorem writesMemory_of_storeAccess {s : State} {i : Instr} (h : (storeAccess s i).isSome = true) : writesMemory s i = true := by
  cases i with
  | swap => rfl
  | _ => exact h

/-- Memory after an effect: as before, or with the bytes of one permitted store, at the access of the instruction (R56, R157, R204). -/
theorem Effect.mem {s t : State} {i : Instr} (h : Effect s i t) :
    t.mem = s.mem ∨ ∃ ea n v, writesMemory s i = true ∧ dataAccess s i = some (ea, n) ∧
      s.memWrite ea n v = .ok (s.storeBytes ea n v) ∧ t.mem = (s.storeBytes ea n v).mem := by
  cases h with
  | store data ea n _ _ ha hw =>
    exact .inr ⟨ea, n, s.x data, writesMemory_of_storeAccess (by rw [ha]; rfl), (dataAccess_of_store ha).1, hw, rfl⟩
  | swap a d v hi _ hw =>
    subst hi
    exact .inr ⟨s.x a, s.cfg.variant.bytes, s.x d, rfl, rfl, hw, rfl⟩
  | wait _ u _ hu ht =>
    obtain ⟨-, -, hmem, -⟩ := wait_frame hu ht
    exact .inl hmem
  | _ => exact .inl rfl

/-- A byte reads as before where the memory is the same. -/
theorem State.byte_of_mem {s t : State} (h : t.mem = s.mem) (a : Nat) : t.byte a = s.byte a := by
  rw [State.byte, h, State.byte]

/-- A data access of an instruction that gives a next state is aligned (R61). -/
theorem aligned_of_exec_next {s t : State} {i : Instr} {ea : Word} {n : Nat} (ha : dataAccess s i = some (ea, n))
    (h : exec i s = .next t) : ea.toNat % n = 0 := by
  by_contra hmis
  rw [exec_misaligned ha hmis] at h
  cases h

/-- The bytes of an aligned data access follow its address (R63). -/
theorem mem_addresses_of_dataAccess {s : State} {i : Instr} {ea : Word} {n a : Nat} (ha : dataAccess s i = some (ea, n))
    (h0 : ea.toNat % n = 0) : a ∈ s.addresses ea n ↔ ∃ j < n, a = ea.toNat + j := by
  obtain ⟨hn, hlt⟩ := dataAccess_bounds ha
  exact mem_byteAddresses_aligned hn h0 hlt

/-- Settles O17: the one write to memory of an effect is a store at the aligned access of the instruction. -/
theorem memoryOnlyByStoresAndSwap : Obligations.MemoryOnlyByStoresAndSwap := by
  intro i s t h
  rcases (exec_effect h).mem with hmem | ⟨ea, n, v, hwrites, ha, -, hmem⟩
  · exact ⟨fun _ a => State.byte_of_mem hmem a, fun _ _ _ _ a _ => State.byte_of_mem hmem a⟩
  · refine ⟨fun hnot => absurd hwrites (by simp [hnot]), fun ea' n' _ ha' a hout => ?_⟩
    rw [ha'] at ha
    cases ha
    rw [State.byte_of_mem hmem a]
    refine s.storeBytes_byte_other ea n v a fun hin => ?_
    obtain ⟨j, hj, rfl⟩ := (mem_addresses_of_dataAccess ha' (aligned_of_exec_next ha' h)).mp hin
    exact hout j hj rfl

/-! ## The program counter -/

/-- Where an effect leaves `pc`: at the next instruction, at a waiting WFI or WFE, at a jump's target, at a branch's aligned target. -/
theorem Effect.pc {s t : State} {i : Instr} (h : Effect s i t) :
    FallsThrough s t ∨ (i.waits = true ∧ t.pc = s.pc) ∨ i.jumps = true ∨ (i.assignsPc = true ∧ t.pc.toNat % 4 = 0) := by
  cases h with
  | sum d q => exact .inl (s.writeSum d q).advance_fallsThrough
  | reg d v => exact .inl (s.setX d v).advance_fallsThrough
  | free a b d v => exact .inl (s.setX d v).draw.advance_fallsThrough
  | store data ea n => exact .inl (s.storeBytes ea n (s.x data)).advance_fallsThrough
  | swap a d v => exact .inl ((s.storeBytes (s.x a) s.cfg.variant.bytes (s.x d)).setX d v).advance_fallsThrough
  | skip => exact .inl s.advance_fallsThrough
  | send => exact .inl s.sendEvent.advance_fallsThrough
  | wait hw u t hu ht =>
    rcases ht with rfl | rfl
    · refine .inr (.inl ⟨hw, ?_⟩)
      rcases hu with rfl | rfl <;> rfl
    · left
      rcases hu with rfl | rfl
      · exact s.takeIrq.advance_fallsThrough
      · exact s.takeEvent.advance_fallsThrough
  | link d p hj => exact .inr (.inr (.inl hj))
  | jump a hi => exact .inr (.inr (.inl (by rw [hi]; rfl)))
  | taken r hp _ _ h4 => exact .inr (.inr (.inr ⟨hp, by rwa [State.setPc_readPc, State.fit_x]⟩))

/-- A jump assigns `pc` (R27). -/
theorem assignsPc_of_jumps {i : Instr} (h : i.jumps = true) : i.assignsPc = true := by
  simp only [Instr.jumps, Instr.assignsPc, List.contains_eq_mem, List.mem_cons, List.not_mem_nil, decide_eq_true_eq] at h ⊢
  tauto

/-- Settles O18: the effects that neither advance nor wait are those of instructions that assign `pc`. -/
theorem pcAdvancesByFour : Obligations.PcAdvancesByFour := by
  intro i s t hp h
  rcases (exec_effect h).pc with hf | hw | hj | ⟨ha, -⟩
  · exact .inl hf
  · exact .inr hw
  · exact absurd (assignsPc_of_jumps hj) (by simp [hp])
  · exact absurd ha (by simp [hp])

/-- The implicit advance keeps the alignment of `pc`, `2^XLEN` being a multiple of 4 (R27). -/
theorem FallsThrough.aligned {s t : State} (h : FallsThrough s t) (h4 : s.pc.toNat % 4 = 0) : t.pc.toNat % 4 = 0 := by
  rw [h, State.xlen, Nat.mod_mod_of_dvd _ s.cfg.variant.four_dvd]
  omega

/-- Settles O19: falling through, waiting and a taken branch leave `pc` aligned, so that only the jumps remain. -/
theorem onlyJumpsMisalignPc : Obligations.OnlyJumpsMisalignPc := by
  intro i s t h4 h hmis
  rcases (exec_effect h).pc with hf | ⟨-, hpc⟩ | hj | ⟨-, ht⟩
  · exact absurd (hf.aligned h4) hmis
  · exact absurd (hpc ▸ h4) hmis
  · exact hj
  · exact absurd ht hmis

/-! ## The other cores -/

/-- The other cores after an effect: SE may have given some of them an event, and nothing else reaches them (R20, R240). -/
theorem Effect.others {s t : State} {i : Instr} (h : Effect s i t) :
    t.others = s.others ∨ (i = .se ∧ t.others = s.sendEvent.others) := by
  cases h with
  | send hi => exact .inr ⟨hi, rfl⟩
  | wait _ u _ hu ht =>
    obtain ⟨-, -, -, hothers⟩ := wait_frame hu ht
    exact .inl hothers
  | _ => exact .inl rfl

/-- SE changes nothing of another core but its input `event` (R240). -/
theorem sendEvent_privatePart (s : State) : s.sendEvent.others.map Core.privatePart = s.others.map Core.privatePart := by
  rw [State.sendEvent_others, List.map_map]
  refine List.map_congr_left fun c _ => ?_
  simp only [Function.comp_apply]
  split <;> rfl

/-- Settles O20: the other cores are as before, or SE has set inputs `event` of theirs. -/
theorem otherCoresKeepTheirState : Obligations.OtherCoresKeepTheirState := by
  intro i s t h
  rcases (exec_effect h).others with hsame | ⟨rfl, hsend⟩
  · exact ⟨by rw [hsame], fun _ => hsame⟩
  · exact ⟨by rw [hsend, sendEvent_privatePart], fun hne => absurd rfl hne⟩

/-- An instruction leaves as many cores as there were (R283). -/
theorem Effect.others_length {s t : State} {i : Instr} (h : Effect s i t) : t.others.length = s.others.length := by
  rcases h.others with hsame | ⟨-, hsend⟩
  · rw [hsame]
  · rw [hsend, State.sendEvent_others, List.length_map]

/-- With one core there is one core after the instruction (R283). -/
theorem others_nil_of_exec {s t : State} {i : Instr} (h : exec i s = .next t) (h1 : s.others = []) : t.others = [] := by
  have hlen := (exec_effect h).others_length
  rwa [h1, List.length_nil, List.length_eq_zero_iff] at hlen

end Sys2Proof.Machine
end

section
/-! Steps: the fetch by its four bytes, the hand-over, and what a step leaves unchanged (R75, R296, R298). -/

namespace Sys2Proof.Machine

/-! ## Fetch by bytes -/

/-- The addresses of an aligned fetch are the four that follow `pc` (R63, R75). -/
theorem State.mem_fetchAddresses {s : State} (h4 : s.pc.toNat % 4 = 0) {a : Nat} :
    a ∈ s.addresses s.pc 4 ↔ ∃ k < 4, a = s.pc.toNat + k :=
  mem_byteAddresses_aligned (by decide) h4 s.pc_lt

/-- The program text is part of MEM_MAP (R68). -/
theorem State.mapped_of_inText {s : State} {a : Nat} (h : s.inText a = true) : s.mapped a = true := by
  obtain ⟨r, hr, hboth⟩ := List.any_eq_true.mp h
  exact List.any_eq_true.mpr ⟨r, hr, (Bool.and_eq_true_iff.mp hboth).2⟩

/-- A fetch of a byte that does not exist (R66, R75). -/
theorem State.fetchAt_unmapped {s : State} {pc : Word} {a : Nat} (h4 : pc.toNat % 4 = 0) (ha : a ∈ s.addresses pc 4)
    (h : s.mapped a = false) : s.fetchAt pc = .error (.fault (.accessFault pc 4)) := by
  rw [State.fetchAt, if_neg (not_not.mpr h4)]
  refine if_neg fun hall => ?_
  rw [List.all_eq_true.mp hall a ha] at h
  cases h

/-- A fetch of bytes that exist, one of them outside the program text (R68, R75). -/
theorem State.fetchAt_outsideText {s : State} {pc : Word} {a : Nat} (h4 : pc.toNat % 4 = 0)
    (hmap : ∀ b ∈ s.addresses pc 4, s.mapped b = true) (ha : a ∈ s.addresses pc 4) (h : s.inText a = false) :
    s.fetchAt pc = .error (.refuse .fetchOutsideProgramText) := by
  rw [State.fetchAt, if_neg (not_not.mpr h4), if_pos (List.all_eq_true.mpr hmap)]
  refine if_neg fun hall => ?_
  rw [List.all_eq_true.mp hall a ha] at h
  cases h

/-- A concatenation of bit strings as a number. -/
theorem append_toNat {m n : Nat} (a : BitVec m) (b : BitVec n) : (a ++ b).toNat = a.toNat * 2 ^ n + b.toNat := by
  rw [BitVec.toNat_append, ← Nat.shiftLeft_add_eq_or_of_lt b.isLt, Nat.shiftLeft_eq]

/-- Four bytes, assembled little-endian, are the word with the byte at the lowest address lowest (R53). -/
theorem littleEndian_four (b0 b1 b2 b3 : Byte) : BitVec.ofNat 32 (littleEndian [b0, b1, b2, b3]) = b3 ++ b2 ++ b1 ++ b0 := by
  apply BitVec.eq_of_toNat_eq
  have h0 := b0.isLt
  have h1 := b1.isLt
  have h2 := b2.isLt
  have h3 := b3.isLt
  simp only [BitVec.toNat_ofNat, append_toNat, littleEndian]
  omega

/-- The fetch from four bytes of program text that hold values gives their little-endian word (R53, R75). -/
theorem State.fetch_of_bytes {s : State} {b0 b1 b2 b3 : Byte} (h4 : s.pc.toNat % 4 = 0)
    (htext : ∀ k < 4, s.inText (s.pc.toNat + k) = true) (hb0 : s.byte s.pc.toNat = some b0)
    (hb1 : s.byte (s.pc.toNat + 1) = some b1) (hb2 : s.byte (s.pc.toNat + 2) = some b2) (hb3 : s.byte (s.pc.toNat + 3) = some b3) :
    s.fetch = .ok (b3 ++ b2 ++ b1 ++ b0) := by
  have haddr : s.addresses s.pc 4 = [s.pc.toNat, s.pc.toNat + 1, s.pc.toNat + 2, s.pc.toNat + 3] := by
    have hwrap : ∀ k < 4, (s.pc.toNat + k) % 2 ^ s.cfg.variant.bits = s.pc.toNat + k := fun k hk =>
      byteAddresses_aligned _ _ 4 k (by decide) h4 s.pc_lt hk
    have h0 := hwrap 0 (by decide)
    rw [Nat.add_zero] at h0
    simp [State.addresses, byteAddresses, List.range_succ, h0, hwrap]
  refine State.fetchAt_eq_ok.mpr ⟨h4, ?_, ?_, ?_, ?_⟩
  · intro a ha
    obtain ⟨k, hk, rfl⟩ := (State.mem_fetchAddresses h4).mp ha
    exact State.mapped_of_inText (htext k hk)
  · intro a ha
    obtain ⟨k, hk, rfl⟩ := (State.mem_fetchAddresses h4).mp ha
    exact htext k hk
  · simp [haddr, hb0, hb1, hb2, hb3]
  · rw [State.valueAt, haddr, ← littleEndian_four]
    simp [hb0, hb1, hb2, hb3]

/-- Settles O6: the three stops of an aligned fetch and of the decoding after it. -/
theorem fetchStops : Obligations.FetchStops := by
  intro s hrun h4
  refine ⟨?_, ?_, ?_⟩
  · rintro ⟨k, hk, hmap⟩
    exact step_fetch_error hrun (State.fetchAt_unmapped h4 ((State.mem_fetchAddresses h4).mpr ⟨k, hk, rfl⟩) hmap)
  · rintro hmap ⟨k, hk, htext⟩
    refine step_fetch_error hrun
      (State.fetchAt_outsideText h4 (fun a ha => ?_) ((State.mem_fetchAddresses h4).mpr ⟨k, hk, rfl⟩) htext)
    obtain ⟨j, hj, rfl⟩ := (State.mem_fetchAddresses h4).mp ha
    exact hmap j hj
  · intro b0 b1 b2 b3 e htext hb0 hb1 hb2 hb3 hd
    exact step_illegal hrun (State.fetch_of_bytes h4 htext hb0 hb1 hb2 hb3) hd

/-! ## The hand-over -/

/-- With one core the hand-over changes nothing (R298). -/
theorem State.handOver_single {s : State} (h : s.others = []) : s.handOver = s := by
  rcases s.handOver_spec with ⟨-, he⟩ | ⟨hne, -⟩
  · exact he
  · exact absurd h hne

/-- The hand-over leaves as many cores (R298). -/
theorem State.handOver_others_length (s : State) : s.handOver.others.length = s.others.length := by
  have hlen := s.handOver_perm.length_eq
  rwa [List.length_cons, List.length_cons, Nat.add_right_cancel_iff] at hlen

/-- Whether a core has ended depends on the parameters and the core (R296). -/
theorem State.ended_of_cfg {s t : State} (h : t.cfg = s.cfg) (c : Core) : t.ended c = s.ended c := by
  rw [State.ended, h, State.ended]

/-- Settles O5: the fetch gives the word of the four bytes, and with one core the hand-over after `exec` changes nothing. -/
theorem stepRunsDecodedInstruction : Obligations.StepRunsDecodedInstruction := by
  intro s b0 b1 b2 b3 i hrun h4 htext hb0 hb1 hb2 hb3 hd
  have hstep := step_exec hrun (State.fetch_of_bytes h4 htext hb0 hb1 hb2 hb3) hd
  refine ⟨hstep, fun hone => ?_⟩
  rw [hstep]
  cases he : exec i s with
  | next t => rw [onNext_next, State.handOver_single (others_nil_of_exec he hone)]
  | fault f => rfl
  | refused r => rfl

/-- The hand-over of a run that has ended is one that has ended, its cores being the same (R296, R298). -/
theorem State.runEnded_handOver {s : State} (h : s.runEnded = true) : s.handOver.runEnded = true := by
  refine List.all_eq_true.mpr fun c hc => ?_
  rw [State.ended_of_cfg s.handOver_cfg]
  exact List.all_eq_true.mp h c (s.handOver_perm.mem_iff.mp hc)

/-- Settles O8: an ended core's step is the hand-over, which permutes the cores. -/
theorem endedStepAndHandOver : Obligations.EndedStepAndHandOver := by
  intro s
  refine ⟨step_ended, fun hrun => ?_, s.handOver_cfg, s.handOver_mem, s.handOver_perm, State.handOver_single⟩
  have hcore : s.ended s.core = true := List.all_eq_true.mp hrun s.core (List.mem_cons_self ..)
  exact ⟨s.handOver, step_ended hcore, State.runEnded_handOver hrun, s.handOver_mem⟩

/-! ## What a step keeps -/

/-- The program text reads as before after an effect, a store into it being refused (R68). -/
theorem Effect.text {s t : State} {i : Instr} (h : Effect s i t) {a : Nat} (ha : s.inText a = true) : t.byte a = s.byte a := by
  rcases h.mem with hmem | ⟨ea, n, v, -, -, hw, hmem⟩
  · exact State.byte_of_mem hmem a
  · obtain ⟨-, htext, -⟩ := State.memWrite_eq_ok.mp hw
    rw [State.byte_of_mem hmem a]
    exact s.storeBytes_byte_other ea n v a fun hin => by simp [htext a hin] at ha

/-- Settles O14: an effect and the hand-over each keep the parameters, the number of cores and the text. -/
theorem parametersAndTextNeverChange : Obligations.ParametersAndTextNeverChange := by
  intro s t h
  rcases step_next h with ⟨-, rfl⟩ | ⟨-, w, i, u, -, -, hu, rfl⟩
  · exact ⟨s.handOver_cfg, s.handOver_others_length, fun a _ => State.byte_of_mem s.handOver_mem a⟩
  · have he := exec_effect hu
    refine ⟨u.handOver_cfg.trans he.cfg, u.handOver_others_length.trans he.others_length, fun a ha => ?_⟩
    exact (State.byte_of_mem u.handOver_mem a).trans (he.text ha)

end Sys2Proof.Machine
end

section
/-! The launch and the invariant: what a launch gives each core and each byte, the invariant of the first state, and its preservation by
every effect and by the hand-over (R291). -/

namespace Sys2Proof.Machine

/-! ## First values of registers and flags -/

/-- The registers after first values are given, in the order of the list (R291 f). -/
def assignAll (g : Vector Word 32) (values : List (Reg × Word)) : Vector Word 32 :=
  values.foldl (fun g p => g.set p.1 p.2) g

theorem Core.launch_gp (l : CoreLaunch) : (Core.launch l).gp = assignAll (Vector.replicate 32 0) l.registers := rfl

/-- One register given a value: it holds it, the others are as before (R11). -/
theorem set_getElem (g : Vector Word 32) (i r : Reg) (v : Word) : (g.set i v)[r] = if r = i then v else g[r] := by
  simp only [Fin.getElem_fin, Vector.getElem_set, Fin.ext_iff, eq_comm]

/-- A register not given a value is as before. -/
theorem assignAll_other (g : Vector Word 32) {values : List (Reg × Word)} {r : Reg} (h : r ∉ values.map Prod.fst) :
    (assignAll g values)[r] = g[r] := by
  induction values generalizing g with
  | nil => rfl
  | cons p values ih =>
    obtain ⟨hne, hrest⟩ := List.ne_and_not_mem_of_not_mem_cons h
    exact (ih (g.set p.1 p.2) hrest).trans (by rw [set_getElem, if_neg hne])

/-- A register given one value holds it. -/
theorem assignAll_mem (g : Vector Word 32) {values : List (Reg × Word)} (hn : (values.map Prod.fst).Nodup) {p : Reg × Word}
    (hp : p ∈ values) : (assignAll g values)[p.1] = p.2 := by
  induction values generalizing g with
  | nil => simp at hp
  | cons q values ih =>
    obtain ⟨hq, hrest⟩ := List.nodup_cons.mp hn
    rcases List.mem_cons.mp hp with rfl | hp
    · exact (assignAll_other (g.set p.1 p.2) hq).trans (by rw [set_getElem, if_pos rfl])
    · exact ih (g.set q.1 q.2) hrest hp

/-- Registers of XLEN-bit values remain so when XLEN-bit values are given. -/
theorem assignAll_lt {bound : Nat} {g : Vector Word 32} {values : List (Reg × Word)} (hg : ∀ r : Reg, g[r].toNat < bound)
    (hv : ∀ p ∈ values, p.2.toNat < bound) (r : Reg) : (assignAll g values)[r].toNat < bound := by
  induction values generalizing g with
  | nil => exact hg r
  | cons p values ih =>
    rw [List.forall_mem_cons] at hv
    refine ih (g := g.set p.1 p.2) (fun i => ?_) hv.2
    rw [set_getElem]
    split
    · exact hv.1
    · exact hg i

/-- One flag given a value: it has it, the others are as before. -/
theorem Flags.named_assign (f : Flags) (p : FlagName × Bool) (n : FlagName) :
    (f.assign p).named n = if n = p.1 then p.2 else f.named n := by
  obtain ⟨m, b⟩ := p
  cases m <;> cases n <;> rfl

/-- A flag not given a value is as before. -/
theorem Flags.named_foldl_assign_other (f : Flags) {values : List (FlagName × Bool)} {n : FlagName} (h : n ∉ values.map Prod.fst) :
    (values.foldl Flags.assign f).named n = f.named n := by
  induction values generalizing f with
  | nil => rfl
  | cons p values ih =>
    obtain ⟨hne, hrest⟩ := List.ne_and_not_mem_of_not_mem_cons h
    exact (ih (f.assign p) hrest).trans (by rw [Flags.named_assign, if_neg hne])

/-- A flag given one value has it. -/
theorem Flags.named_foldl_assign_mem (f : Flags) {values : List (FlagName × Bool)} (hn : (values.map Prod.fst).Nodup)
    {p : FlagName × Bool} (hp : p ∈ values) : (values.foldl Flags.assign f).named p.1 = p.2 := by
  induction values generalizing f with
  | nil => simp at hp
  | cons q values ih =>
    obtain ⟨hq, hrest⟩ := List.nodup_cons.mp hn
    rcases List.mem_cons.mp hp with rfl | hp
    · exact (Flags.named_foldl_assign_other (f.assign p) hq).trans (by rw [Flags.named_assign, if_pos rfl])
    · exact ih (f.assign q) hrest hp

/-! ## The first state -/

/-- Settles O10: the cores are a permutation of the launch's, each with its first values; the bytes are those of the image. -/
theorem launchLeaves : Obligations.LaunchLeaves := by
  intro l _
  obtain ⟨hcfg, hmem, -, hperm⟩ := State.launch_spec l
  refine ⟨hcfg, hperm, fun c hc => ?_, fun hone => ?_, fun c _ => ⟨rfl, rfl, rfl, ?_, ?_⟩, fun p hp hn => ?_, fun a ha => ?_⟩
  · obtain ⟨k, hk⟩ := chooseNext_reaches l.first l.others c hc
    exact ⟨k, congrArg Core.launch hk⟩
  · simp [State.launch, hone]
  · exact fun p hp hn => assignAll_mem _ hn hp
  · exact fun p hp hn => Flags.named_foldl_assign_mem _ hn hp
  · exact Memory.read_writeAll_mem [] l.image hn p hp
  · exact Memory.read_writeAll_other [] l.image a ha

/-- Settles O9: the fields of the default launch. -/
theorem resetValues : Obligations.ResetValues :=
  ⟨by decide, by decide, rfl, rfl, fun _ => rfl⟩

/-! ## The invariant of the first state -/

/-- A core of a well-formed launch holds XLEN-bit values (R291 d, f). -/
theorem Core.launch_fits {x : Variant} {l : CoreLaunch} (h : l.wellFormed x = true) : (Core.launch l).fits x := by
  simp only [CoreLaunch.wellFormed, Bool.and_eq_true, decide_eq_true_eq, List.all_eq_true] at h
  obtain ⟨⟨hpc, -⟩, hregs⟩ := h
  refine ⟨hpc, fun r => ?_⟩
  rw [Core.launch_gp]
  refine assignAll_lt (fun i => ?_) hregs r
  simp

/-- Every byte of the program text of a well-formed launch has a first value (R291 c). -/
theorem Launch.text_has_value {l : Launch} (h : l.wellFormed = true) {a : Nat} (ha : (State.launch l).inText a = true) :
    a ∈ l.image.map Prod.fst := by
  simp only [Launch.wellFormed, Bool.and_eq_true] at h
  obtain ⟨⟨-, htext⟩, -⟩ := h
  obtain ⟨r, hr, hboth⟩ := List.any_eq_true.mp ha
  simp only [Bool.and_eq_true, beq_iff_eq, Region.contains, decide_eq_true_eq] at hboth
  obtain ⟨hkind, hlo, hhi⟩ := hboth
  have hbytes := List.all_eq_true.mp htext r hr
  simp only [hkind, Bool.or_eq_true, beq_iff_eq, reduceCtorEq, false_or, List.all_eq_true, List.mem_range, List.any_eq_true] at hbytes
  obtain ⟨p, hp, hpa⟩ := hbytes (a - r.base) (by omega)
  exact List.mem_map.mpr ⟨p, hp, by omega⟩

/-- Settles O12: each clause of the invariant is a condition of R291 on the launch. -/
theorem launchGivesInv : Obligations.LaunchGivesInv := by
  intro l h
  have hwf := h
  simp only [Launch.wellFormed, Bool.and_eq_true, List.all_eq_true] at hwf
  obtain ⟨⟨⟨hcfg, himage⟩, -⟩, hcores⟩ := hwf
  refine ⟨hcfg, Memory.wf_writeAll [] l.image rfl, fun p hp => ?_, fun a ha => ?_, fun c hc => ?_⟩
  · rcases Memory.mem_writeAll hp with hp | hp
    · exact himage p hp
    · simp at hp
  · exact Memory.read_writeAll_isSome [] l.image a (.inl (Launch.text_has_value h ha))
  · obtain ⟨-, -, -, hperm⟩ := State.launch_spec l
    obtain ⟨d, hd, rfl⟩ := List.mem_map.mp (hperm.mem_iff.mp hc)
    exact Core.launch_fits (hcores d hd)

/-- Settles O11: reset is a well-formed launch. -/
theorem invAtReset : Obligations.InvAtReset :=
  launchGivesInv defaultLaunch (by decide)

/-! ## The invariant of the next state -/

theorem lt_of_fit {x : Variant} {v : Word} (h : fit x v = v) : v.toNat < 2 ^ x.bits := h ▸ fit_lt x v

/-- Registers of XLEN-bit values remain so when one is written with an XLEN-bit value. -/
theorem set_fits {x : Variant} {g : Vector Word 32} {d : Reg} {v : Word} (hg : ∀ i : Reg, g[i].toNat < 2 ^ x.bits)
    (hv : fit x v = v) (i : Reg) : (g.set d v)[i].toNat < 2 ^ x.bits := by
  rw [set_getElem]
  split
  · exact lt_of_fit hv
  · exact hg i

/-- The core that moves holds XLEN-bit values after an effect (R21, R25). -/
theorem Effect.core_fits {s t : State} {i : Instr} (h : Effect s i t) (hs : s.core.fits s.cfg.variant) :
    t.core.fits s.cfg.variant := by
  obtain ⟨hpc, hgp⟩ := hs
  have hnext : s.pcNext.toNat < 2 ^ s.cfg.variant.bits := trunc_lt _ _
  cases h with
  | sum d q _ _ _ _ hq => exact ⟨hnext, set_fits hgp hq⟩
  | reg d v _ _ _ _ hv => exact ⟨hnext, set_fits hgp hv⟩
  | free a b d v _ hv => exact ⟨hnext, set_fits hgp hv⟩
  | store data ea n => exact ⟨hnext, hgp⟩
  | swap a d v _ hv => exact ⟨hnext, set_fits hgp hv⟩
  | link d p _ _ hp => exact ⟨lt_of_fit hp, set_fits hgp s.fit_pcNext⟩
  | jump a => exact ⟨s.x_lt a, hgp⟩
  | taken r => exact ⟨s.x_lt r, hgp⟩
  | skip => exact ⟨hnext, hgp⟩
  | send => exact ⟨hnext, hgp⟩
  | wait _ u t hu ht =>
    rcases hu with rfl | rfl <;> rcases ht with rfl | rfl
    · exact ⟨hpc, hgp⟩
    · exact ⟨hnext, hgp⟩
    · exact ⟨hpc, hgp⟩
    · exact ⟨hnext, hgp⟩

/-- The other cores hold XLEN-bit values after an effect, SE reaching no register and no `pc` of theirs (R240). -/
theorem Effect.others_fit {s t : State} {i : Instr} (h : Effect s i t) (hs : ∀ c ∈ s.others, c.fits s.cfg.variant) :
    ∀ c ∈ t.others, c.fits s.cfg.variant := by
  rcases h.others with hsame | ⟨-, hsend⟩
  · rwa [hsame]
  · intro c hc
    rw [hsend, State.sendEvent_others] at hc
    obtain ⟨d, hd, rfl⟩ := List.mem_map.mp hc
    split
    · exact hs d hd
    · exact hs d hd

/-- An effect keeps the invariant: a store is made at mapped addresses only. -/
theorem Effect.inv {s t : State} {i : Instr} (h : Effect s i t) (hs : s.Inv) : t.Inv := by
  obtain ⟨hcfg, hwf, hmap, htext, hcores⟩ := hs
  rw [List.forall_mem_cons] at hcores
  obtain ⟨hcore, hothers⟩ := hcores
  have hc := h.cfg
  refine ⟨by rwa [hc], ?_, fun p hp => ?_, fun a ha => ?_, ?_⟩
  · rcases h.mem with hmem | ⟨ea, n, v, -, -, -, hmem⟩
    · rwa [hmem]
    · rw [hmem]
      exact Memory.wf_writeAll _ _ hwf
  · rw [State.mapped_of_cfg hc]
    rcases h.mem with hmem | ⟨ea, n, v, -, -, hw, hmem⟩
    · exact hmap p (hmem ▸ hp)
    · obtain ⟨hall, -, -⟩ := State.memWrite_eq_ok.mp hw
      rw [hmem] at hp
      rcases Memory.mem_writeAll hp with hnew | hold
      · exact hall p.1 (List.of_mem_zip hnew).1
      · exact hmap p hold
  · rw [State.inText_of_cfg hc] at ha
    rw [h.text ha]
    exact htext a ha
  · rw [hc, List.forall_mem_cons]
    exact ⟨h.core_fits hcore, h.others_fit hothers⟩

/-- The hand-over keeps the invariant, its cores being the same. -/
theorem State.Inv.handOver {s : State} (h : s.Inv) : s.handOver.Inv := by
  obtain ⟨hcfg, hwf, hmap, htext, hcores⟩ := h
  have hc := s.handOver_cfg
  have hm := s.handOver_mem
  refine ⟨by rwa [hc], by rwa [hm], fun p hp => ?_, fun a ha => ?_, fun c hcore => ?_⟩
  · rw [State.mapped_of_cfg hc]
    exact hmap p (hm ▸ hp)
  · rw [State.byte_of_mem hm]
    exact htext a (State.inText_of_cfg hc a ▸ ha)
  · rw [hc]
    exact hcores c (s.handOver_perm.mem_iff.mp hcore)

/-- Settles O13: a step is the hand-over, after the effect of one instruction or none. -/
theorem stepKeepsInv : Obligations.StepKeepsInv := by
  intro s t hs h
  rcases step_next h with ⟨-, rfl⟩ | ⟨-, w, i, u, -, -, hu, rfl⟩
  · exact hs.handOver
  · exact ((exec_effect hu).inv hs).handOver

end Sys2Proof.Machine
end

section
/-! Non-interference: what an instruction does not read it carries through. The other cores and the flag K are one change of the state
that every instruction but SE commutes with; the readings of BRANCH_CMP and DIV_SIGNED are another, for operands that are not negative. -/

namespace Sys2Proof.Machine

/-! ## The parts of a state that no instruction but SE reads -/

/-- A state with its other cores and its flag K changed. -/
def State.mapUnread (s : State) (cores : List Core → List Core) (k : Bool → Bool) : State :=
  { s with core := { s.core with flags := { s.core.flags with k := k s.core.flags.k } }, others := cores s.others }

section
variable (s : State) (cores : List Core → List Core) (k : Bool → Bool)

theorem mapUnread_others (cs : List Core) : s.mapUnread (fun _ => cs) id = { s with others := cs } := rfl

theorem mapUnread_withK (b : Bool) : s.mapUnread id (fun _ => b) = s.withK b := rfl

theorem memRead_mapUnread (addr : Word) (n : Nat) : (s.mapUnread cores k).memRead addr n = s.memRead addr n := rfl

theorem memWrite_mapUnread (addr : Word) (n : Nat) (v : Word) :
    (s.mapUnread cores k).memWrite addr n v = (s.memWrite addr n v).map (fun t => t.mapUnread cores k) := by
  unfold State.memWrite
  rw [apply_ite (Except.map _), apply_ite (Except.map _)]
  rfl

/-- A load carries the unread parts through (R156). -/
theorem load_mapUnread (d : Reg) (ea : Word) (n : Nat) :
    load (s.mapUnread cores k) d ea n = onNext (load s d ea n) (fun t => t.mapUnread cores k) := by
  unfold load
  rw [memRead_mapUnread, apply_ite (fun o => onNext o _)]
  cases s.memRead ea n with
  | ok v => rfl
  | error e => cases e <;> rfl

/-- A store carries the unread parts through (R157). -/
theorem store_mapUnread (r : Reg) (ea : Word) (n : Nat) :
    store (s.mapUnread cores k) r ea n = onNext (store s r ea n) (fun t => t.mapUnread cores k) := by
  unfold store
  rw [memWrite_mapUnread, apply_ite (fun o => onNext o _)]
  rw [show (s.mapUnread cores k).x r = s.x r from rfl]
  cases s.memWrite ea n (s.x r) with
  | ok t => rfl
  | error e => cases e <;> rfl

/-- The exchange of SWAP carries the unread parts through (R204). -/
theorem exchange_mapUnread (d : Reg) (ea : Word) (n : Nat) :
    exchange (s.mapUnread cores k) d ea n = onNext (exchange s d ea n) (fun t => t.mapUnread cores k) := by
  unfold exchange
  rw [memRead_mapUnread, memWrite_mapUnread, apply_ite (fun o => onNext o _)]
  rw [show (s.mapUnread cores k).x d = s.x d from rfl]
  cases s.memRead ea n with
  | error e => cases e <;> rfl
  | ok v =>
    cases s.memWrite ea n (s.x d) with
    | ok t => rfl
    | error e => cases e <;> rfl

/-- The ending of a branch carries the unread parts through (R211). -/
theorem branch_mapUnread (taken : Bool) (r : Reg) :
    branch (s.mapUnread cores k) taken r = onNext (branch s taken r) (fun t => t.mapUnread cores k) := by
  unfold branch
  rw [apply_ite (fun o => onNext o _), apply_ite (fun o => onNext o _)]
  rfl

end

/-! ## Division and the waits, case by case -/

/-- DIV where R120 gives a quotient. -/
theorem exec_div_some {a b d : Reg} {s : State} {q : Word} (h : quotient s.cfg (s.x a) (s.x b) = some q) :
    exec (.div a b d) s = .next (s.setX d q).advance := by
  rw [exec, execDiv, h]

/-- DIV where R120 gives none (log 4). -/
theorem exec_div_none {a b d : Reg} {s : State} (h : quotient s.cfg (s.x a) (s.x b) = none) :
    exec (.div a b d) s =
      .next (s.setX d (fit s.cfg.variant (Config.freeQuotient s.draws (s.x a) (s.x b)))).draw.advance := by
  rw [exec, execDiv, h]

theorem exec_wfi (s : State) : exec .wfi s = .next (if s.core.irqIn then s.takeIrq.advance else s.takeIrq) := rfl

theorem exec_wfe (s : State) : exec .wfe s = .next (if s.core.eventIn then s.takeEvent.advance else s.takeEvent) := rfl

/-- Every instruction but SE carries the unread parts through (R20, R33, R283). -/
theorem exec_mapUnread {i : Instr} (hi : i ≠ .se) (s : State) (cores : List Core → List Core) (k : Bool → Bool) :
    exec i (s.mapUnread cores k) = onNext (exec i s) (fun t => t.mapUnread cores k) := by
  cases i with
  | se => exact absurd rfl hi
  | lwr | ldr | lhr | lbr | lwrro | ldrro | lhrro | lbrro => exact load_mapUnread ..
  | lwpro | ldpro | lhpro | lbpro | lwpio | ldpio | lhpio | lbpio => exact load_mapUnread ..
  | swr | sdr | shr | sbr | swrro | sdrro | shrro | sbrro => exact store_mapUnread ..
  | swpro | sdpro | shpro | sbpro | swpio | sdpio | shpio | sbpio => exact store_mapUnread ..
  | swap => exact exchange_mapUnread ..
  | be | bne | bgt | bgte | blt | blte | bz | bnz | bc | bo => exact branch_mapUnread ..
  | div a b d =>
    cases hq : quotient s.cfg (s.x a) (s.x b) with
    | some q => rw [exec_div_some hq, exec_div_some (s := s.mapUnread cores k) hq]; rfl
    | none => rw [exec_div_none hq, exec_div_none (s := s.mapUnread cores k) hq]; rfl
  | wfi => rw [exec_wfi, exec_wfi, onNext_next, apply_ite (fun t : State => t.mapUnread cores k)]; rfl
  | wfe => rw [exec_wfe, exec_wfe, onNext_next, apply_ite (fun t : State => t.mapUnread cores k)]; rfl
  | _ => rfl

/-- Settles O21: the other cores are unread, and SE is left out. -/
theorem otherCoresDoNotInfluence : Obligations.OtherCoresDoNotInfluence := by
  intro i s cs hi
  rw [← mapUnread_others s cs]
  exact exec_mapUnread hi s (fun _ => cs) id

/-- Every instruction carries the flag K through, SE too, which changes other cores only (R33). -/
theorem exec_withK (i : Instr) (s : State) (b : Bool) : exec i (s.withK b) = onNext (exec i s) (fun t => t.withK b) := by
  by_cases hi : i = .se
  · rw [hi]; rfl
  · rw [← mapUnread_withK s b]
    exact exec_mapUnread hi s id (fun _ => b)

/-- With one core a step carries the flag K through (R33). -/
theorem step_withK {s : State} (h1 : s.others = []) (b : Bool) : step (s.withK b) = onNext (step s) (fun t => t.withK b) := by
  have hone : (s.withK b).others = [] := h1
  cases he : s.ended s.core with
  | true =>
    rw [step_ended he, step_ended (s := s.withK b) he, State.handOver_single h1, State.handOver_single hone]
    rfl
  | false =>
    cases hf : s.fetch with
    | error e =>
      rw [step_fetch_error he hf, step_fetch_error (s := s.withK b) he hf]
      cases e <;> rfl
    | ok w =>
      cases hd : decode s.cfg w with
      | error e => rw [step_illegal he hf hd, step_illegal (s := s.withK b) he hf hd]; rfl
      | ok i =>
        rw [step_exec he hf hd, step_exec (s := s.withK b) he hf hd, exec_withK]
        cases hx : exec i s with
        | next t =>
          have ht := others_nil_of_exec hx h1
          have htk : (t.withK b).others = [] := ht
          simp only [onNext_next, State.handOver_single ht, State.handOver_single htk]
        | fault f => rfl
        | refused r => rfl

/-- Settles O22. -/
theorem conditionFlagIsInert : Obligations.ConditionFlagIsInert :=
  fun i s b => ⟨exec_withK i s b, fun h1 => step_withK h1 b⟩

/-! ## BRANCH_CMP and DIV_SIGNED on operands that are not negative -/

/-- On values that are not negative as signed numbers the order is that of the unsigned ones, whatever BRANCH_CMP is (R216). -/
theorem less_of_nonneg {c : Config} {p q : Word} (hp : signed c.variant p = p.toNat) (hq : signed c.variant q = q.toNat) :
    less c p q = decide (p.toNat < q.toNat) := by
  unfold less
  split
  · rw [hp, hq, decide_eq_decide]
    exact Int.ofNat_lt
  · rfl

/-- On values that are not negative as signed numbers the quotient is the unsigned one, whatever DIV_SIGNED is (R120). -/
theorem quotient_of_nonneg {c : Config} {p q : Word} (hp : signed c.variant p = p.toNat) (hq : signed c.variant q = q.toNat) :
    quotient c p q = if q.toNat = 0 then none else some (trunc c.variant (p.toNat / q.toNat)) := by
  have hover : ¬(signed c.variant p = -2 ^ (c.variant.bits - 1) ∧ signed c.variant q = -1) := by
    rw [hq]
    omega
  unfold quotient
  rw [if_neg hover, hp, hq, ← Int.ofNat_tdiv, truncInt_natCast, ite_self]

/-- The ending of a branch carries another reading of the comparisons through. -/
theorem branch_withReading (s : State) (cmp cmp' : Comparison) (div div' : Bool) (taken : Bool) (r : Reg) :
    branch (s.withReading cmp div) taken r = onNext (branch (s.withReading cmp' div') taken r) (fun t => t.withReading cmp div) := by
  unfold branch
  rw [apply_ite (fun o => onNext o _), apply_ite (fun o => onNext o _)]
  rfl

/-- Settles O55: the comparison and the quotient of two such operands do not depend on the reading, and nothing else in the five
instructions asks for it. -/
theorem nonNegativeOperandsAgree : Obligations.NonNegativeOperandsAgree := by
  intro a b r s cmp cmp' div div' ha hb i hi
  have hx := signed_of_nonneg s.cfg.variant (s.x a) (s.x_lt a) ha
  have hy := signed_of_nonneg s.cfg.variant (s.x b) (s.x_lt b) hb
  have hless : ∀ p q : Reg, p ∈ [a, b] → q ∈ [a, b] → less (s.withReading cmp div).cfg (s.x p) (s.x q) =
      less (s.withReading cmp' div').cfg (s.x p) (s.x q) := by
    intro p q hp hq
    have hread : ∀ z ∈ [a, b], signed s.cfg.variant (s.x z) = (s.x z).toNat := by simp [hx, hy]
    exact (less_of_nonneg (c := (s.withReading cmp div).cfg) (hread p hp) (hread q hq)).trans
      (less_of_nonneg (c := (s.withReading cmp' div').cfg) (hread p hp) (hread q hq)).symm
  have hquot : quotient (s.withReading cmp div).cfg (s.x a) (s.x b) = quotient (s.withReading cmp' div').cfg (s.x a) (s.x b) :=
    (quotient_of_nonneg (c := (s.withReading cmp div).cfg) hx hy).trans
      (quotient_of_nonneg (c := (s.withReading cmp' div').cfg) hx hy).symm
  have hbranch : ∀ taken taken' : Bool, taken = taken' → branch (s.withReading cmp div) taken r =
      onNext (branch (s.withReading cmp' div') taken' r) (fun t => t.withReading cmp div) := by
    rintro taken _ rfl
    exact branch_withReading s cmp cmp' div div' taken r
  simp only [List.mem_cons, List.not_mem_nil, or_false] at hi
  rcases hi with rfl | rfl | rfl | rfl | rfl
  · exact hbranch _ _ (hless b a (by simp) (by simp))
  · exact hbranch _ _ (congrArg not (hless a b (by simp) (by simp)))
  · exact hbranch _ _ (hless a b (by simp) (by simp))
  · exact hbranch _ _ (congrArg not (hless b a (by simp) (by simp)))
  · cases hq : quotient (s.withReading cmp' div').cfg (s.x a) (s.x b) with
    | some q => rw [exec_div_some (s := s.withReading cmp div) (hquot.trans hq), exec_div_some (s := s.withReading cmp' div') hq]; rfl
    | none => rw [exec_div_none (s := s.withReading cmp div) (hquot.trans hq), exec_div_none (s := s.withReading cmp' div') hq]; rfl

end Sys2Proof.Machine
end

section
/-! The hints (R235 to R242): NOP and SLE are the advance, WFI and WFE retire on their input, SE reaches the cores at a WFE. -/

namespace Sys2Proof.Machine

theorem exec_sle (s : State) : exec .sle s = .next s.advance := rfl

theorem exec_se (s : State) : exec .se s = .next s.sendEvent.advance := rfl

/-- Settles O57: the input decides between the two next states of a wait. -/
theorem waitsRetireOnInput : Obligations.WaitsRetireOnInput := by
  intro s
  refine ⟨⟨_, exec_wfi s, ?_⟩, _, exec_wfe s, ?_⟩
  · cases s.core.irqIn with
    | true => exact ⟨s.takeIrq.advance_fallsThrough, fun _ _ => rfl, rfl, fun _ => rfl, rfl, rfl, rfl, rfl⟩
    | false => exact ⟨rfl, fun _ _ => rfl, rfl, fun _ => rfl, rfl, rfl, rfl, rfl⟩
  · cases s.core.eventIn with
    | true => exact ⟨s.takeEvent.advance_fallsThrough, fun _ _ => rfl, rfl, fun _ => rfl, rfl, rfl, rfl, rfl⟩
    | false => exact ⟨rfl, fun _ _ => rfl, rfl, fun _ => rfl, rfl, rfl, rfl, rfl⟩

/-- A core stands at a WFE when it has not ended and the word at its `pc` decodes to WFE (R239, R240). -/
theorem atWfe_iff {s : State} {c : Core} :
    s.atWfe c = true ↔ s.ended c = false ∧ ∃ w, s.fetchAt (fit s.cfg.variant c.pc) = .ok w ∧ decode s.cfg w = .ok .wfe := by
  unfold State.atWfe
  rw [Bool.and_eq_true, Bool.not_eq_true']
  refine and_congr_right fun _ => ?_
  cases s.fetchAt (fit s.cfg.variant c.pc) with
  | error e => simp
  | ok w =>
    simp only [Except.ok.injEq, exists_eq_left']
    split
    · rename_i hd; simp [hd]
    · rename_i hd
      exact ⟨fun h => absurd h (by decide), fun h => absurd h hd⟩

/-- The other cores after SE, one by one (R240). -/
theorem sendEvent_getElem? {s : State} {j : Nat} {c : Core} (h : s.others[j]? = some c) :
    s.sendEvent.others[j]? = some (if s.atWfe c then { c with eventIn := true } else c) := by
  rw [State.sendEvent_others, List.getElem?_map, h, Option.map_some]

/-- SE with no other core changes nothing (R240). -/
theorem sendEvent_alone {s : State} (h : s.others = []) : s.sendEvent = s := by
  have hothers : s.sendEvent.others = s.others := by rw [State.sendEvent_others, h, List.map_nil]
  calc s.sendEvent = { s with others := s.sendEvent.others } := rfl
    _ = s := by rw [hothers]

/-- Settles O58: SE is the advance with the events given to the cores at a WFE, SLE the advance alone. -/
theorem sendEventWakesOthers : Obligations.SendEventWakesOthers := by
  intro s
  refine ⟨⟨_, exec_se s, s.sendEvent.advance_fallsThrough, fun _ _ => rfl, rfl, fun _ => rfl, rfl, rfl, rfl, rfl,
    (exec_effect (exec_se s)).others_length, fun j c hc => ⟨fun hw => ?_, fun hw => ?_⟩, fun hone => ?_⟩,
    _, exec_sle s, s.advance_fallsThrough, movesOnly_advance s⟩
  · rw [State.advance_others, sendEvent_getElem? hc, if_pos (atWfe_iff.mpr hw)]
  · rw [State.advance_others, sendEvent_getElem? hc, if_neg (mt atWfe_iff.mp hw)]
  · rw [sendEvent_alone hone]
    exact movesOnly_advance s

/-- Settles O59: the five hints read no register and no flag, and carry both through. -/
theorem hintsActAsNop : Obligations.HintsActAsNop := by
  intro i s g f hi
  simp only [List.mem_cons, List.not_mem_nil, or_false] at hi
  rcases hi with rfl | rfl | rfl | rfl | rfl
  · exact ⟨⟨_, exec_nop s, fun _ _ => rfl, rfl, fun _ => rfl⟩, rfl⟩
  · refine ⟨?_, ?_⟩
    · obtain ⟨⟨t, ht, -, hregs, hflags, hmem, -⟩, -⟩ := waitsRetireOnInput s
      exact ⟨t, ht, hregs, hflags, hmem⟩
    · rw [exec_wfi, exec_wfi, onNext_next]
      cases s.core.irqIn <;> rfl
  · refine ⟨?_, ?_⟩
    · obtain ⟨-, t, ht, -, hregs, hflags, hmem, -⟩ := waitsRetireOnInput s
      exact ⟨t, ht, hregs, hflags, hmem⟩
    · rw [exec_wfe, exec_wfe, onNext_next]
      cases s.core.eventIn <;> rfl
  · exact ⟨⟨_, exec_se s, fun _ _ => rfl, rfl, fun _ => rfl⟩, rfl⟩
  · exact ⟨⟨_, exec_sle s, fun _ _ => rfl, rfl, fun _ => rfl⟩, rfl⟩

end Sys2Proof.Machine
end

section
/-! The stops of each instruction (R268): an instruction without a data access gives a next state, branches, or is undescribed; one with a
data access stops as its access does. -/

namespace Sys2Proof.Machine

/-- An instruction that makes no data access gives a next state, ends as a conditional branch, or is one of the seven undescribed. -/
theorem exec_kinds_of_no_dataAccess {s : State} {i : Instr} (h : dataAccess s i = none) :
    (∃ t, exec i s = .next t) ∨
      (i.assignsPc = true ∧ i.jumps = false ∧ ∃ taken r, exec i s = branch s taken r) ∨
      i.undescribed = true := by
  cases i with
  | be | bne | bgt | bgte | blt | blte | bz | bnz | bc | bo => exact .inr (.inl ⟨rfl, rfl, _, _, rfl⟩)
  | lwp | swp | lhp | shp | lbp | sbp | cas => exact .inr (.inr rfl)
  | lwr | ldr | lhr | lbr | lwrro | ldrro | lhrro | lbrro | lwpro | ldpro | lhpro | lbpro | lwpio | ldpio | lhpio | lbpio => cases h
  | swr | sdr | shr | sbr | swrro | sdrro | shrro | sbrro | swpro | sdpro | shpro | sbpro | swpio | sdpio | shpio | sbpio => cases h
  | swap => cases h
  | div a b d =>
    left
    cases hq : quotient s.cfg (s.x a) (s.x b) with
    | some q => exact ⟨_, exec_div_some hq⟩
    | none => exact ⟨_, exec_div_none hq⟩
  | _ => exact .inl ⟨_, rfl⟩

/-- A stop whose outcome is a refusal is that refusal. -/
theorem Stop.eq_refuse_of_outcome {e : Stop} {r : Refusal} (h : e.outcome = .refused r) : e = .refuse r := by
  cases e with
  | fault g => cases h
  | refuse q => cases h; rfl

/-- A read is never refused (R55). -/
theorem memRead_ne_refuse {s : State} {addr : Word} {n : Nat} {r : Refusal} (h : s.memRead addr n = .error (.refuse r)) : False := by
  rcases State.memRead_eq_error h with ⟨-, he⟩ | ⟨-, a, -, -, he⟩ <;> cases he

/-- The one refusal of a write is that of a store into the program text (R56, R68). -/
theorem memWrite_eq_refuse {s : State} {addr : Word} {n : Nat} {v : Word} {r : Refusal}
    (h : s.memWrite addr n v = .error (.refuse r)) : r = .storeToProgramText := by
  rcases State.memWrite_eq_error h with ⟨-, he⟩ | ⟨-, -, he⟩ <;> cases he
  rfl

/-- The refusals of an instruction: a store or SWAP into the program text, or an undescribed instruction by its name (R268, R272). -/
theorem exec_refused {s : State} {i : Instr} {r : Refusal} (h : exec i s = .refused r) :
    (r = .storeToProgramText ∧ writesMemory s i = true) ∨ (r = .noSemantics i.mnemonic ∧ i.undescribed = true) := by
  cases ha : dataAccess s i with
  | none =>
    rcases exec_kinds_of_no_dataAccess ha with ⟨t, he⟩ | ⟨-, -, taken, q, he⟩ | hu
    · rw [he] at h
      cases h
    · rw [he] at h
      rcases branch_cases s taken q with ⟨-, ho⟩ | ⟨-, -, ho⟩ | ⟨-, -, ho⟩ <;> rw [ho] at h <;> cases h
    · rw [exec_undescribed s hu] at h
      cases h
      exact .inr ⟨rfl, hu⟩
  | some access =>
    obtain ⟨ea, n⟩ := access
    rcases dataAccess_exec ha with ⟨d, -, he⟩ | ⟨q, hstore, -, he⟩ | ⟨a, d, rfl, he, -, -⟩ <;> rw [he] at h
    · rcases load_cases s d ea n with ⟨-, ho⟩ | ⟨-, e, hr, ho⟩ | ⟨-, v, -, ho⟩ <;> rw [ho] at h
      · cases h
      · cases Stop.eq_refuse_of_outcome h
        exact (memRead_ne_refuse hr).elim
      · cases h
    · rcases store_cases s q ea n with ⟨-, ho⟩ | ⟨-, e, hw, ho⟩ | ⟨-, -, ho⟩ <;> rw [ho] at h
      · cases h
      · cases Stop.eq_refuse_of_outcome h
        exact .inl ⟨memWrite_eq_refuse hw, writesMemory_of_storeAccess (by rw [hstore]; rfl)⟩
      · cases h
    · rcases exchange_cases s d ea n with ⟨-, ho⟩ | ⟨-, e, hr, ho⟩ | ⟨-, v, e, -, hw, ho⟩ | ⟨-, v, -, -, ho⟩ <;> rw [ho] at h
      · cases h
      · cases Stop.eq_refuse_of_outcome h
        exact (memRead_ne_refuse hr).elim
      · cases Stop.eq_refuse_of_outcome h
        exact .inl ⟨memWrite_eq_refuse hw, rfl⟩
      · cases h

/-- The faults of an instruction without a data access: a taken branch to a misaligned target (R265). -/
theorem exec_fault_of_no_dataAccess {s : State} {i : Instr} {f : Fault} (ha : dataAccess s i = none) (h : exec i s = .fault f) :
    ∃ r, f = .raised (.branchAddressMisaligned (s.x r)) ∧ i.assignsPc = true ∧ i.jumps = false ∧ (s.x r).toNat % 4 ≠ 0 := by
  rcases exec_kinds_of_no_dataAccess ha with ⟨t, he⟩ | ⟨hp, hj, taken, r, he⟩ | hu
  · rw [he] at h
    cases h
  · rw [he] at h
    rcases branch_cases s taken r with ⟨-, ho⟩ | ⟨-, -, ho⟩ | ⟨-, hmis, ho⟩ <;> rw [ho] at h <;> cases h
    exact ⟨r, rfl, hp, hj, hmis⟩
  · rw [exec_undescribed s hu] at h
    cases h

/-- Only a load or SWAP reads a byte without a value (R268). -/
theorem reads_of_readOfUnwritten {s : State} {i : Instr} {a : Nat} (h : exec i s = .fault (.readOfUnwritten a)) :
    (loadAccess s i).isSome = true ∨ ∃ b d, i = .swap b d := by
  cases ha : dataAccess s i with
  | none =>
    obtain ⟨r, hr, -⟩ := exec_fault_of_no_dataAccess ha h
    cases hr
  | some access =>
    obtain ⟨ea, n⟩ := access
    rcases dataAccess_exec ha with ⟨d, hload, -⟩ | ⟨q, -, -, he⟩ | ⟨b, d, hi, -⟩
    · exact .inl (by rw [hload]; rfl)
    · rw [he] at h
      rcases store_cases s q ea n with ⟨-, ho⟩ | ⟨-, e, hw, ho⟩ | ⟨-, -, ho⟩ <;> rw [ho] at h
      · cases h
      · cases Stop.eq_fault_of_outcome h
        rcases State.memWrite_eq_error hw with ⟨-, he⟩ | ⟨-, -, he⟩ <;> cases he
      · cases h
    · exact .inr ⟨b, d, hi⟩

/-- What the table of R268 allows a fault of an instruction to be. -/
inductive ListedFault (s : State) (i : Instr) : Fault → Prop where
  /-- A misaligned access of more than one byte (R264). -/
  | misaligned (ea : Word) (n : Nat) (ha : dataAccess s i = some (ea, n)) (h1 : n ≠ 1) (h : ea.toNat % n ≠ 0) :
      ListedFault s i (.raised (.misalignedAddress ea))
  /-- A taken branch to a misaligned target (R265). -/
  | branch (p : Word) (ha : i.assignsPc = true) (hj : i.jumps = false) (h : p.toNat % 4 ≠ 0) :
      ListedFault s i (.raised (.branchAddressMisaligned p))
  /-- An access outside MEM_MAP (R66). -/
  | outsideMap (ea : Word) (n : Nat) (ha : dataAccess s i = some (ea, n)) : ListedFault s i (.accessFault ea n)
  /-- A read of a byte without a value (R66). -/
  | unwritten (a : Nat) (h : (loadAccess s i).isSome = true ∨ ∃ b d, i = .swap b d) : ListedFault s i (.readOfUnwritten a)

/-- Every fault of an instruction is in the table (R268). -/
theorem exec_fault_listed {s : State} {i : Instr} {f : Fault} (h : exec i s = .fault f) : ListedFault s i f := by
  cases ha : dataAccess s i with
  | none =>
    obtain ⟨r, rfl, hp, hj, hmis⟩ := exec_fault_of_no_dataAccess ha h
    exact .branch _ hp hj hmis
  | some access =>
    cases exec_fault_of_dataAccess ha h with
    | misaligned hmis =>
      refine .misaligned _ _ ha (fun h1 => hmis ?_) hmis
      rw [h1, Nat.mod_one]
    | outsideMap => exact .outsideMap _ _ ha
    | unwritten a => exact .unwritten a (reads_of_readOfUnwritten h)

/-- No step raises HIGHER_PRIVELEGE_NEEDED (R266). -/
theorem step_ne_higherPrivelegeNeeded (s : State) : step s ≠ .fault (.raised .higherPrivelegeNeeded) := by
  intro h
  rcases step_fault h with hf | ⟨w, -, ⟨e, -, hw⟩ | ⟨i, -, hi⟩⟩
  · by_cases h4 : s.pc.toNat % 4 = 0
    · rcases State.fetchAt_eq_error h4 hf with he | he | ⟨a, he⟩ <;> cases he
    · rw [State.fetch, State.fetchAt_misaligned h4] at hf
      cases hf
  · cases hw
  · cases exec_fault_listed hi

/-- Settles O23: the faults are those of `exec_fault_listed`, the refusals those of `exec_refused`. -/
theorem stopsAreAsListed : Obligations.StopsAreAsListed := by
  intro i s
  refine ⟨?_, fun ha hu hp => ?_, step_ne_higherPrivelegeNeeded s⟩
  · cases h : exec i s with
    | next t => trivial
    | fault f =>
      cases exec_fault_listed h with
      | misaligned ea n ha h1 hmis => exact ⟨n, ha, h1, hmis⟩
      | branch p ha hj hmis => exact ⟨ha, hj, hmis⟩
      | outsideMap ea n ha => exact ha
      | unwritten a hr => exact hr
    | refused r =>
      rcases exec_refused h with ⟨rfl, hw⟩ | ⟨rfl, hu⟩
      · exact hw
      · exact ⟨hu, rfl⟩
  · rcases exec_kinds_of_no_dataAccess ha with hnext | ⟨hassigns, hj, -⟩ | hundescribed
    · exact hnext
    · simp [hassigns, hj] at hp
    · simp [hundescribed] at hu

end Sys2Proof.Machine
end

section
/-! The add, subtract and multiply instructions (R110 to R119): results and flags as integers, their frames, comparison after a subtraction,
and sums and differences of two registers. -/

namespace Sys2Proof.Machine

/-! ## Writes of one destination -/

/-- A destination written and `pc` advanced: nothing else changes (R122). -/
theorem writesOnly_setX (s : State) (d : Reg) (v : Word) : WritesOnly s (s.setX d v).advance d :=
  ⟨keepsRegs_setX s d v, rfl, fun _ => rfl, ⟨rfl, rfl, rfl, rfl, rfl⟩, (s.setX d v).advance_fallsThrough⟩

/-- A destination written with C, V and Z, and `pc` advanced: nothing else changes (R110). -/
theorem writesSum_writeSum (s : State) (d : Reg) (q : Sum) : WritesSum s (s.writeSum d q).advance d :=
  ⟨keepsRegs_setX s d q.value, rfl, fun _ => rfl, ⟨rfl, rfl, rfl, rfl, rfl⟩, (s.writeSum d q).advance_fallsThrough⟩

/-- The destination reads as the XLEN low bits of what was written. -/
theorem setX_advance_x (s : State) (d : Reg) (v : Word) : (s.setX d v).advance.x d = fit s.cfg.variant v := by
  rw [State.advance_x, State.setX_x, if_pos rfl]

theorem writeSum_advance_x (s : State) (d : Reg) (q : Sum) : (s.writeSum d q).advance.x d = fit s.cfg.variant q.value := by
  rw [State.advance_x, State.writeSum_x, if_pos rfl]

/-! ## AddFlags and SubFlags as integers -/

/-- Signed overflow (R31). -/
theorem signedOverflow_iff {x : Variant} {e : Int} :
    signedOverflow x e = true ↔ e < -2 ^ (x.bits - 1) ∨ 2 ^ (x.bits - 1) ≤ e := by
  simp [signedOverflow]

/-- `AddFlags` gives the result and the flags of the exact sums (R110). -/
theorem sumOf_addFlags {s : State} {a b : Word} {cin : Bool} {exact sexact : Int} (d : Reg)
    (he : exact = a.toNat + b.toNat + cin.toNat) (hs : sexact = signed s.cfg.variant a + signed s.cfg.variant b + cin.toNat) :
    SumOf s (s.writeSum d (addFlags s.cfg.variant a b cin)).advance d exact sexact := by
  have hnat : exact = ((a.toNat + b.toNat + cin.toNat : Nat) : Int) := by rw [he]; push_cast; rfl
  have hvalue : (s.writeSum d (addFlags s.cfg.variant a b cin)).advance.x d = trunc s.cfg.variant (a.toNat + b.toNat + cin.toNat) :=
    (writeSum_advance_x s d _).trans (fit_trunc _ _)
  refine ⟨?_, ?_, ?_, ?_⟩
  · rw [hvalue, trunc_toNat, hnat]
    norm_cast
  · simp only [State.advance_flags, State.writeSum_flags, addFlags, decide_eq_true_eq, State.xlen, hnat]
    norm_cast
    simp
  · rw [hs]
    exact signedOverflow_iff
  · rw [hvalue]
    exact decide_eq_true_iff

/-- `SubFlags` gives the result and the flags of the exact differences, the minuend being an XLEN-bit value (R110). -/
theorem sumOf_subFlags {s : State} {a b : Word} {bin : Bool} {exact sexact : Int} (d : Reg)
    (ha : a.toNat < 2 ^ s.cfg.variant.bits) (he : exact = a.toNat - b.toNat - bin.toNat)
    (hs : sexact = signed s.cfg.variant a - signed s.cfg.variant b - bin.toNat) :
    SumOf s (s.writeSum d (subFlags s.cfg.variant a b bin)).advance d exact sexact := by
  have hvalue : (s.writeSum d (subFlags s.cfg.variant a b bin)).advance.x d = truncInt s.cfg.variant exact := by
    rw [he]
    exact (writeSum_advance_x s d _).trans (fit_truncInt _ _)
  have ha' : (a.toNat : Int) < 2 ^ s.cfg.variant.bits := by exact_mod_cast ha
  refine ⟨?_, ?_, ?_, ?_⟩
  · rw [hvalue, truncInt_toNat]
    rfl
  · rw [he]
    refine decide_eq_true_iff.trans (or_iff_left ?_).symm
    rw [State.xlen]
    omega
  · rw [hs]
    exact signedOverflow_iff
  · rw [hvalue, he]
    exact decide_eq_true_iff

/-! ## The eight instructions -/

/-- Settles O24: `AddFlags` on two registers, without and with the Carry flag. -/
theorem addRegistersResult : Obligations.AddRegistersResult := by
  intro a b d s
  exact ⟨⟨_, rfl, sumOf_addFlags d (by simp) (by simp), writesSum_writeSum ..⟩,
    ⟨_, rfl, sumOf_addFlags d rfl rfl, writesSum_writeSum ..⟩⟩

/-- Settles O25: `AddFlags` on a register and the extended immediate, whose two readings are the immediate's. -/
theorem addImmediatesResult : Obligations.AddImmediatesResult := by
  intro a d imm s
  have hu := extArith_toNat s.cfg imm
  have hs := signed_extArith s.cfg imm
  exact ⟨⟨_, rfl, sumOf_addFlags d (by rw [hu]; simp [State.xlen]) (by rw [hs]; simp), writesSum_writeSum ..⟩,
    ⟨_, rfl, sumOf_addFlags d (by rw [hu]; rfl) (by rw [hs]), writesSum_writeSum ..⟩⟩

/-- Settles O26: `SubFlags` on two registers, without and with the Carry flag. -/
theorem subtractRegistersResult : Obligations.SubtractRegistersResult := by
  intro a b d s
  exact ⟨⟨_, rfl, sumOf_subFlags d (s.x_lt a) (by simp) (by simp), writesSum_writeSum ..⟩,
    ⟨_, rfl, sumOf_subFlags d (s.x_lt a) rfl rfl, writesSum_writeSum ..⟩⟩

/-- Settles O27: `SubFlags` on a register and the extended immediate, whose two readings are the immediate's. -/
theorem subtractImmediatesResult : Obligations.SubtractImmediatesResult := by
  intro a d imm s
  have hu := extArith_toNat s.cfg imm
  have hs := signed_extArith s.cfg imm
  exact ⟨⟨_, rfl, sumOf_subFlags d (s.x_lt a) (by rw [hu]; simp [State.xlen]) (by rw [hs]; simp), writesSum_writeSum ..⟩,
    ⟨_, rfl, sumOf_subFlags d (s.x_lt a) (by rw [hu]; rfl) (by rw [hs]), writesSum_writeSum ..⟩⟩

/-! ## Comparison by subtraction -/

/-- Narrowing sees an integer modulo `2^XLEN` only (R10). -/
theorem truncInt_congr {x : Variant} {e f : Int} (h : e % 2 ^ x.bits = f % 2 ^ x.bits) : truncInt x e = truncInt x f := by
  rw [truncInt, h, truncInt]

/-- The sign of a result that wrapped at most once differs from the overflow exactly when the exact result is negative. -/
theorem sign_ne_overflow_iff {x : Variant} {e : Int} (hlo : -2 ^ x.bits ≤ e) (hhi : e < 2 ^ x.bits) :
    decide (signed x (truncInt x e) < 0) ≠ signedOverflow x e ↔ e < 0 := by
  have hhalf := x.two_pow_half_int
  have hpos : (0 : Int) < 2 ^ (x.bits - 1) := by positivity
  by_cases hneg : e < -2 ^ (x.bits - 1)
  · have hwrap : signed x (truncInt x e) = e + 2 ^ x.bits := by
      rw [← truncInt_congr (Int.add_emod_right e (2 ^ x.bits))]
      exact signed_truncInt x _ (by omega) (by omega)
    rw [hwrap, signedOverflow_iff.mpr (.inl hneg), Ne, Bool.not_eq_true, decide_eq_false_iff_not]
    omega
  by_cases hbig : 2 ^ (x.bits - 1) ≤ e
  · have hwrap : signed x (truncInt x e) = e - 2 ^ x.bits := by
      rw [← truncInt_congr (Int.sub_emod_right e (2 ^ x.bits))]
      exact signed_truncInt x _ (by omega) (by omega)
    rw [hwrap, signedOverflow_iff.mpr (.inr hbig), Ne, Bool.not_eq_true, decide_eq_false_iff_not]
    omega
  · have hno : signedOverflow x e = false := by
      rw [Bool.eq_false_iff, Ne, signedOverflow_iff]
      omega
    rw [signed_truncInt x e (by omega) (by omega), hno, Ne, Bool.not_eq_false, decide_eq_true_iff]

/-- The signed and the unsigned difference of two values agree modulo `2^XLEN` (R122 c). -/
theorem truncInt_signed_sub_toNat {x : Variant} {a b : Word} (ha : a.toNat < 2 ^ x.bits) (hb : b.toNat < 2 ^ x.bits) :
    ((truncInt x (signed x a - signed x b)).toNat : Int) = (a.toNat - b.toNat) % 2 ^ x.bits := by
  rw [truncInt_toNat, Int.sub_emod, signed_emod x a ha, signed_emod x b hb]

/-- Settles O28: the flags of `SubFlags` as comparisons; the signed one is `sign_ne_overflow_iff` at the exact signed difference. -/
theorem subtractCompares : Obligations.SubtractCompares := by
  intro a b d s
  obtain ⟨⟨t, ht, ⟨hx, hc, hv, hz⟩, -, -, -, ⟨hcfg, -⟩, -⟩, -⟩ := subtractRegistersResult a b d s
  have ha : ((s.x a).toNat : Int) < 2 ^ s.xlen := by exact_mod_cast s.x_lt a
  have hb : ((s.x b).toNat : Int) < 2 ^ s.xlen := by exact_mod_cast s.x_lt b
  refine ⟨t, ht, ?_, ?_, ?_⟩
  · rw [hz]
    constructor
    · intro h0
      rw [h0, Nat.cast_zero] at hx
      have hsame := Int.eq_zero_of_abs_lt_dvd (Int.dvd_of_emod_eq_zero hx.symm) (abs_lt.mpr ⟨by omega, by omega⟩)
      exact BitVec.eq_of_toNat_eq (by omega)
    · intro heq
      rw [heq, sub_self, Int.zero_emod] at hx
      exact_mod_cast hx
  · rw [hc]
    omega
  · have hra := signed_range s.cfg.variant (s.x a) (s.x_lt a)
    have hrb := signed_range s.cfg.variant (s.x b) (s.x_lt b)
    have hhalf := s.cfg.variant.two_pow_half_int
    have hvalue : t.x d = truncInt s.cfg.variant (signed s.cfg.variant (s.x a) - signed s.cfg.variant (s.x b)) := by
      apply BitVec.eq_of_toNat_eq
      zify
      rw [hx, truncInt_signed_sub_toNat (s.x_lt a) (s.x_lt b), State.xlen]
    have hflag : t.core.flags.v = signedOverflow s.cfg.variant (signed s.cfg.variant (s.x a) - signed s.cfg.variant (s.x b)) := by
      rw [Bool.eq_iff_iff, hv, signedOverflow_iff]
      rfl
    rw [hcfg, hvalue, hflag, sign_ne_overflow_iff (by omega) (by omega)]
    omega

/-! ## Two registers -/

/-- A sum with at most one carry is the result and the carry's weight (R30). -/
theorem SumOf.carry {s t : State} {d : Reg} {exact sexact : Int} (h : SumOf s t d exact sexact) (h0 : 0 ≤ exact)
    (hlt : exact < 2 * 2 ^ s.xlen) : ((t.x d).toNat + 2 ^ s.xlen * t.core.flags.c.toNat : Int) = exact := by
  obtain ⟨hx, hc, -, -⟩ := h
  rw [hx]
  cases hflag : t.core.flags.c with
  | false =>
    rw [hflag, Bool.false_eq_true, false_iff] at hc
    rw [Int.emod_eq_of_lt h0 (by omega)]
    simp
  | true =>
    have hbig : 2 ^ s.xlen ≤ exact := by
      have := hc.mp hflag
      omega
    rw [← Int.sub_emod_right, Int.emod_eq_of_lt (by omega) (by omega)]
    simp

/-- A difference with at most one borrow is the result less the borrow's weight (R30). -/
theorem SumOf.borrow {s t : State} {d : Reg} {exact sexact : Int} (h : SumOf s t d exact sexact) (h0 : -2 ^ s.xlen ≤ exact)
    (hlt : exact < 2 ^ s.xlen) : ((t.x d).toNat - 2 ^ s.xlen * t.core.flags.c.toNat : Int) = exact := by
  obtain ⟨hx, hc, -, -⟩ := h
  rw [hx]
  cases hflag : t.core.flags.c with
  | false =>
    rw [hflag, Bool.false_eq_true, false_iff] at hc
    rw [Int.emod_eq_of_lt (by omega) hlt]
    simp
  | true =>
    have hneg : exact < 0 := by
      have := hc.mp hflag
      omega
    rw [← Int.add_emod_right, Int.emod_eq_of_lt (by omega) (by omega)]
    simp

/-- A register's value as an integer, in its range (R21). -/
theorem x_int_range (s : State) (r : Reg) : (0 : Int) ≤ (s.x r).toNat ∧ ((s.x r).toNat : Int) < 2 ^ s.xlen :=
  ⟨Int.natCast_nonneg _, by exact_mod_cast s.x_lt r⟩

theorem toNat_int_le_one (b : Bool) : ((b.toNat : Nat) : Int) ≤ 1 := by cases b <;> decide

/-- Settles O29: each instruction's result and carry weigh its exact sum, and the second reads what the first left. -/
theorem doubleWordAddAndSubtract : Obligations.DoubleWordAddAndSubtract := by
  intro a0 a1 b0 b1 d0 d1 s ha hb hd
  have hrange := x_int_range s
  constructor
  · obtain ⟨⟨t, ht, hsum, hregs, -, -, ⟨hcfg, -⟩, -⟩, -⟩ := addRegistersResult a0 b0 d0 s
    obtain ⟨-, u, hu, hsum', hregs', -⟩ := addRegistersResult a1 b1 d1 t
    refine ⟨t, u, ht, hu, ?_⟩
    have hxlen : t.xlen = s.xlen := by rw [State.xlen, hcfg, State.xlen]
    rw [hregs a1 (by simpa using ha.symm), hregs b1 (by simpa using hb.symm)] at hsum'
    have hbit := toNat_int_le_one t.core.flags.c
    have h0 := hrange a0
    have h1 := hrange b0
    have h2 := hrange a1
    have h3 := hrange b1
    have hlow := hsum.carry (by omega) (by omega)
    have hhigh := hsum'.carry (by omega) (by rw [hxlen]; omega)
    rw [hxlen] at hhigh
    rw [hregs' d0 (by simpa using hd)]
    zify
    rw [hhigh]
    linear_combination hlow
  · obtain ⟨⟨t, ht, hsum, hregs, -, -, ⟨hcfg, -⟩, -⟩, -⟩ := subtractRegistersResult a0 b0 d0 s
    obtain ⟨-, u, hu, hsum', hregs', -⟩ := subtractRegistersResult a1 b1 d1 t
    refine ⟨t, u, ht, hu, ?_⟩
    have hxlen : t.xlen = s.xlen := by rw [State.xlen, hcfg, State.xlen]
    rw [hregs a1 (by simpa using ha.symm), hregs b1 (by simpa using hb.symm)] at hsum'
    have hbit := toNat_int_le_one t.core.flags.c
    have h0 := hrange a0
    have h1 := hrange b0
    have h2 := hrange a1
    have h3 := hrange b1
    have hlow := hsum.borrow (by omega) (by omega)
    have hhigh := hsum'.borrow (by rw [hxlen]; omega) (by rw [hxlen]; omega)
    rw [hxlen] at hhigh
    rw [hregs' d0 (by simpa using hd), hhigh]
    linear_combination hlow

/-! ## Multiplication and moves -/

/-- Settles O30: the two products agree modulo `2^XLEN` because the two readings of each operand do (R122 a). -/
theorem multiplyLowHalf : Obligations.MultiplyLowHalf := by
  intro a b d s
  have hvalue : (s.setX d (trunc s.cfg.variant ((s.x a).toNat * (s.x b).toNat))).advance.x d =
      trunc s.cfg.variant ((s.x a).toNat * (s.x b).toNat) := (setX_advance_x s d _).trans (fit_trunc _ _)
  refine ⟨_, rfl, ?_, ?_, writesOnly_setX ..⟩
  · rw [hvalue]
    exact trunc_toNat _ _
  · rw [hvalue, trunc_toNat, State.xlen, Int.mul_emod, signed_emod _ _ (s.x_lt a), signed_emod _ _ (s.x_lt b)]
    norm_cast

/-- Settles O33: the source is an XLEN-bit value, so that the destination holds all of it. -/
theorem moveCopies : Obligations.MoveCopies :=
  fun a d s => ⟨_, rfl, (setX_advance_x s d _).trans (s.fit_x a), writesOnly_setX ..⟩

end Sys2Proof.Machine
end

section
/-! Division (R120): the quotient with its remainder, in the two readings, and the cases to which the spec gives no result. -/

namespace Sys2Proof.Machine

/-! ## Truncating division of integers -/

/-- A quotient rounded toward zero stays in the symmetric range of its dividend, the one overflow left out. -/
theorem tdiv_range {p q bound : Int} (hlo : -bound ≤ p) (hhi : p < bound) (hq : q ≠ 0) (hover : ¬(p = -bound ∧ q = -1)) :
    -bound ≤ p.tdiv q ∧ p.tdiv q < bound := by
  by_cases h1 : q = 1
  · rw [h1, Int.tdiv_one]
    exact ⟨hlo, hhi⟩
  by_cases hm1 : q = -1
  · rw [hm1, Int.tdiv_neg, Int.tdiv_one]
    omega
  · have habs : (p.tdiv q).natAbs ≤ p.natAbs / 2 := by
      rw [Int.natAbs_tdiv]
      exact Nat.div_le_div_left (by omega) (by decide)
    omega

/-- The remainder of a division rounded toward zero: below the divisor in magnitude, and of the dividend's sign or zero. -/
theorem tmod_spec (p : Int) {q : Int} (hq : q ≠ 0) : |p.tmod q| < |q| ∧ 0 ≤ p.tmod q * p := by
  constructor
  · rw [Int.abs_eq_natAbs, Int.abs_eq_natAbs, Int.natAbs_tmod]
    exact_mod_cast Nat.mod_lt _ (Int.natAbs_pos.mpr hq)
  · rcases le_total 0 p with hp | hp
    · exact mul_nonneg (Int.tmod_nonneg q hp) hp
    · have hneg := Int.tmod_nonneg q (neg_nonneg.mpr hp)
      rw [Int.neg_tmod] at hneg
      exact mul_nonneg_of_nonpos_of_nonpos (neg_nonneg.mp hneg) hp

/-! ## The quotient, case by case -/

section
variable {c : Config} {a b : Word}

/-- The signed quotient (R120). -/
theorem quotient_signed (hb : b.toNat ≠ 0) (hd : c.divSigned = true)
    (hover : ¬(signed c.variant a = -2 ^ (c.variant.bits - 1) ∧ signed c.variant b = -1)) :
    quotient c a b = some (truncInt c.variant ((signed c.variant a).tdiv (signed c.variant b))) := by
  rw [quotient, if_neg hb, if_pos hd, if_neg hover]

/-- The unsigned quotient (R120). -/
theorem quotient_unsigned (hb : b.toNat ≠ 0) (hd : c.divSigned = false) :
    quotient c a b = some (trunc c.variant (a.toNat / b.toNat)) := by
  rw [quotient, if_neg hb, if_neg (by simp [hd])]

/-- The cases without a quotient (R120). -/
theorem quotient_none (h : b.toNat = 0 ∨
    (c.divSigned = true ∧ signed c.variant a = -2 ^ (c.variant.bits - 1) ∧ signed c.variant b = -1)) : quotient c a b = none := by
  unfold quotient
  split
  · rfl
  · rename_i hb
    obtain ⟨hd, hover⟩ := h.resolve_left hb
    rw [if_pos hd, if_pos hover]

end

/-- A divisor that is not zero is not zero as a signed number either. -/
theorem signed_x_ne_zero {s : State} {b : Reg} (hb : (s.x b).toNat ≠ 0) : signed s.cfg.variant (s.x b) ≠ 0 := by
  intro h0
  have hu := signed_emod s.cfg.variant (s.x b) (s.x_lt b)
  rw [h0, Int.zero_emod] at hu
  omega

/-- Settles O31: the quotient fits the register, so that reading it back gives it, and its remainder is that of `tmod_spec`. -/
theorem divideTruncates : Obligations.DivideTruncates := by
  intro a b d s hb
  refine ⟨fun hd hover => ?_, fun hd => ?_⟩
  · refine ⟨_, exec_div_some (quotient_signed hb hd hover), writesOnly_setX .., ?_⟩
    obtain ⟨hlo, hhi⟩ := signed_range s.cfg.variant (s.x a) (s.x_lt a)
    have hb0 := signed_x_ne_zero hb
    obtain ⟨hqlo, hqhi⟩ := tdiv_range hlo hhi hb0 hover
    obtain ⟨hlt, hsign⟩ := tmod_spec (signed s.cfg.variant (s.x a)) hb0
    refine ⟨(signed s.cfg.variant (s.x a)).tmod (signed s.cfg.variant (s.x b)), ?_, hlt, hsign⟩
    rw [setX_advance_x, fit_truncInt, signed_truncInt _ _ hqlo hqhi]
    exact (Int.tdiv_mul_add_tmod _ _).symm
  · refine ⟨_, exec_div_some (quotient_unsigned hb hd), writesOnly_setX .., (s.x a).toNat % (s.x b).toNat, ?_,
      Nat.mod_lt _ (Nat.pos_of_ne_zero hb)⟩
    have hfits : (s.x a).toNat / (s.x b).toNat < 2 ^ s.cfg.variant.bits := (Nat.div_le_self _ _).trans_lt (s.x_lt a)
    rw [setX_advance_x, fit_trunc, trunc_toNat, Nat.mod_eq_of_lt hfits]
    exact (Nat.div_add_mod' _ _).symm

/-- Settles O32: where there is no quotient the destination receives the free value, and one draw is counted. -/
theorem divideWithoutResultCompletes : Obligations.DivideWithoutResultCompletes := by
  intro a b d s h
  refine ⟨_, exec_div_none (quotient_none h), keepsRegs_setX s d _, rfl, fun _ => rfl, rfl, rfl, rfl, rfl, rfl, ?_⟩
  exact (s.setX d (fit s.cfg.variant (Config.freeQuotient s.draws (s.x a) (s.x b)))).draw.advance_fallsThrough

end Sys2Proof.Machine
end

section
/-! Addresses (R63, R155), the bits of the logical instructions (R135 to R143), and the shifts as repeated one-bit steps (R144 to R147). -/

namespace Sys2Proof.Machine

/-! ## Address arithmetic -/

/-- Address arithmetic with an offset that is known modulo `2^XLEN` (R63). -/
theorem addWrap_offset {x : Variant} {a b : Word} {offset : Int} (h : (b.toNat : Int) = offset % 2 ^ x.bits) :
    ((addWrap x a b).toNat : Int) = (a.toNat + offset) % 2 ^ x.bits := by
  rw [addWrap_toNat, ← Int.add_emod_emod, ← h]
  norm_cast

/-- Settles O39: the four forms are `addWrap`, the immediate being its value modulo `2^XLEN`. -/
theorem effectiveAddresses : Obligations.EffectiveAddresses :=
  fun s _ _ imm => ⟨addWrap_offset (extOff_toNat s.cfg imm), addWrap_toNat .., addWrap_toNat ..,
    addWrap_offset (extOff_toNat s.cfg imm)⟩

/-- Settles O34: both write the address arithmetic's result. -/
theorem pcAdditions : Obligations.PcAdditions := by
  intro a d imm s
  have hvalue : ∀ b : Word, (s.setX d (addWrap s.cfg.variant s.pc b)).advance.x d = addWrap s.cfg.variant s.pc b := fun b =>
    (setX_advance_x s d _).trans (fit_addWrap _ _ _)
  refine ⟨⟨_, rfl, ?_, writesOnly_setX ..⟩, ⟨_, rfl, ?_, writesOnly_setX ..⟩⟩
  · rw [hvalue]
    exact addWrap_offset (extOff_toNat s.cfg imm)
  · rw [hvalue]
    exact addWrap_toNat ..

/-! ## Bits -/

/-- Bit `i` of a number cut to XLEN bits. -/
theorem trunc_getLsbD (x : Variant) (n i : Nat) : (trunc x n).getLsbD i = (decide (i < x.bits) && n.testBit i) := by
  rw [BitVec.getLsbD, trunc_toNat, Nat.testBit_mod_two_pow]

/-- Narrowing the signed reading of a field is sign extension (R10). -/
theorem truncInt_signedOf (x : Variant) {n : Nat} (v : BitVec n) (hn : 0 < n) :
    truncInt x (signedOf n v.toNat) = fit x (v.signExtend 128) := by
  have hdvd : (2 : Int) ^ x.bits ∣ 2 ^ 128 := pow_dvd_pow 2 x.bits_le
  have hext : ((v.signExtend 128).toNat : Int) = v.toInt % 2 ^ 128 := by
    rw [BitVec.signExtend, BitVec.toNat_ofInt]
    exact Int.toNat_of_nonneg (Int.emod_nonneg _ (by decide))
  apply BitVec.eq_of_toNat_eq
  zify
  rw [truncInt_toNat, fit_toNat, ← toInt_eq_signedOf v hn]
  push_cast
  rw [hext, Int.emod_emod_of_dvd _ hdvd]

/-- The bit above a widened value of the top bit `top`: a zero or a copy of it (R10). -/
def extensionBit : Extension → Bool → Bool
  | .zero, _ => false
  | .sign, top => top

/-- The bits of a widened field: its own, and above them zeros or copies of its top bit (R10, R58, R88). -/
theorem extend_getLsbD (e : Extension) {x : Variant} {n i : Nat} (v : BitVec n) (hn : 0 < n) (hi : i < x.bits) :
    (extend e x n v.toNat).getLsbD i = if i < n then v.getLsbD i else extensionBit e v.msb := by
  cases e with
  | zero =>
    rw [extend, trunc_getLsbD, decide_eq_true hi, Bool.true_and]
    split
    · rfl
    · exact BitVec.getLsbD_of_ge v i (by omega)
  | sign =>
    have hi128 := lt_of_lt_of_le hi x.bits_le
    rw [extend, truncInt_signedOf x v hn, fit_getLsbD, BitVec.getLsbD_signExtend, decide_eq_true hi, decide_eq_true hi128,
      Bool.true_and, Bool.true_and, extensionBit]

/-- The bits of the extended arithmetic immediate (R88). -/
theorem extArith_getLsbD {c : Config} {i : Nat} (imm : BitVec 12) (hi : i < c.variant.bits) :
    (extArith c imm).getLsbD i = immBit c.immArithExt imm i := by
  rw [extArith, extend_getLsbD c.immArithExt imm (by decide) hi, BitVec.msb_eq_getLsbD_last]
  cases c.immArithExt <;> rfl

/-- The bits of a destination below XLEN are those written. -/
theorem setX_advance_getLsbD {s : State} (d : Reg) (v : Word) {i : Nat} (hi : i < s.xlen) :
    ((s.setX d v).advance.x d).getLsbD i = v.getLsbD i := by
  rw [setX_advance_x, fit_getLsbD, decide_eq_true (show i < s.cfg.variant.bits from hi), Bool.true_and]

/-- NOT of the XLEN bits (R138). -/
theorem fit_not_getLsbD {x : Variant} (v : Word) {i : Nat} (hi : i < x.bits) : (fit x (~~~v)).getLsbD i = !v.getLsbD i := by
  rw [fit_getLsbD, BitVec.getLsbD_not, decide_eq_true hi, decide_eq_true (lt_of_lt_of_le hi x.bits_le), Bool.true_and, Bool.true_and]

/-- Settles O35: the destination has the bits of the operation on the registers. -/
theorem bitwiseRegisters : Obligations.BitwiseRegisters := by
  intro a b d s
  refine ⟨⟨_, rfl, writesOnly_setX .., fun i hi => ?_⟩, ⟨_, rfl, writesOnly_setX .., fun i hi => ?_⟩,
    ⟨_, rfl, writesOnly_setX .., fun i hi => ?_⟩, ⟨_, rfl, writesOnly_setX .., fun i hi => ?_⟩⟩ <;>
    rw [setX_advance_getLsbD d _ hi]
  · exact BitVec.getLsbD_and
  · exact BitVec.getLsbD_or
  · exact BitVec.getLsbD_xor
  · exact fit_not_getLsbD _ hi

/-- Settles O36: the destination has the bits of the operation on the register and the extended immediate. -/
theorem bitwiseImmediates : Obligations.BitwiseImmediates := by
  intro a d imm s
  refine ⟨⟨_, rfl, writesOnly_setX .., fun i hi => ?_⟩, ⟨_, rfl, writesOnly_setX .., fun i hi => ?_⟩,
    ⟨_, rfl, writesOnly_setX .., fun i hi => ?_⟩, ⟨_, rfl, writesOnly_setX .., fun i hi => ?_⟩⟩ <;>
    rw [setX_advance_getLsbD d _ hi, ← extArith_getLsbD imm hi]
  · exact BitVec.getLsbD_and
  · exact BitVec.getLsbD_or
  · exact BitVec.getLsbD_xor
  · exact fit_not_getLsbD _ hi

/-! ## Shifts -/

/-- One left step is doubling (R144). -/
theorem leftStep_trunc (x : Variant) (n : Nat) : leftStep x (trunc x n) = trunc x (n * 2) := by
  have hhalf := x.two_pow_half
  have hdvd : 2 ^ (x.bits - 1) ∣ 2 ^ x.bits := ⟨2, by omega⟩
  rw [leftStep, trunc_toNat, Nat.mod_mod_of_dvd _ hdvd, ← Nat.mul_mod_mul_right, trunc, hhalf, mul_comm 2 (2 ^ (x.bits - 1))]

/-- `m` left steps multiply by `2^m` (R144). -/
theorem iterate_leftStep (x : Variant) (m n : Nat) : (leftStep x)^[m] (trunc x n) = trunc x (n * 2 ^ m) := by
  induction m generalizing n with
  | zero => simp
  | succ m ih => rw [Function.iterate_succ_apply, leftStep_trunc, ih, pow_succ', mul_assoc]

/-- One right step with a zero on top is halving (R145). -/
theorem rightStep_trunc {x : Variant} {n : Nat} (hn : n < 2 ^ x.bits) : rightStep x false (trunc x n) = trunc x (n / 2) := by
  have hhalf : n / 2 < 2 ^ x.bits := (Nat.div_le_self _ _).trans_lt hn
  rw [rightStep, trunc_toNat, Nat.mod_eq_of_lt hn, trunc, Nat.mod_eq_of_lt hhalf]
  simp

/-- `m` right steps with zeros on top divide by `2^m` (R145). -/
theorem iterate_rightStep (x : Variant) (m : Nat) {n : Nat} (hn : n < 2 ^ x.bits) :
    (rightStep x false)^[m] (trunc x n) = trunc x (n / 2 ^ m) := by
  induction m generalizing n with
  | zero => simp
  | succ m ih =>
    rw [Function.iterate_succ_apply, rightStep_trunc hn, ih ((Nat.div_le_self _ _).trans_lt hn), Nat.div_div_eq_div_mul, ← pow_succ']

/-- The narrowing of an integer in the signed range, as a number: below zero it stands `2^XLEN` higher (R10). -/
theorem truncInt_toNat_of_range {x : Variant} {e : Int} (hlo : -2 ^ (x.bits - 1) ≤ e) (hhi : e < 2 ^ (x.bits - 1)) :
    ((truncInt x e).toNat : Int) = if e < 0 then e + 2 ^ x.bits else e := by
  have hhalf := x.two_pow_half_int
  rw [truncInt_toNat]
  split
  · rw [← Int.add_emod_right e, Int.emod_eq_of_lt (by omega) (by omega)]
  · exact Int.emod_eq_of_lt (by omega) (by omega)

/-- One right step with the sign on top is halving toward minus infinity (R146). -/
theorem rightStep_truncInt {x : Variant} {e : Int} (hlo : -2 ^ (x.bits - 1) ≤ e) (hhi : e < 2 ^ (x.bits - 1)) :
    rightStep x (decide (e < 0)) (truncInt x e) = truncInt x (e / 2) := by
  have hhalf := x.two_pow_half_int
  have hbound : (2 : Int) ^ x.bits ≤ 2 ^ 128 := by exact_mod_cast x.two_pow_bits_le
  have hu := truncInt_toNat_of_range hlo hhi
  have hr := truncInt_toNat_of_range (x := x) (e := e / 2) (by omega) (by omega)
  apply BitVec.eq_of_toNat_eq
  zify
  rw [rightStep, BitVec.toNat_ofNat, hr]
  push_cast
  rw [hu]
  by_cases hneg : e < 0
  · rw [if_pos hneg, if_pos (by omega), decide_eq_true hneg, Bool.toNat_true, Nat.cast_one, one_mul,
      Int.emod_eq_of_lt (by omega) (by omega)]
    omega
  · rw [if_neg hneg, if_neg (by omega), decide_eq_false hneg, Bool.toNat_false, Nat.cast_zero, zero_mul, add_zero,
      Int.emod_eq_of_lt (by omega) (by omega)]

/-- `m` right steps with the sign on top divide by `2^m`, toward minus infinity (R146). -/
theorem iterate_rightStep_signed {x : Variant} (m : Nat) {e : Int} (hlo : -2 ^ (x.bits - 1) ≤ e) (hhi : e < 2 ^ (x.bits - 1)) :
    (rightStep x (decide (e < 0)))^[m] (truncInt x e) = truncInt x (e / 2 ^ m) := by
  induction m generalizing e with
  | zero => simp
  | succ m ih =>
    have hsign : decide (e < 0) = decide (e / 2 < 0) := decide_eq_decide.mpr (by omega)
    rw [Function.iterate_succ_apply, rightStep_truncInt hlo hhi, hsign, ih (by omega) (by omega),
      Int.ediv_ediv_of_nonneg (by decide), ← pow_succ']

/-- An XLEN-bit value is the narrowing of its signed reading (R10). -/
theorem truncInt_signed {x : Variant} {v : Word} (h : v.toNat < 2 ^ x.bits) : truncInt x (signed x v) = v := by
  apply BitVec.eq_of_toNat_eq
  zify
  rw [truncInt_toNat, signed_emod x v h]

/-- The top bit of an XLEN-bit value tells whether it is negative (R10). -/
theorem getLsbD_top {x : Variant} {v : Word} (h : v.toNat < 2 ^ x.bits) : v.getLsbD (x.bits - 1) = decide (signed x v < 0) := by
  have hhalf := x.two_pow_half
  have hhalf' := x.two_pow_half_int
  have hlt : (v.toNat : Int) < 2 ^ x.bits := by exact_mod_cast h
  have hpos : 0 < 2 ^ (x.bits - 1) := by positivity
  rw [BitVec.getLsbD, Nat.testBit_eq_decide_div_mod_eq, decide_eq_decide, signed, signedOf]
  split
  · rename_i hsmall
    rw [Nat.div_eq_of_lt hsmall]
    omega
  · rename_i hbig
    have hdiv : v.toNat / 2 ^ (x.bits - 1) = 1 := Nat.div_eq_of_lt_le (by omega) (by omega)
    rw [hdiv]
    omega

/-- Settles O37: the closed forms are the repeated steps. -/
theorem shiftsRepeatOneBitSteps : Obligations.ShiftsRepeatOneBitSteps := by
  intro a d imm s
  have hx := s.x_lt a
  refine ⟨⟨_, rfl, writesOnly_setX .., ?_⟩, ⟨_, rfl, writesOnly_setX .., ?_⟩, ⟨_, rfl, writesOnly_setX .., ?_⟩⟩ <;>
    rw [setX_advance_x]
  · calc fit s.cfg.variant (shiftLeft s.cfg.variant (s.x a) imm.toNat)
        = trunc s.cfg.variant ((s.x a).toNat * 2 ^ imm.toNat) := fit_trunc _ _
      _ = (leftStep s.cfg.variant)^[imm.toNat] (fit s.cfg.variant (s.x a)) := (iterate_leftStep _ _ _).symm
      _ = (leftStep s.cfg.variant)^[imm.toNat] (s.x a) := by rw [s.fit_x]
  · calc fit s.cfg.variant (shiftRight s.cfg.variant (s.x a) imm.toNat)
        = trunc s.cfg.variant ((s.x a).toNat / 2 ^ imm.toNat) := fit_trunc _ _
      _ = (rightStep s.cfg.variant false)^[imm.toNat] (fit s.cfg.variant (s.x a)) := (iterate_rightStep _ _ hx).symm
      _ = (rightStep s.cfg.variant false)^[imm.toNat] (s.x a) := by rw [s.fit_x]
  · obtain ⟨hlo, hhi⟩ := signed_range s.cfg.variant (s.x a) hx
    rw [State.xlen, getLsbD_top hx]
    calc fit s.cfg.variant (shiftRightSigned s.cfg.variant (s.x a) imm.toNat)
        = truncInt s.cfg.variant (signed s.cfg.variant (s.x a) / 2 ^ imm.toNat) := fit_truncInt _ _
      _ = (rightStep s.cfg.variant (decide (signed s.cfg.variant (s.x a) < 0)))^[imm.toNat]
            (truncInt s.cfg.variant (signed s.cfg.variant (s.x a))) := (iterate_rightStep_signed _ hlo hhi).symm
      _ = (rightStep s.cfg.variant (decide (signed s.cfg.variant (s.x a) < 0)))^[imm.toNat] (s.x a) := by rw [truncInt_signed hx]

/-- A division by a power above the magnitude leaves the sign (R146). -/
theorem ediv_two_pow_of_abs_le {e bound : Int} (hlo : -bound ≤ e) (hhi : e < bound) : e / bound = if e < 0 then -1 else 0 := by
  split
  · rename_i hneg
    exact Int.ediv_eq_neg_one_of_neg_of_le hneg (by omega)
  · rename_i hnonneg
    exact Int.ediv_eq_zero_of_lt (not_lt.mp hnonneg) hhi

/-- Settles O38: beyond the width the closed forms are zero, or the sign. -/
theorem shiftsPastTheWidth : Obligations.ShiftsPastTheWidth := by
  intro a d imm s
  have hx := s.x_lt a
  refine ⟨fun hwide => ⟨⟨_, rfl, ?_⟩, ⟨_, rfl, ?_⟩⟩, fun hwide => ⟨_, rfl, ?_⟩⟩ <;> rw [setX_advance_x]
  · have hdvd : 2 ^ s.cfg.variant.bits ∣ (s.x a).toNat * 2 ^ imm.toNat := Dvd.dvd.mul_left (pow_dvd_pow 2 hwide) _
    rw [shiftLeft, fit_trunc, trunc, Nat.mod_eq_zero_of_dvd hdvd]
    rfl
  · rw [shiftRight, fit_trunc, Nat.div_eq_of_lt (hx.trans_le (Nat.pow_le_pow_right (by decide) hwide)), trunc, Nat.zero_mod]
    rfl
  · obtain ⟨hlo, hhi⟩ := signed_range s.cfg.variant (s.x a) hx
    have hle : (2 : Int) ^ (s.cfg.variant.bits - 1) ≤ 2 ^ imm.toNat := pow_le_pow_right₀ (by decide) hwide
    have hpos : (0 : Int) < 2 ^ (s.cfg.variant.bits - 1) := by positivity
    have hdiv := ediv_two_pow_of_abs_le (bound := 2 ^ imm.toNat) (by omega) (hhi.trans_le hle)
    rw [shiftRightSigned, fit_truncInt, hdiv]
    refine signed_truncInt s.cfg.variant _ ?_ ?_ <;> split <;> omega

end Sys2Proof.Machine
end

section
/-! Data accesses: the stops and the results of loads, stores and SWAP in terms of the bytes of their access (R55 to R58, R156 to R158,
R204). -/

namespace Sys2Proof.Machine

/-! ## The operations after the alignment -/

section
variable {s : State} {d : Reg} {ea : Word} {n : Nat}

theorem load_of_memRead_error {e : Stop} (h0 : ea.toNat % n = 0) (hr : s.memRead ea n = .error e) : load s d ea n = e.outcome := by
  rw [load, if_neg (not_not.mpr h0), hr, andThen_error]

theorem load_of_memRead_ok {v : Word} (h0 : ea.toNat % n = 0) (hr : s.memRead ea n = .ok v) :
    load s d ea n = .next (s.setX d (extLoad s.cfg n v)).advance := by
  rw [load, if_neg (not_not.mpr h0), hr, andThen_ok]

theorem store_of_memWrite_error {e : Stop} (h0 : ea.toNat % n = 0) (hw : s.memWrite ea n (s.x d) = .error e) :
    store s d ea n = e.outcome := by
  rw [store, if_neg (not_not.mpr h0), hw, andThen_error]

theorem store_of_memWrite_ok {t : State} (h0 : ea.toNat % n = 0) (hw : s.memWrite ea n (s.x d) = .ok t) :
    store s d ea n = .next t.advance := by
  rw [store, if_neg (not_not.mpr h0), hw, andThen_ok]

theorem exchange_of_memRead_error {e : Stop} (h0 : ea.toNat % n = 0) (hr : s.memRead ea n = .error e) :
    exchange s d ea n = e.outcome := by
  rw [exchange, if_neg (not_not.mpr h0), hr, andThen_error]

theorem exchange_of_memWrite_error {v : Word} {e : Stop} (h0 : ea.toNat % n = 0) (hr : s.memRead ea n = .ok v)
    (hw : s.memWrite ea n (s.x d) = .error e) : exchange s d ea n = e.outcome := by
  rw [exchange, if_neg (not_not.mpr h0), hr, andThen_ok, hw, andThen_error]

theorem exchange_of_memWrite_ok {v : Word} {t : State} (h0 : ea.toNat % n = 0) (hr : s.memRead ea n = .ok v)
    (hw : s.memWrite ea n (s.x d) = .ok t) : exchange s d ea n = .next (t.setX d v).advance := by
  rw [exchange, if_neg (not_not.mpr h0), hr, andThen_ok, hw, andThen_ok]

end

/-! ## The bytes of an aligned access -/

section
variable {s : State} {i : Instr} {ea : Word} {n : Nat}

/-- What holds of the bytes from the address on holds at every address of an aligned access (R63). -/
theorem forall_addresses_of_dataAccess {p : Nat → Prop} (ha : dataAccess s i = some (ea, n)) (h0 : ea.toNat % n = 0)
    (h : ∀ j < n, p (ea.toNat + j)) : ∀ a ∈ s.addresses ea n, p a := by
  intro a hin
  obtain ⟨j, hj, rfl⟩ := (mem_addresses_of_dataAccess ha h0).mp hin
  exact h j hj

/-- The bytes of an aligned access do not wrap (R63). -/
theorem wrap_of_dataAccess (ha : dataAccess s i = some (ea, n)) (h0 : ea.toNat % n = 0) {j : Nat} (hj : j < n) :
    (ea.toNat + j) % 2 ^ s.xlen = ea.toNat + j := by
  obtain ⟨hn, hlt⟩ := dataAccess_bounds ha
  exact byteAddresses_aligned s.cfg.variant ea n j hn h0 hlt hj

/-- Settles O46: each of the three operations reads or writes memory first, and that stops. -/
theorem accessOutsideMapFaults : Obligations.AccessOutsideMapFaults := by
  rintro i s ea n ha h0 ⟨j, hj, hmap⟩
  have hin : ea.toNat + j ∈ s.addresses ea n := (mem_addresses_of_dataAccess ha h0).mpr ⟨j, hj, rfl⟩
  rcases dataAccess_exec ha with ⟨d, -, he⟩ | ⟨r, -, -, he⟩ | ⟨a, d, -, he, -, -⟩
  · exact he.trans (load_of_memRead_error h0 (State.memRead_unmapped hin hmap))
  · exact he.trans (store_of_memWrite_error h0 (State.memWrite_unmapped hin hmap))
  · exact he.trans (exchange_of_memRead_error h0 (State.memRead_unmapped hin hmap))

/-- A read names the lowest byte without a value (log 22). -/
theorem State.memRead_unwritten {j : Nat} (hmap : ∀ a ∈ s.addresses ea n, s.mapped a = true) (hj : j < n)
    (hnone : s.byte ((ea.toNat + j) % 2 ^ s.xlen) = none)
    (hbelow : ∀ k < j, (s.byte ((ea.toNat + k) % 2 ^ s.xlen)).isSome = true) :
    s.memRead ea n = .error (.fault (.readOfUnwritten ((ea.toNat + j) % 2 ^ s.xlen))) := by
  have hlen : (s.addresses ea n).length = n := byteAddresses_length ..
  have hget : ∀ (k : Nat) (hk : k < (s.addresses ea n).length), (s.addresses ea n)[k] = (ea.toNat + k) % 2 ^ s.xlen := fun k hk =>
    byteAddresses_getElem _ _ _ _ hk
  have hfind : (s.addresses ea n).find? (fun a => (s.byte a).isNone) = some ((ea.toNat + j) % 2 ^ s.xlen) := by
    refine List.find?_eq_some_iff_getElem.mpr ⟨by rw [hnone]; rfl, j, by omega, hget j (by omega), fun k hk => ?_⟩
    rw [hget k (by omega)]
    simpa using hbelow k hk
  rw [State.memRead, if_pos (List.all_eq_true.mpr hmap), hfind]

/-- Settles O47: the read of a load or of SWAP comes before anything else the instruction does. -/
theorem valuelessByteFaults : Obligations.ValuelessByteFaults := by
  intro i s ea n j ha hreads h0 hmap hj hnone hbelow
  have hr : s.memRead ea n = .error (.fault (.readOfUnwritten (ea.toNat + j))) := by
    rw [← wrap_of_dataAccess ha h0 hj] at hnone ⊢
    refine State.memRead_unwritten (forall_addresses_of_dataAccess ha h0 hmap) hj hnone fun k hk => ?_
    rw [wrap_of_dataAccess ha h0 (hk.trans hj)]
    exact hbelow k hk
  rcases dataAccess_exec ha with ⟨d, -, he⟩ | ⟨r, -, hload, -⟩ | ⟨a, d, -, he, -, -⟩
  · exact he.trans (load_of_memRead_error h0 hr)
  · rcases hreads with hsome | ⟨a, d, rfl⟩
    · simp [hload] at hsome
    · cases ha
      exact exchange_of_memRead_error h0 hr
  · exact he.trans (exchange_of_memRead_error h0 hr)

/-- A load writes no memory (R156). -/
theorem writesMemory_of_loadAccess (h : (loadAccess s i).isSome = true) : writesMemory s i = false := by
  obtain ⟨access, ha⟩ := Option.isSome_iff_exists.mp h
  cases i <;> simp only [loadAccess, reduceCtorEq] at ha
  all_goals rfl

/-- Settles O48: the write of a store, or that of SWAP after its read, meets the program text. -/
theorem storeIntoTextRefused : Obligations.StoreIntoTextRefused := by
  rintro i s ea n hwrites ha h0 hmap ⟨j, hj, htext⟩ hvalues
  have hin : ea.toNat + j ∈ s.addresses ea n := (mem_addresses_of_dataAccess ha h0).mpr ⟨j, hj, rfl⟩
  have hall : ∀ b ∈ s.addresses ea n, s.mapped b = true := forall_addresses_of_dataAccess ha h0 hmap
  rcases dataAccess_exec ha with ⟨d, hload, -⟩ | ⟨r, -, -, he⟩ | ⟨a, d, hi, he, -, -⟩
  · rw [writesMemory_of_loadAccess (by rw [hload]; rfl)] at hwrites
    cases hwrites
  · exact he.trans (store_of_memWrite_error h0 (State.memWrite_inText hall hin htext))
  · have hsome : ∀ b ∈ s.addresses ea n, (s.byte b).isSome = true :=
      forall_addresses_of_dataAccess ha h0 (hvalues ⟨a, d, hi⟩)
    exact he.trans (exchange_of_memWrite_error h0 (State.memRead_eq_ok.mpr ⟨hall, hsome, rfl⟩)
      (State.memWrite_inText hall hin htext))

end

/-! ## Loads -/

/-- The bits of what a load writes: those it read, and above them zeros or copies of its top bit (R58). -/
theorem extLoad_getLsbD {c : Config} {n i : Nat} {v : Word} (hn : 0 < n) (hv : v.toNat < 2 ^ (8 * n)) (hi : i < c.variant.bits) :
    (extLoad c n v).getLsbD i =
      if i < 8 * n then v.getLsbD i else extensionBit c.loadExt (v.getLsbD (8 * n - 1)) := by
  have hfield : (BitVec.ofNat (8 * n) v.toNat).toNat = v.toNat := by rw [BitVec.toNat_ofNat, Nat.mod_eq_of_lt hv]
  have hbit : ∀ k, (BitVec.ofNat (8 * n) v.toNat).getLsbD k = v.getLsbD k := fun k => by rw [BitVec.getLsbD, hfield, BitVec.getLsbD]
  have h := extend_getLsbD c.loadExt (BitVec.ofNat (8 * n) v.toNat) (by omega) hi
  rwa [hfield, BitVec.msb_eq_getLsbD_last, hbit, hbit] at h

/-- A slice is determined by the bits in it. -/
theorem extractLsb'_congr {v w : Word} {lo width : Nat} (h : ∀ k < width, v.getLsbD (lo + k) = w.getLsbD (lo + k)) :
    v.extractLsb' lo width = w.extractLsb' lo width := by
  apply BitVec.eq_of_getLsbD_eq
  intro k hk
  rw [BitVec.getLsbD_extractLsb', BitVec.getLsbD_extractLsb', h k hk]

/-- Settles O43: the read gives the number of the bytes, and the extension keeps its bits below the access width. -/
theorem loadsReadMemory : Obligations.LoadsReadMemory := by
  intro i s d ea n hwf hload h0 hmap hsome
  obtain ⟨ha, he⟩ := dataAccess_of_load hload
  obtain ⟨hn, -⟩ := dataAccess_bounds ha
  have hwidth := loadAccess_width hload hwf
  have hpos : 0 < n := Nat.pos_of_ne_zero (by rintro rfl; simp at hn)
  have hread : s.memRead ea n = .ok (BitVec.ofNat 128 (s.valueAt ea n)) :=
    State.memRead_eq_ok.mpr ⟨forall_addresses_of_dataAccess ha h0 hmap, forall_addresses_of_dataAccess ha h0 hsome, rfl⟩
  have hbits : ∀ k < s.xlen, ((s.setX d (extLoad s.cfg n (BitVec.ofNat 128 (s.valueAt ea n)))).advance.x d).getLsbD k =
      if k < 8 * n then (BitVec.ofNat 128 (s.valueAt ea n)).getLsbD k
      else extensionBit s.cfg.loadExt ((BitVec.ofNat 128 (s.valueAt ea n)).getLsbD (8 * n - 1)) :=
    fun k hk => (setX_advance_getLsbD d _ hk).trans (extLoad_getLsbD hpos (s.toNat_valueAt_lt ea n) hk)
  have hxlen : 8 * n ≤ s.xlen := hwidth
  refine ⟨_, he.trans (load_of_memRead_ok h0 hread), fun j hj => ?_, fun k hk hlt => ?_, writesOnly_setX ..⟩
  · have hbyte := State.valueAt_extractLsb' (s := s) (addr := ea) (accessSize_le hn) hj
      (by rw [wrap_of_dataAccess ha h0 hj]; exact hsome j hj)
    rw [wrap_of_dataAccess ha h0 hj] at hbyte
    rw [hbyte]
    refine congrArg some (extractLsb'_congr fun k hk => ?_)
    rw [hbits _ (by omega), if_pos (by omega)]
  · rw [hbits k hlt, hbits (8 * n - 1) (by omega), if_neg (by omega), if_pos (by omega)]
    cases s.cfg.loadExt <;> rfl

/-! ## Stores -/

/-- Settles O44: the bytes of a store at an aligned access, and its frame. -/
theorem storesWriteMemory : Obligations.StoresWriteMemory := by
  intro i s r ea n _ hstore h0 hmap htext
  obtain ⟨ha, he⟩ := dataAccess_of_store hstore
  obtain ⟨hn, -⟩ := dataAccess_bounds ha
  have hwrite : s.memWrite ea n (s.x r) = .ok (s.storeBytes ea n (s.x r)) :=
    State.memWrite_eq_ok.mpr ⟨forall_addresses_of_dataAccess ha h0 hmap, forall_addresses_of_dataAccess ha h0 htext, rfl⟩
  refine ⟨_, he.trans (store_of_memWrite_ok h0 hwrite), fun j hj => ?_, fun a hout => ?_, fun _ _ => rfl, rfl,
    ⟨rfl, rfl, rfl, rfl, rfl⟩, (s.storeBytes ea n (s.x r)).advance_fallsThrough⟩
  · have hbyte := State.storeBytes_byte_extractLsb' (s := s) (addr := ea) (s.x r) hn hj
    rwa [wrap_of_dataAccess ha h0 hj] at hbyte
  · refine s.storeBytes_byte_other ea n (s.x r) a fun hin => ?_
    obtain ⟨j, hj, rfl⟩ := (mem_addresses_of_dataAccess ha h0).mp hin
    exact hout j hj rfl

/-! ## SWAP -/

/-- Settles O49: the read gives the old bytes, the write stores the old register, and the register receives what was read. -/
theorem swapExchanges : Obligations.SwapExchanges := by
  intro a d s h0 hmap htext hsome
  have ha : dataAccess s (.swap a d) = some (s.x a, s.cfg.variant.bytes) := rfl
  obtain ⟨hn, -⟩ := dataAccess_bounds ha
  have hall : ∀ b ∈ s.addresses (s.x a) s.cfg.variant.bytes, s.mapped b = true := forall_addresses_of_dataAccess ha h0 hmap
  have hread : s.memRead (s.x a) s.cfg.variant.bytes = .ok (BitVec.ofNat 128 (s.valueAt (s.x a) s.cfg.variant.bytes)) :=
    State.memRead_eq_ok.mpr ⟨hall, forall_addresses_of_dataAccess ha h0 hsome, rfl⟩
  have hwrite : s.memWrite (s.x a) s.cfg.variant.bytes (s.x d) = .ok (s.storeBytes (s.x a) s.cfg.variant.bytes (s.x d)) :=
    State.memWrite_eq_ok.mpr ⟨hall, forall_addresses_of_dataAccess ha h0 htext, rfl⟩
  refine ⟨_, exchange_of_memWrite_ok h0 hread hwrite, fun j hj => ?_, fun j hj => ?_, fun b hout => ?_,
    keepsRegs_setX (s.storeBytes (s.x a) s.cfg.variant.bytes (s.x d)) d _, rfl, ⟨rfl, rfl, rfl, rfl, rfl⟩,
    ((s.storeBytes (s.x a) s.cfg.variant.bytes (s.x d)).setX d _).advance_fallsThrough⟩
  · rw [setX_advance_x, State.storeBytes_cfg, fit_memRead hread]
    have hbyte := State.valueAt_extractLsb' (s := s) (addr := s.x a) (accessSize_le hn) hj
      (by rw [wrap_of_dataAccess ha h0 hj]; exact hsome j hj)
    rwa [wrap_of_dataAccess ha h0 hj] at hbyte
  · have hbyte := State.storeBytes_byte_extractLsb' (s := s) (addr := s.x a) (s.x d) hn hj
    rwa [wrap_of_dataAccess ha h0 hj] at hbyte
  · refine s.storeBytes_byte_other _ _ _ b fun hin => ?_
    obtain ⟨j, hj, rfl⟩ := (mem_addresses_of_dataAccess ha h0).mp hin
    exact hout j hj rfl

/-- A value of `n` bytes is determined by its bytes. -/
theorem eq_of_bytes {n : Nat} {v w : Word} (hv : v.toNat < 2 ^ (8 * n)) (hw : w.toNat < 2 ^ (8 * n))
    (h : ∀ j < n, v.extractLsb' (8 * j) 8 = w.extractLsb' (8 * j) 8) : v = w := by
  apply BitVec.eq_of_getLsbD_eq
  intro k _
  by_cases hk : k < 8 * n
  · have hbyte := congrArg (fun b => b.getLsbD (k % 8)) (h (k / 8) (by omega))
    have hlt : k % 8 < 8 := Nat.mod_lt _ (by decide)
    simpa only [BitVec.getLsbD_extractLsb', decide_eq_true hlt, Bool.true_and, Nat.div_add_mod] using hbyte
  · have hpow : 2 ^ (8 * n) ≤ 2 ^ k := Nat.pow_le_pow_right (by decide) (by omega)
    rw [BitVec.getLsbD, BitVec.getLsbD, Nat.testBit_lt_two_pow (hv.trans_le hpow), Nat.testBit_lt_two_pow (hw.trans_le hpow)]

/-- What a SWAP that gives a next state has found: an aligned address whose bytes exist, are data and hold values (R158, R204). -/
theorem swap_premises {a d : Reg} {s t : State} (h : exec (.swap a d) s = .next t) :
    (s.x a).toNat % s.cfg.variant.bytes = 0 ∧ (∀ j < s.cfg.variant.bytes, s.mapped ((s.x a).toNat + j) = true) ∧
      (∀ j < s.cfg.variant.bytes, s.inText ((s.x a).toNat + j) = false) ∧
      ∀ j < s.cfg.variant.bytes, (s.byte ((s.x a).toNat + j)).isSome = true := by
  have ha : dataAccess s (.swap a d) = some (s.x a, s.cfg.variant.bytes) := rfl
  have h0 := aligned_of_exec_next ha h
  have hin : ∀ j < s.cfg.variant.bytes, (s.x a).toNat + j ∈ s.addresses (s.x a) s.cfg.variant.bytes := fun j hj =>
    (mem_addresses_of_dataAccess ha h0).mpr ⟨j, hj, rfl⟩
  replace h : exchange s d (s.x a) s.cfg.variant.bytes = .next t := h
  rw [exchange, if_neg (not_not.mpr h0)] at h
  obtain ⟨v, hr, h⟩ := andThen_next h
  obtain ⟨u, hw, -⟩ := andThen_next h
  obtain ⟨hmap, hsome, -⟩ := State.memRead_eq_ok.mp hr
  obtain ⟨-, htext, -⟩ := State.memWrite_eq_ok.mp hw
  exact ⟨h0, fun j hj => hmap _ (hin j hj), fun j hj => htext _ (hin j hj), fun j hj => hsome _ (hin j hj)⟩

/-- Settles O50: the second SWAP finds the same address and what the first left, and exchanges it back. -/
theorem swapTwiceRestores : Obligations.SwapTwiceRestores := by
  intro a d s t hne h
  obtain ⟨h0, hmap, htext, hsome⟩ := swap_premises h
  obtain ⟨t', ht', hreg, hmem, hother, hregs, -, ⟨hcfg, -⟩, -⟩ := swapExchanges a d s h0 hmap htext hsome
  obtain rfl : t = t' := by simpa [h] using ht'
  have hxa : t.x a = s.x a := hregs a (by simpa using hne)
  have hsecond := swapExchanges a d t
  rw [hxa, hcfg] at hsecond
  obtain ⟨u, hu, hreg', hmem', hother', hregs', -, -, -⟩ := hsecond h0
    (fun j hj => (State.mapped_of_cfg hcfg _).trans (hmap j hj))
    (fun j hj => (State.inText_of_cfg hcfg _).trans (htext j hj)) (fun j hj => by rw [hmem j hj]; rfl)
  refine ⟨u, hu, fun r _ => ?_, fun b => ?_⟩
  · by_cases hr : r = d
    · rw [hr]
      have hucfg : u.cfg.variant = s.cfg.variant := by rw [(exec_effect hu).cfg, hcfg]
      have hux := u.x_lt d
      have hsx := s.x_lt d
      rw [hucfg, Variant.bits_eq] at hux
      rw [Variant.bits_eq] at hsx
      refine eq_of_bytes hux hsx fun j hj => ?_
      exact Option.some.inj ((hreg' j hj).symm.trans (hmem j hj))
    · rw [hregs' r (by simpa using hr), hregs r (by simpa using hr)]
  · by_cases hb : ∀ j < s.cfg.variant.bytes, b ≠ (s.x a).toNat + j
    · rw [hother' b hb, hother b hb]
    · push Not at hb
      obtain ⟨j, hj, rfl⟩ := hb
      rw [hmem' j hj, hreg j hj]

/-! ## Reads of part of what was stored -/

/-- The addresses of an access that begins `i` bytes into another (R57, R63). -/
theorem addWrap_address {x : Variant} {addr : Word} {i j : Nat} (hi : i < 2 ^ 128) :
    ((addWrap x addr (BitVec.ofNat 128 i)).toNat + j) % 2 ^ x.bits = (addr.toNat + (i + j)) % 2 ^ x.bits := by
  rw [addWrap_toNat, BitVec.toNat_ofNat, Nat.mod_eq_of_lt hi, Nat.mod_add_mod, Nat.add_assoc]

/-- A slice of a slice, widened in between. -/
theorem extractLsb'_setWidth_extractLsb' {v : Word} {i j m : Nat} (hj : j < m) (hm : m ≤ 16) :
    ((v.extractLsb' (8 * i) (8 * m)).setWidth 128).extractLsb' (8 * j) 8 = v.extractLsb' (8 * (i + j)) 8 := by
  apply BitVec.eq_of_getLsbD_eq
  intro k hk
  have hin : 8 * j + k < 128 := by omega
  have hin' : 8 * j + k < 8 * m := by omega
  rw [BitVec.getLsbD_extractLsb', BitVec.getLsbD_extractLsb', BitVec.getLsbD_setWidth, BitVec.getLsbD_extractLsb',
    decide_eq_true hin, decide_eq_true hin', Bool.true_and, Bool.true_and, mul_add, Nat.add_assoc]

/-- Settles O42: byte `j` of the read is byte `i + j` of what was stored, and the bytes determine the value. -/
theorem mixedWidthReads : Obligations.MixedWidthReads := by
  intro s t addr n m i v hn hm him hw
  obtain ⟨hmap, -, rfl⟩ := State.memWrite_eq_ok.mp hw
  have hn16 := accessSize_le hn
  have hm16 := accessSize_le hm
  have haddr : ∀ j, ((addWrap s.cfg.variant addr (BitVec.ofNat 128 i)).toNat + j) % 2 ^ s.xlen = (addr.toNat + (i + j)) % 2 ^ s.xlen :=
    fun j => addWrap_address (lt_of_le_of_lt (by omega : i ≤ 16) (by decide))
  have hbyte : ∀ j < m, (s.storeBytes addr n v).byte
      (((addWrap s.cfg.variant addr (BitVec.ofNat 128 i)).toNat + j) % 2 ^ s.xlen) = some (v.extractLsb' (8 * (i + j)) 8) := by
    intro j hj
    rw [haddr]
    exact State.storeBytes_byte_extractLsb' v hn (by omega)
  refine State.memRead_eq_ok.mpr ⟨State.forall_mem_addresses.mpr fun j hj => ?_, State.forall_mem_addresses.mpr fun j hj => ?_, ?_⟩
  · rw [State.mapped_of_cfg (s.storeBytes_cfg addr n v)]
    refine (congrArg s.mapped (haddr j)).trans (State.forall_mem_addresses.mp hmap (i + j) (by omega))
  · exact (congrArg Option.isSome (hbyte j hj)).trans rfl
  · refine eq_of_bytes (n := m) ?_ (State.toNat_valueAt_lt ..) fun j hj => ?_
    · have hlt := (v.extractLsb' (8 * i) (8 * m)).isLt
      rw [BitVec.toNat_setWidth]
      exact lt_of_le_of_lt (Nat.mod_le _ _) hlt
    · rw [extractLsb'_setWidth_extractLsb' hj hm16]
      have hread := State.valueAt_extractLsb' (s := s.storeBytes addr n v) hm16 hj (congrArg Option.isSome (hbyte j hj))
      exact Option.some.inj ((hbyte j hj).symm.trans hread)

end Sys2Proof.Machine
end

section
/-! Jumps and conditional branches (R211 to R226): a jump goes to its target unexamined, a branch is its condition and `branch`. -/

namespace Sys2Proof.Machine

/-! ## Jumps -/

/-- The link register after JALR and JALI holds the address that follows the jump (R213, R215). -/
theorem link_toNat (s : State) (d : Reg) (p : Word) : (((s.setX d s.pcNext).setPc p).x d).toNat = (s.pc.toNat + 4) % 2 ^ s.xlen := by
  rw [State.setPc_x, State.setX_x, if_pos rfl, State.fit_pcNext]
  exact trunc_toNat _ _

/-- Settles O51: the target of each jump, read or computed in the state before, and the link. -/
theorem jumpsGoAndLink : Obligations.JumpsGoAndLink := by
  intro a d imm s
  refine ⟨⟨_, rfl, s.fit_x a, link_toNat s d _, keepsRegs_setX s d s.pcNext, rfl, fun _ => rfl, rfl, rfl, rfl, rfl, rfl⟩,
    ⟨_, rfl, s.fit_x a, fun _ _ => rfl, rfl, fun _ => rfl, rfl, rfl, rfl, rfl, rfl⟩,
    ⟨_, rfl, ?_, link_toNat s d _, keepsRegs_setX s d s.pcNext, rfl, fun _ => rfl, rfl, rfl, rfl, rfl, rfl⟩⟩
  rw [State.setPc_readPc, State.setX_cfg, fit_addWrap]
  exact addWrap_offset (extOffJump_toNat s.cfg imm)

/-! ## Branches -/

/-- An instruction that ends as `branch` does is a conditional branch on what `branch` is given (R211). -/
theorem branches_of_exec {i : Instr} {s : State} {taken : Bool} {cond : Prop} {r : Reg} (hi : exec i s = branch s taken r)
    (hcond : taken = true ↔ cond) : Branches i s cond r := by
  refine ⟨fun hc h4 => ?_, fun hc hmis => ?_, fun hnot => ?_⟩
  · refine ⟨s.setPc (s.x r), ?_, s.fit_x r, fun _ _ => rfl, rfl, fun _ => rfl, rfl, rfl, rfl, rfl, rfl⟩
    rw [hi, branch, if_pos (hcond.mpr hc), if_neg (not_not.mpr h4)]
  · rw [hi, branch, if_pos (hcond.mpr hc), if_pos hmis]
    rfl
  · refine ⟨s.advance, ?_, s.advance_fallsThrough, movesOnly_advance s⟩
    rw [hi, branch, if_neg (mt hcond.mp hnot)]

/-- Settles O52. -/
theorem branchesOnEquality : Obligations.BranchesOnEquality :=
  fun _ _ _ _ => ⟨branches_of_exec rfl beq_iff_eq, branches_of_exec rfl (by simp)⟩

/-- The comparison under BRANCH_CMP is that of the integers it reads (R216). -/
theorem less_iff {c : Config} {p q : Word} :
    less c p q = true ↔ readAs c.branchCmp c.variant p < readAs c.branchCmp c.variant q := by
  unfold less readAs
  cases c.branchCmp with
  | signed => exact decide_eq_true_iff
  | unsigned => exact decide_eq_true_iff.trans Int.ofNat_lt.symm

/-- The negated comparison, for BGTE and BLTE (R220, R222). -/
theorem not_less_iff {c : Config} {p q : Word} :
    (!less c p q) = true ↔ readAs c.branchCmp c.variant q ≤ readAs c.branchCmp c.variant p := by
  rw [Bool.not_eq_true', Bool.eq_false_iff, Ne, less_iff, not_lt]

/-- Settles O53. -/
theorem branchesOnOrder : Obligations.BranchesOnOrder :=
  fun _ _ _ _ => ⟨branches_of_exec rfl less_iff, branches_of_exec rfl not_less_iff, branches_of_exec rfl less_iff,
    branches_of_exec rfl not_less_iff⟩

/-- Settles O54. -/
theorem branchesOnFlags : Obligations.BranchesOnFlags :=
  fun _ _ => ⟨branches_of_exec rfl .rfl, branches_of_exec rfl (by simp), branches_of_exec rfl .rfl, branches_of_exec rfl .rfl⟩

end Sys2Proof.Machine
end
